-- ==== Sys2Proof/Word.lean ====
section
/-! DEFINITION. The word types of the sflz4 codec core: what the spec itself calls bits
(spec 00_scope.md R8, 10_state.md R15, R18, R19). `XLEN`-bit pointers, lengths and cursors are
naturals (92_eei_decisions.md D4, D23; assumption log 11). -/

namespace Sys2Proof

/-- An 8-bit byte of a buffer or of the block stream (R23, R40). -/
abbrev Byte := BitVec 8

/-- A nibble of the token byte (R61). -/
abbrev Nibble := BitVec 4

/-- The 16-bit copy offset (R66). -/
abbrev Half := BitVec 16

/-- A 32-bit word: a peeked value, a decoder accumulator, a hash-table entry (R15, R19, R90). -/
abbrev Word := BitVec 32

end Sys2Proof
end

