-- ==== Sys2Proof/Syntax.lean ====
section
/-! DEFINITION. The instructions: one constructor per row of spec/opcode_table.json, the eight command
codes of 30_encoding.md R72 and the seven elements of the block stream of R68. -/

namespace Sys2Proof

/-- Every row of spec/opcode_table.json. -/
inductive Instr where
  /-- `OP` = 1 (R72, R170). -/
  | worstCaseDstLen
  /-- `OP` = 2 (R72, R130). -/
  | blockEncode
  /-- `OP` = 3 (R72, R100). -/
  | blockDecode
  /-- `OP` = 4 (R72, R90). -/
  | peekU32le
  /-- `OP` = 5 (R72, R95). -/
  | lcp
  /-- `OP` = 0, which names no operation (R72). -/
  | refusedOp0
  /-- `OP` = 6, which names no operation (R72). -/
  | refusedOp6
  /-- `OP` = 7, which names no operation (R72). -/
  | refusedOp7
  /-- The token byte: `l` its high nibble, `m` its low nibble (R61, R103). -/
  | token (l m : Nibble)
  /-- A 255-valued byte of a literal-length run (R63, R104). -/
  | litExtCont
  /-- The byte below 255 that ends a literal-length run (R63, R104). -/
  | litExtEnd (r : Byte)
  /-- One literal byte (R65, R105). -/
  | literal (b : Byte)
  /-- The two offset bytes (R66, R107). -/
  | offset (copyOff : Half)
  /-- A 255-valued byte of a match-length run (R63, R108). -/
  | matchExtCont
  /-- The byte below 255 that ends a match-length run (R63, R108). -/
  | matchExtEnd (r : Byte)
deriving DecidableEq, Repr

end Sys2Proof
end

