-- ==== Sys2Proof/WellFormed.lean ====
section
/-! DEFINITION. Which instructions are well formed: the byte that ends an extension run is below 255
(30_encoding.md R63; the `constraint` of the rows `LIT_EXT_END` and `MATCH_EXT_END`). Every other
operand value is legal (R61, R65, R69; a zero offset is a legal word that raises, R70). -/

namespace Sys2Proof

/-- The operand constraints of the opcode table. -/
def Instr.wf : Instr → Bool
  | .litExtEnd r => r != 255#8
  | .matchExtEnd r => r != 255#8
  | .worstCaseDstLen | .blockEncode | .blockDecode | .peekU32le | .lcp => true
  | .refusedOp0 | .refusedOp6 | .refusedOp7 => true
  | .token _ _ | .litExtCont | .literal _ | .offset _ | .matchExtCont => true

end Sys2Proof
end

