-- ==== Sys2Proof/Decode.lean ====
section
/-! DEFINITION. Decoding and encoding. The kind of a stream byte is decided by position alone
(30_encoding.md R68), so decoding takes the position (`Ctx`) beside the bytes; a command is the 3-bit
code of R72. The encoder stands after the decoder and is written from the same tables (R61 to R67, R72). -/

namespace Sys2Proof

/-- Where an encoded item stands: a command code in `OP` (R72), or one of the positions of the block
stream (R68, the `context` key of the opcode table). -/
inductive Ctx where
  | command | token | litExt | literal | offset | matchExt
deriving DecidableEq, Repr

/-- Why bytes do not decode. `truncated`: fewer bytes than the element has. `opTooWide`: a command code
that does not fit the 3 bits of `OP` (R73). -/
inductive DecodeRefusal where
  | truncated
  | opTooWide
deriving DecidableEq, Repr

/-- The size in bytes of an encoded item at a position (R68); a command code is laid out in one byte. -/
def Ctx.size : Ctx → Nat
  | .offset => 2
  | .command | .token | .litExt | .literal | .matchExt => 1

/-- The high nibble `v[7:4]` (R8, R61). -/
def highNibble (b : Byte) : Nibble := b.extractLsb' 4 4

/-- The low nibble `v[3:0]` (R8, R61). -/
def lowNibble (b : Byte) : Nibble := b.extractLsb' 0 4

/-- The low byte `v[7:0]` of a 16-bit value (R45, R66). -/
def lowByte (h : Half) : Byte := h.extractLsb' 0 8

/-- The high byte `v[15:8]` of a 16-bit value (R45, R66). -/
def highByte (h : Half) : Byte := h.extractLsb' 8 8

/-- A 16-bit value from its two bytes, low byte first (R44, R66). -/
def halfLE (b0 b1 : Byte) : Half := b0.setWidth 16 ||| (b1.setWidth 16 <<< 8)

/-- The operation a command code names (R72): total on the 3 bits of `OP`. -/
def decodeCommand (op : BitVec 3) : Instr :=
  match op.toNat with
  | 0 => .refusedOp0
  | 1 => .worstCaseDstLen
  | 2 => .blockEncode
  | 3 => .blockDecode
  | 4 => .peekU32le
  | 5 => .lcp
  | 6 => .refusedOp6
  | _ => .refusedOp7

/-- Decode the item at position `ctx` from the front of the bytes: the instruction and the bytes after
it, or why there is none. -/
def decode (ctx : Ctx) (bytes : List Byte) : Except DecodeRefusal (Instr × List Byte) :=
  match ctx, bytes with
  | .command, b :: rest =>
    if b.toNat < 8 then .ok (decodeCommand (b.setWidth 3), rest) else .error .opTooWide
  | .token, b :: rest => .ok (.token (highNibble b) (lowNibble b), rest)
  | .litExt, b :: rest => .ok (if b = 255#8 then .litExtCont else .litExtEnd b, rest)
  | .literal, b :: rest => .ok (.literal b, rest)
  | .offset, b0 :: b1 :: rest => .ok (.offset (halfLE b0 b1), rest)
  | .matchExt, b :: rest => .ok (if b = 255#8 then .matchExtCont else .matchExtEnd b, rest)
  | _, _ => .error .truncated

/-- The position an instruction stands at. -/
def contextOf : Instr → Ctx
  | .worstCaseDstLen | .blockEncode | .blockDecode | .peekU32le | .lcp => .command
  | .refusedOp0 | .refusedOp6 | .refusedOp7 => .command
  | .token _ _ => .token
  | .litExtCont | .litExtEnd _ => .litExt
  | .literal _ => .literal
  | .offset _ => .offset
  | .matchExtCont | .matchExtEnd _ => .matchExt

/-- The bytes of an instruction, from the encoding tables R61, R63, R65, R66, R72. -/
def encode : Instr → List Byte
  | .refusedOp0 => [0x00#8]
  | .worstCaseDstLen => [0x01#8]
  | .blockEncode => [0x02#8]
  | .blockDecode => [0x03#8]
  | .peekU32le => [0x04#8]
  | .lcp => [0x05#8]
  | .refusedOp6 => [0x06#8]
  | .refusedOp7 => [0x07#8]
  | .token l m => [l ++ m]
  | .litExtCont => [0xFF#8]
  | .litExtEnd r => [r]
  | .literal b => [b]
  | .offset o => [lowByte o, highByte o]
  | .matchExtCont => [0xFF#8]
  | .matchExtEnd r => [r]

/-- The position at which the host's numbered table word is read. The opcode table gives the same byte
to several rows, told apart by position only (R68); this fixes one reading per word (assumption log 9):
two bytes are an offset, a byte below 8 is a command code, FF is a byte of a length run, any other byte
is a token. -/
def tableCtx (nbits w : Nat) : Ctx :=
  if 8 < nbits then .offset else if w < 8 then .command else if w = 255 then .litExt else .token

/-- The bytes of a numbered table word, the first byte its low 8 bits. -/
def tableBytes (nbits w : Nat) : List Byte :=
  if 8 < nbits then [BitVec.ofNat 8 w, BitVec.ofNat 8 (w / 256)] else [BitVec.ofNat 8 w]

/-- The instruction the decoder reads from an opcode-table word whose bits are `w`. -/
def decodeTableWord (nbits w : Nat) : Option Instr :=
  match decode (tableCtx nbits w) (tableBytes nbits w) with
  | .ok (i, _) => some i
  | .error _ => none

end Sys2Proof
end

