-- ==== Sys2Proof/Config.lean ====
section
/-! DEFINITION. The constants of the hardware (00_scope.md R5) and its open parameters (R6, R7;
92_eei_decisions.md D2, D4, D5). The parameters are plain data that `State` carries, so that a
statement about every state is a statement about every choice of them. -/

namespace Sys2Proof.Config

/-- `HT_ENTRIES` (R5). -/
abbrev htEntries : Nat := 4096
/-- `HASH_MULT` (R5, R133): 2654435761 = 0x9E3779B1. -/
abbrev hashMult : Word := 0x9E3779B1#32
/-- `HASH_SHIFT` (R5, R133). -/
abbrev hashShift : Nat := 20
/-- `DEC_MAX_SRC_LEN` (R5, R101). -/
abbrev decMaxSrcLen : Nat := 0x00FFFFFF
/-- `ENC_MAX_SRC_LEN` (R5, R131, R170). -/
abbrev encMaxSrcLen : Nat := 0x7E000000
/-- `MAX_OFFSET` (R5, R66, R136). -/
abbrev maxOffset : Nat := 65535
/-- `MIN_MATCH` (R5, R67). -/
abbrev minMatch : Nat := 4
/-- `SHORT_INPUT` (R5, R132). -/
abbrev shortInput : Nat := 12
/-- `MATCH_LIMIT_TAIL` (R5, R134). -/
abbrev matchLimitTail : Nat := 5
/-- `FINAL_LIMIT_TAIL` (R5, R134). -/
abbrev finalLimitTail : Nat := 11
/-- `STEP_COUNTER_INIT` (R5, R135). -/
abbrev stepCounterInit : Nat := 64
/-- `STEP_SHIFT` (R5, R135). -/
abbrev stepShift : Nat := 6
/-- `WC_DIV` (R5, R170). -/
abbrev wcDiv : Nat := 255
/-- `WC_ADD` (R5, R170). -/
abbrev wcAdd : Nat := 16

/-- What a range of addresses is when it is not plain readable and writable memory
(20_memory.md R41; 93_implementation_defined.md U11). -/
inductive RegionKind where
  | readOnly   -- ordinary readable memory that cannot be written: no destination may lie there
  | device     -- accesses have side effects: no buffer may lie there
  | unmapped   -- no memory: no buffer may lie there
deriving DecidableEq, Repr

/-- A range of addresses that is not plain memory. -/
structure Region where
  base : Nat
  size : Nat
  kind : RegionKind
deriving DecidableEq, Repr

/-- The open parameters of the hardware: fixed for one machine, changed by no step.
`xlen` is `XLEN` (R6), `hostPrimitives` is `HOST_PRIMITIVES` (R7), `map` lists the ranges that are
not plain memory (R41; DESIGN CHOICE, assumption log 3). -/
structure Params where
  xlen : Nat
  hostPrimitives : Bool
  map : List Region
deriving DecidableEq, Repr

/-- `XLEN ≥ 32` (R6). -/
abbrev Params.wf (p : Params) : Prop := 32 ≤ p.xlen

/-- The parameters after reset: the smallest `XLEN` (DESIGN CHOICE, log 1), the default of
`HOST_PRIMITIVES` (R7, log 2), every byte plain memory (DESIGN CHOICE, log 3). -/
def Params.default : Params := { xlen := 32, hostPrimitives := false, map := [] }

/-! ### Free values -/

/-- The code of `STATUS` (R74) that the host reads before any command has ended: unspecified, any value
(10_state.md R25; 93_implementation_defined.md U12). It has no body (assumption log 8). -/
opaque unspecifiedStatus : BitVec 2

/-- What the host reads from `VALUE` before any command has ended, taken to `XLEN` bits: unspecified, any value
(10_state.md R25; 93_implementation_defined.md U12). It has no body (assumption log 8). -/
opaque unspecifiedValue : Nat

end Sys2Proof.Config
end

