-- ==== Sys2Proof/Machine/State.lean ====
section
/-! DEFINITION. The state of the codec core as plain data: everything 10_state.md gives the machine
(R10 to R25), the parameters of 00_scope.md R6 and R7, and the host's memory (20_memory.md R40).
INVENTORY.md lists each field with its rule and reset value. -/

namespace Sys2Proof.Machine

/-- `PHASE` (R14). -/
inductive Phase where
  | idle | busy
deriving DecidableEq, Repr

/-- `STATUS` (R13, R74): `ok` or one of three error kinds. -/
inductive Status where
  | ok | dstTooShort | invalidData | srcTooLong
deriving DecidableEq, Repr

/-- The three error kinds (R175), what `raise` takes. -/
inductive ErrorKind where
  | dstTooShort | invalidData | srcTooLong
deriving DecidableEq, Repr

/-- `DSTATE` (R16). -/
inductive DState where
  | dPrecheck | dToken | dLitExt | dLitCheck | dLitCopy
  | dEndCheck | dOffset | dMatchExt | dMatchCheck | dMatchCopy
deriving DecidableEq, Repr

/-- `ESTATE` (R18, R146). -/
inductive EState where
  | ePrecheck | eSetup | eScanInit | eScan | eBackward | eToken
  | eMatch | eAdvance | eBackfill | eFollow | eFinal
deriving DecidableEq, Repr

/-- The working registers of `BLOCK_DECODE` (R15). `fromOff` is the spec's `from`. -/
structure DecRegs where
  sp : Nat
  dp : Nat
  token : Byte
  literalLen : Word
  copyOff : Half
  copyLen : Word
  fromOff : Nat
  n : Word
  dstate : DState
deriving DecidableEq, Repr

/-- The working registers of `BLOCK_ENCODE` (R18). `matchOff` is the spec's `match`. -/
structure EncRegs where
  sp : Nat
  literalStart : Nat
  dp : Nat
  matchOff : Nat
  matchLimit : Nat
  finalLiteralsLimit : Nat
  step : Nat
  stepCounter : Nat
  literalLen : Nat
  copyOff : Half
  adjCopyLen : Nat
  tokenPos : Nat
  token : Byte
  finalLiteralLen : Nat
  wc : Nat
  estate : EState
deriving DecidableEq, Repr

/-- The operand and result of the word loader's latest use, the word reads inside the scanner apart (R20;
assumption logs 19, 29). -/
structure PeekRegs where
  p : Nat
  data : Word
deriving DecidableEq, Repr

/-- The operands and result of the common-prefix unit's latest use (R20; assumption log 19). -/
structure LcpRegs where
  p : Nat
  q : Nat
  pLimit : Nat
  k : Nat
deriving DecidableEq, Repr

/-- The host's byte-addressed memory: address and byte, addresses strictly rising, no entry equal to
what an unlisted address reads as, which is 0 (DESIGN CHOICE, assumption log 4). -/
abbrev Memory := List Host.Cell

/-- The hash table `HT` (R19): index and entry in the same canonical form; an unlisted entry is 0. -/
abbrev HashTable := List (Nat × Word)

/-- The whole state of one engine and the host memory it reaches. -/
structure State where
  /-- The open parameters (R6, R7, R41): fixed for the machine. -/
  params : Config.Params
  /-- `PHASE` (R14). -/
  phase : Phase
  /-- `OP` (R12, R73). -/
  op : BitVec 3
  /-- `DST_PTR` (R12). -/
  dstPtr : Nat
  /-- `DST_LEN` (R12). -/
  dstLen : Nat
  /-- `SRC_PTR` (R12). -/
  srcPtr : Nat
  /-- `SRC_LEN` (R12). -/
  srcLen : Nat
  /-- `STATUS` (R13). -/
  status : Status
  /-- `VALUE` (R13). -/
  value : Nat
  /-- The model's own bit: a command has ended since reset, so the host reads the result registers; before that
  it reads unspecified values (R25, U12; assumption log 8). -/
  ended : Bool
  /-- The decoder's working registers (R15). -/
  dec : DecRegs
  /-- The encoder's working registers (R18). -/
  enc : EncRegs
  /-- The hash table (R19). -/
  ht : HashTable
  /-- The word loader's operand and result (R20). -/
  peek : PeekRegs
  /-- The common-prefix unit's operands and `k` (R20). -/
  lcp : LcpRegs
  /-- The host's memory (R23, R40). -/
  mem : Memory
deriving DecidableEq, Repr

/-- The faults. All are the model's own: the hardware's errors are the kinds of `STATUS` (R175), and a
step that would do one of these "does not exist" (R43), so stopping is safe. No run of a started command
reaches them. -/
inductive Fault where
  /-- A source read at an offset that is not below `SRC_LEN` (R43): raised by the encoder's reads, the
  peek unit and the literal copy in states outside the invariants R113 and R147. Safe. -/
  | sourceOutOfBounds
  /-- A destination access at an offset that is not below `DST_LEN` (R43): raised by every write of the
  two codecs and by the match copy in states outside the invariants R113 and R147. Safe. -/
  | destinationOutOfBounds
  /-- A command that has not ended after more steps than any command takes (R115, R147 item 7, R204):
  raised by the whole-command meanings only. Safe. -/
  | commandDidNotEnd
deriving DecidableEq, Repr

/-- The refusals: situations "outside every rule" to which the spec gives no meaning (R8 `refuse`,
R184, 93_implementation_defined.md). -/
inductive Refusal where
  /-- An instruction the model gives no meaning yet, by its mnemonic. No arm uses it. Safe. -/
  | notModelled (mnemonic : String)
  /-- A command code that names no operation (R72, U9): the three refused codes. Safe. -/
  | opNamesNoOperation
  /-- `PEEK_U32LE` or `LCP` from the host while `HOST_PRIMITIVES` is false (R72, U9). Safe. -/
  | primitiveNotExported
  /-- A host move while `PHASE = BUSY` (R14, R206): starting a command, writing an operand register or a
  byte, reading the result or a byte. Safe. -/
  | hostMoveWhileBusy
  /-- The source range wraps round or is not plain readable memory (R41, U11): any command that uses it. Safe. -/
  | sourceRangeInvalid
  /-- The destination range wraps round or is not plain writable memory (R41, U11). Safe. -/
  | destinationRangeInvalid
  /-- Source and destination share a byte (R52, U2): the two codecs. Safe. -/
  | buffersOverlap
  /-- `PEEK_U32LE` from the host with `SRC_LEN < 4` (R91, U3). Safe. -/
  | peekOutsideBuffer
  /-- `LCP` from the host whose scan would read past `DST_LEN` (R96, U4). Safe. -/
  | lcpSecondSequenceTooShort
  /-- A stream element run where the decoder does not expect it: position decides what a byte is (R68).
  Raised by the element meanings outside their `DSTATE`; no step does so. Safe. -/
  | elementOutOfPosition
  /-- A run-ending extension byte of 255, which is no such element (R63). No decoded element is one. Safe. -/
  | elementIllFormed
deriving DecidableEq, Repr

/-- Every field after reset: `PHASE` is IDLE (R201); every other value is a DESIGN CHOICE (R25 gives
none; assumption logs 1 to 5). -/
def State.reset : State where
  params := Config.Params.default
  phase := .idle
  op := 0#3
  dstPtr := 0
  dstLen := 0
  srcPtr := 0
  srcLen := 0
  status := .ok
  value := 0
  ended := false
  dec :=
    { sp := 0, dp := 0, token := 0#8, literalLen := 0#32, copyOff := 0#16, copyLen := 0#32
      fromOff := 0, n := 0#32, dstate := .dPrecheck }
  enc :=
    { sp := 0, literalStart := 0, dp := 0, matchOff := 0, matchLimit := 0, finalLiteralsLimit := 0
      step := 0, stepCounter := 0, literalLen := 0, copyOff := 0#16, adjCopyLen := 0, tokenPos := 0
      token := 0#8, finalLiteralLen := 0, wc := 0, estate := .ePrecheck }
  ht := []
  peek := { p := 0, data := 0#32 }
  lcp := { p := 0, q := 0, pLimit := 0, k := 0 }
  mem := []

end Sys2Proof.Machine
end

