-- ==== Sys2Proof/Machine/Ops.lean ====
section
/-! DEFINITION. The named operations over memory, the hash table and the buffers, and the two ways a
command ends: `raise` and `ret` (60_exceptions.md R179 to R181). -/

namespace Sys2Proof.Machine

/-- The outcome of a step of this machine. -/
abbrev Out := Host.Outcome State Fault Refusal

/-- Go on with the next state, if there is one. -/
def andThen (o : Out) (f : State → Out) : Out :=
  match o with
  | .next s => f s
  | .fault r => .fault r
  | .refused r => .refused r

/-! ### Sparse storage in canonical form -/

/-- The entry at `a`; an unlisted entry is 0. -/
def storeRead {w : Nat} : List (Nat × BitVec w) → Nat → BitVec w
  | [], _ => 0#w
  | (k, u) :: rest, a => if a = k then u else storeRead rest a

/-- Put `v` at `a`, keeping the addresses rising and listing no zero entry. -/
def storeWrite {w : Nat} : List (Nat × BitVec w) → Nat → BitVec w → List (Nat × BitVec w)
  | [], a, v => if v = 0#w then [] else [(a, v)]
  | (k, u) :: rest, a, v =>
    if a < k then (if v = 0#w then (k, u) :: rest else (a, v) :: (k, u) :: rest)
    else if a = k then (if v = 0#w then rest else (a, v) :: rest)
    else (k, u) :: storeWrite rest a v

/-- The canonical form: addresses strictly rising, no entry equal to what an unlisted one reads as. -/
abbrev storeWf {w : Nat} (m : List (Nat × BitVec w)) : Prop :=
  m.Pairwise (fun x y => x.1 < y.1) ∧ ∀ c ∈ m, c.2 ≠ 0#w

/-- The memory is in canonical form. -/
abbrev Memory.wf (m : Memory) : Prop := storeWf m

/-! ### Memory (20_memory.md R40, R44, R49) -/

/-- `MemRead(a, 1)` (R8). -/
def memRead (m : Memory) (a : Nat) : Byte := storeRead m a

/-- `MemWrite(a, 1, v)` (R8). -/
def memWrite (m : Memory) (a : Nat) (v : Byte) : Memory := storeWrite m a v

/-- `MemRead(a, 4)`: four bytes, the lowest address the least significant (R44, R46). -/
def memRead32 (m : Memory) (a : Nat) : Word :=
  (memRead m a).setWidth 32 ||| (memRead m (a + 1)).setWidth 32 <<< 8 |||
    (memRead m (a + 2)).setWidth 32 <<< 16 ||| (memRead m (a + 3)).setWidth 32 <<< 24

/-- The `n` bytes from address `a` up, in ascending order. -/
def bytesFrom (m : Memory) (a : Nat) : Nat → List Byte
  | 0 => []
  | n + 1 => memRead m a :: bytesFrom m (a + 1) n

/-- Write a list of bytes from address `a` up, in ascending order. -/
def writeBytes (m : Memory) (a : Nat) : List Byte → Memory
  | [] => m
  | b :: bs => writeBytes (memWrite m a b) (a + 1) bs

/-! ### The hash table (10_state.md R19) -/

/-- `HT[i]` (R8). -/
def htRead (t : HashTable) (i : BitVec 12) : Word := storeRead t i.toNat

/-- `HT[i] <- v` (R8). -/
def htWrite (t : HashTable) (i : BitVec 12) (v : Word) : HashTable := storeWrite t i.toNat v

/-- The cleared table: all 4096 entries 0 (R134). -/
def htCleared : HashTable := []

/-! ### The end of a command -/

/-- The `STATUS` value of an error kind (R74). -/
def ErrorKind.status : ErrorKind → Status
  | .dstTooShort => .dstTooShort
  | .invalidData => .invalidData
  | .srcTooLong => .srcTooLong

/-- The end of a command (R179, R14): `STATUS` and `VALUE` written and `PHASE <- IDLE` in one step. -/
def State.finish (st : Status) (v : Nat) (s : State) : State :=
  { s with status := st, value := v, phase := .idle, ended := true }

/-- `raise <Kind>` (R180): `STATUS <- Kind`, `VALUE <- 0`, the command ends, nothing else changes. -/
def raise (k : ErrorKind) (s : State) : State := s.finish k.status 0

/-- `return v` (R181): `STATUS <- ok`, `VALUE <- v`, the command ends. -/
def ret (v : Nat) (s : State) : State := s.finish .ok v

/-- Run visits of a command until it ends (`PHASE = IDLE`), at most `fuel` of them. -/
def runToEnd (visit : State → Out) : Nat → State → Out
  | 0, s => if s.phase = .idle then .next s else .fault .commandDidNotEnd
  | fuel + 1, s => if s.phase = .idle then .next s else andThen (visit s) (runToEnd visit fuel)

end Sys2Proof.Machine
end

