-- ==== Sys2Proof/Machine/Operands.lean ====
section
/-! DEFINITION. The operands of a command: when a (pointer, length) pair denotes a buffer
(20_memory.md R41, R42, R52; 92_eei_decisions.md D5, D6, D21), and which refusal a broken contract
gives (60_exceptions.md R184). -/

namespace Sys2Proof.Machine

open Sys2Proof.Config

/-- The range of `len` bytes at `ptr` touches the region. -/
def touches (ptr len : Nat) (r : Region) : Bool :=
  ptr < r.base + r.size && r.base < ptr + len && 0 < r.size

/-- A region no source may touch: it is not readable without side effects (R41). -/
def RegionKind.unreadable : RegionKind → Bool
  | .readOnly => false
  | .device | .unmapped => true

/-- A source buffer (R41): no bytes at all (R42), or no wrap-around and every byte plain readable memory. -/
def readableBuffer (p : Params) (ptr len : Nat) : Bool :=
  len == 0 || (ptr + len ≤ 2 ^ p.xlen &&
    p.map.all (fun r => !(touches ptr len r && RegionKind.unreadable r.kind)))

/-- A destination buffer (R41): no bytes at all (R42), or no wrap-around and every byte plain memory. -/
def writableBuffer (p : Params) (ptr len : Nat) : Bool :=
  len == 0 || (ptr + len ≤ 2 ^ p.xlen && p.map.all (fun r => !touches ptr len r))

/-- Two ranges share no byte (R52). -/
def disjointRanges (p lp q lq : Nat) : Bool :=
  lp == 0 || lq == 0 || p + lp ≤ q || q + lq ≤ p

/-- Why a codec command has no meaning, if it has none: a range that is no buffer, or two that overlap
(R41, R52). -/
def codecRefusal (s : State) : Option Refusal :=
  if !readableBuffer s.params s.srcPtr s.srcLen then some .sourceRangeInvalid
  else if !writableBuffer s.params s.dstPtr s.dstLen then some .destinationRangeInvalid
  else if !disjointRanges s.srcPtr s.srcLen s.dstPtr s.dstLen then some .buffersOverlap
  else none

/-- Why a host `PEEK_U32LE` has no meaning, if it has none (R72 host form, R91, D2): the unit is not
exported, the four bytes are not in the buffer, or the range is no buffer. -/
def peekRefusal (s : State) : Option Refusal :=
  if !s.params.hostPrimitives then some .primitiveNotExported
  else if s.srcLen < 4 then some .peekOutsideBuffer
  else if !readableBuffer s.params s.srcPtr s.srcLen then some .sourceRangeInvalid
  else none

end Sys2Proof.Machine
end

