-- ==== Sys2Proof/Machine/Units.lean ====
section
/-! DEFINITION. The internal units: the little-endian word loader (40_le_peek.md R90), the
longest-common-prefix scanner (41_lcp.md R95) and the hash (43_encoder.md R133), and the length
extension bytes both codecs agree on (30_encoding.md R63, 43_encoder.md R140). -/

namespace Sys2Proof.Machine

open Sys2Proof.Config

/-- One use of the word loader at byte address `p` (R90): its result register takes the four bytes. -/
def peekUnit (p : Nat) (s : State) : State :=
  { s with peek := { p := p, data := memRead32 s.mem p } }

/-- The first loop of R95: four bytes at a time while at least four remain and the words agree. -/
def lcpWords (m : Memory) (p q pLimit : Nat) : Nat → Nat → Nat
  | 0, k => k
  | fuel + 1, k =>
    if p + k + 4 ≤ pLimit ∧ memRead32 m (p + k) = memRead32 m (q + k) then
      lcpWords m p q pLimit fuel (k + 4)
    else k

/-- The second loop of R95: one byte at a time up to the limit. -/
def lcpBytes (m : Memory) (p q pLimit : Nat) : Nat → Nat → Nat
  | 0, k => k
  | fuel + 1, k =>
    if p + k < pLimit ∧ memRead m (p + k) = memRead m (q + k) then
      lcpBytes m p q pLimit fuel (k + 1)
    else k

/-- `LCP(p, q, p_limit)` (R95) on byte addresses, as the listing scans. -/
def lcpCount (m : Memory) (p q pLimit : Nat) : Nat :=
  lcpBytes m p q pLimit (pLimit - p) (lcpWords m p q pLimit (pLimit - p) 0)

/-- One use of the scanner with operands that are offsets from `base` (R20, R95). The scanner's own word reads
leave the word loader's registers (DESIGN CHOICE, assumption log 29). -/
def lcpUnit (base p q pLimit : Nat) (s : State) : State :=
  { s with lcp := { p := p, q := q, pLimit := pLimit
                    k := lcpCount s.mem (base + p) (base + q) (base + pLimit) } }

/-- `hash(x)` (R133): the 12 bits 31 to 20 of the low 32 bits of the product. -/
def hash (x : Word) : BitVec 12 := ((x * hashMult) >>> hashShift).setWidth 12

/-- `emit_ext(n)` (R140): `n / 255` bytes of FF and one byte of `n mod 255`. -/
def extBytes (n : Nat) : List Byte :=
  List.replicate (n / 255) 0xFF#8 ++ [BitVec.ofNat 8 (n % 255)]

/-- The extension bytes of a length: none below 15, else the run of `len - 15` (R62, R67, R139). -/
def lengthBytes (len : Nat) : List Byte :=
  if len < 15 then [] else extBytes (len - 15)

/-- The size of the worst-case block for a source of `n` bytes (44_worst_case_size.md R170). -/
def worstCaseSize (n : Nat) : Nat := n + n / wcDiv + wcAdd

/-- The scan of a host `LCP` (R72 host form): `p = SRC_PTR`, `q = DST_PTR`, over the bytes that both ranges
have, so that neither a word nor a byte past the end of a range is read (R43, R96). -/
def lcpHostCount (s : State) : Nat :=
  lcpCount s.mem s.srcPtr s.dstPtr (s.srcPtr + min s.srcLen s.dstLen)

/-- A host `LCP` whose scan would need a byte of the second sequence past `DST_LEN` (R96, U4): the second
sequence is the shorter one and agrees on its whole length. The bytes needed are those up to and including
the first that differ (R97, U7; assumption log 15). -/
abbrev lcpOutruns (s : State) : Prop := s.dstLen < s.srcLen ∧ lcpHostCount s = s.dstLen

/-- Why a host `LCP` has no meaning, if it has none (R72 host form, R96, D2): the unit is not exported, a
range is no buffer, or the second sequence ends before the scan does. Both ranges are only read (R72), so the
model asks of the second, too, only that it be readable, although its operands are `DST_PTR` and `DST_LEN`
(DESIGN CHOICE, assumption log 28). -/
def lcpRefusal (s : State) : Option Refusal :=
  if !s.params.hostPrimitives then some .primitiveNotExported
  else if !readableBuffer s.params s.srcPtr s.srcLen then some .sourceRangeInvalid
  else if !readableBuffer s.params s.dstPtr s.dstLen then some .destinationRangeInvalid
  else if lcpOutruns s then some .lcpSecondSequenceTooShort
  else none

end Sys2Proof.Machine
end

