-- ==== Sys2Proof/Machine/Commands.lean ====
section
/-! DEFINITION. Starting a command (10_state.md R14, 70_reset_and_hazards.md R203, R213), the size
function, the two primitives in the host form, and the refused codes (30_encoding.md R72). -/

namespace Sys2Proof.Machine

open Sys2Proof.Config

/-- The start of a command: `PHASE <- BUSY`, if the engine is idle and the contract is met. -/
def startWith (why : Option Refusal) (s : State) : Out :=
  if s.phase = .busy then .refused .hostMoveWhileBusy
  else
    match why with
    | some r => .refused r
    | none => .next { s with phase := .busy }

/-! ### WORST_CASE_DST_LEN (44_worst_case_size.md R170) -/

/-- The running command: one visit. -/
def worstCaseVisit (s : State) : Out :=
  if encMaxSrcLen < s.srcLen then .next (raise .srcTooLong s)
  else .next (ret (worstCaseSize s.srcLen) s)

/-- `WORST_CASE_DST_LEN` started and run to its end. -/
def execWorstCaseDstLen (s : State) : Out :=
  andThen (startWith none s) (runToEnd worstCaseVisit 1)

/-! ### PEEK_U32LE in the host form (40_le_peek.md R90, 30_encoding.md R72) -/

/-- The running command: `p = SRC_PTR`, the result zero-extended into `VALUE`. -/
def peekVisit (s : State) : Out :=
  if s.srcLen < 4 then .fault .sourceOutOfBounds
  else .next (ret (peekUnit s.srcPtr s).peek.data.toNat (peekUnit s.srcPtr s))

/-- `PEEK_U32LE` issued by the host. -/
def execPeekU32le (s : State) : Out :=
  andThen (startWith (peekRefusal s) s) (runToEnd peekVisit 1)

/-! ### LCP in the host form (41_lcp.md R95, 30_encoding.md R72) -/

/-- The start of a host `LCP`: `k <- 0` (R25, R202). -/
def beginLcp (s : State) : State := { s with lcp := { s.lcp with k := 0 } }

/-- The running command: `p = SRC_PTR`, `p_limit = SRC_PTR + SRC_LEN`, `q = DST_PTR`. A scan that needs a byte
past `DST_LEN` is no step (R43, R96). -/
def lcpVisit (s : State) : Out :=
  if lcpOutruns s then .fault .destinationOutOfBounds
  else
    .next (ret (lcpHostCount s) { s with lcp := {
      p := s.srcPtr, q := s.dstPtr, pLimit := s.srcPtr + s.srcLen, k := lcpHostCount s } })

/-- `LCP` issued by the host. -/
def execLcp (s : State) : Out :=
  andThen (startWith (lcpRefusal s) s) fun t => runToEnd lcpVisit 1 (beginLcp t)

/-! ### The codes that name no operation (30_encoding.md R72, 93_implementation_defined.md U9) -/

/-- `OP` = 0: refused. -/
def execRefusedOp0 (_s : State) : Out := .refused .opNamesNoOperation

/-- `OP` = 6: refused. -/
def execRefusedOp6 (_s : State) : Out := .refused .opNamesNoOperation

/-- `OP` = 7: refused. -/
def execRefusedOp7 (_s : State) : Out := .refused .opNamesNoOperation

end Sys2Proof.Machine
end

