-- ==== Sys2Proof/Machine/Decoder.lean ====
section
/-! DEFINITION. The block decoder (42_decoder.md): the meaning of each stream element, the labels of
R112 that fetch nothing, and `BLOCK_DECODE` run to its end. One visit to a label is one step of the
machine (92_eei_decisions.md D8; assumption log 6). -/

namespace Sys2Proof.Machine

open Sys2Proof.Config

/-- "Remaining source": `SRC_LEN - sp` (R8). -/
def decRemainingSrc (s : State) : Nat := s.srcLen - s.dec.sp

/-- "Remaining destination": `DST_LEN - dp` (R8). -/
def decRemainingDst (s : State) : Nat := s.dstLen - s.dec.dp

/-- The position of the stream element a label fetches, if it fetches one (R68, R112): the literal copy
fetches while literal bytes remain. -/
def elementCtx (s : State) : Option Ctx :=
  match s.dec.dstate with
  | .dToken => some .token
  | .dLitExt => some .litExt
  | .dLitCopy => if s.dec.n = 0#32 then none else some .literal
  | .dOffset => some .offset
  | .dMatchExt => some .matchExt
  | .dPrecheck | .dLitCheck | .dEndCheck | .dMatchCheck | .dMatchCopy => none

/-- The bytes of the element at `sp`: as many as it has, or what is left of the source (R103, R107). -/
def streamBytes (c : Ctx) (s : State) : List Byte :=
  bytesFrom s.mem (s.srcPtr + s.dec.sp) (min c.size (decRemainingSrc s))

/-- A stream element in its position: the engine is running, `DSTATE` is the element's, and its bytes are
there; with too few bytes the label raises `InvalidData` (R103, R104, R107, R108). -/
def inPosition (d : DState) (c : Ctx) (s : State) (effect : State → Out) : Out :=
  if s.phase = .busy ∧ s.dec.dstate = d then
    if decRemainingSrc s < c.size then .next (raise .invalidData s) else effect s
  else .refused .elementOutOfPosition

/-- `TOKEN` (R103): step 1. -/
def execToken (l m : Nibble) (s : State) : Out :=
  inPosition .dToken .token s fun s =>
    .next { s with dec := { s.dec with
      token := l ++ m
      sp := s.dec.sp + 1
      literalLen := l.setWidth 32
      dstate := if l = 15#4 then .dLitExt else .dLitCheck } }

/-- One extension byte of the literal length (R104): the byte is added, and 255 continues the run. -/
def literalExtension (r : Byte) (again : DState) (s : State) : Out :=
  .next { s with dec := { s.dec with
    sp := s.dec.sp + 1
    literalLen := s.dec.literalLen + r.setWidth 32
    dstate := again } }

/-- `LIT_EXT_CONT` (R104): 255 is added and another extension byte follows. -/
def execLitExtCont (s : State) : Out :=
  inPosition .dLitExt .litExt s (literalExtension 255#8 .dLitExt)

/-- `LIT_EXT_END` (R104): a byte below 255 is added and ends the run. -/
def execLitExtEnd (r : Byte) (s : State) : Out :=
  if r = 255#8 then .refused .elementIllFormed
  else inPosition .dLitExt .litExt s (literalExtension r .dLitCheck)

/-- `LITERAL` (R105, `D_LITCOPY` with `n > 0`): one byte of the literal copy. -/
def execLiteral (b : Byte) (s : State) : Out :=
  if s.phase = .busy ∧ s.dec.dstate = .dLitCopy ∧ s.dec.n ≠ 0#32 then
    if decRemainingSrc s < 1 then .fault .sourceOutOfBounds
    else if s.dstLen ≤ s.dec.dp then .fault .destinationOutOfBounds
    else
      .next { s with
        mem := memWrite s.mem (s.dstPtr + s.dec.dp) b
        dec := { s.dec with sp := s.dec.sp + 1, dp := s.dec.dp + 1, n := s.dec.n - 1#32 } }
  else .refused .elementOutOfPosition

/-- `OFFSET` (R107): step 5, and the first part of step 6 (R108). -/
def execOffset (copyOff : Half) (s : State) : Out :=
  inPosition .dOffset .offset s fun s =>
    let t := { s with dec := { s.dec with copyOff := copyOff, sp := s.dec.sp + 2 } }
    if copyOff = 0#16 ∨ s.dec.dp < copyOff.toNat then .next (raise .invalidData t)
    else
      .next { t with dec := { t.dec with
        copyLen := (lowNibble s.dec.token).setWidth 32 + 4#32
        dstate := if lowNibble s.dec.token = 15#4 then .dMatchExt else .dMatchCheck } }

/-- One extension byte of the match length (R108). -/
def matchExtension (r : Byte) (again : DState) (s : State) : Out :=
  .next { s with dec := { s.dec with
    sp := s.dec.sp + 1
    copyLen := s.dec.copyLen + r.setWidth 32
    dstate := again } }

/-- `MATCH_EXT_CONT` (R108): 255 is added and another extension byte follows. -/
def execMatchExtCont (s : State) : Out :=
  inPosition .dMatchExt .matchExt s (matchExtension 255#8 .dMatchExt)

/-- `MATCH_EXT_END` (R108): a byte below 255 is added and ends the run. -/
def execMatchExtEnd (r : Byte) (s : State) : Out :=
  if r = 255#8 then .refused .elementIllFormed
  else inPosition .dMatchExt .matchExt s (matchExtension r .dMatchCheck)

/-! ### The labels that fetch nothing -/

/-- `D_PRECHECK` (R101). -/
def decPrecheck (s : State) : Out :=
  if decMaxSrcLen < s.srcLen then .next (raise .srcTooLong s)
  else .next { s with dec := { s.dec with sp := 0, dp := 0, dstate := .dToken } }

/-- `D_LITCHECK` (R105): the source test first, then the destination test. -/
def decLitCheck (s : State) : Out :=
  if decRemainingSrc s < s.dec.literalLen.toNat then .next (raise .invalidData s)
  else if decRemainingDst s < s.dec.literalLen.toNat then .next (raise .dstTooShort s)
  else .next { s with dec := { s.dec with n := s.dec.literalLen, dstate := .dLitCopy } }

/-- `D_LITCOPY` with `n = 0` (R105). -/
def decLitDone (s : State) : Out :=
  .next { s with dec := { s.dec with dstate := .dEndCheck } }

/-- `D_ENDCHECK` (R106): the only successful exit. -/
def decEndCheck (s : State) : Out :=
  if decRemainingSrc s = 0 then .next (ret s.dec.dp s)
  else .next { s with dec := { s.dec with dstate := .dOffset } }

/-- `D_MATCHCHECK` (R109). -/
def decMatchCheck (s : State) : Out :=
  if decRemainingDst s < s.dec.copyLen.toNat then .next (raise .dstTooShort s)
  else
    .next { s with dec := { s.dec with
      fromOff := s.dec.dp - s.dec.copyOff.toNat, dstate := .dMatchCopy } }

/-- `D_MATCHCOPY` (R110): one byte, read and then written; back to `D_TOKEN` when none is left (R111). -/
def decMatchCopy (s : State) : Out :=
  if s.dec.copyLen = 0#32 then .next { s with dec := { s.dec with dstate := .dToken } }
  else if s.dstLen ≤ s.dec.fromOff ∨ s.dstLen ≤ s.dec.dp then .fault .destinationOutOfBounds
  else
    .next { s with
      mem := memWrite s.mem (s.dstPtr + s.dec.dp) (memRead s.mem (s.dstPtr + s.dec.fromOff))
      dec := { s.dec with
        fromOff := s.dec.fromOff + 1, dp := s.dec.dp + 1, copyLen := s.dec.copyLen - 1#32 } }

/-- A label that fetches no stream element. -/
def decInternal (s : State) : Out :=
  match s.dec.dstate with
  | .dPrecheck => decPrecheck s
  | .dLitCheck => decLitCheck s
  | .dLitCopy => decLitDone s
  | .dEndCheck => decEndCheck s
  | .dMatchCheck => decMatchCheck s
  | .dMatchCopy => decMatchCopy s
  | .dToken | .dLitExt | .dOffset | .dMatchExt => .refused .elementOutOfPosition

/-- A label that needs more source bytes than there are: `InvalidData` (R103, R104, R107, R108). The
literal copy was checked before (R105, R113), so it never gets there. -/
def streamUnderflow (s : State) : Out :=
  if s.dec.dstate = .dLitCopy then .fault .sourceOutOfBounds else .next (raise .invalidData s)

/-- The meaning of a stream element; commands are no stream elements. -/
def runElement (i : Instr) (s : State) : Out :=
  match i with
  | .token l m => execToken l m s
  | .litExtCont => execLitExtCont s
  | .litExtEnd r => execLitExtEnd r s
  | .literal b => execLiteral b s
  | .offset o => execOffset o s
  | .matchExtCont => execMatchExtCont s
  | .matchExtEnd r => execMatchExtEnd r s
  | .worstCaseDstLen | .blockEncode | .blockDecode | .peekU32le | .lcp
  | .refusedOp0 | .refusedOp6 | .refusedOp7 => .refused .elementOutOfPosition

/-- One visit to a label of R112. -/
def decoderVisit (s : State) : Out :=
  match elementCtx s with
  | none => decInternal s
  | some c =>
    match decode c (streamBytes c s) with
    | .ok (i, _) => runElement i s
    | .error _ => streamUnderflow s

/-- The start of a decode: `sp` and `dp` are 0 and `DSTATE` is `D_PRECHECK` (R25). -/
def beginDecode (s : State) : State :=
  { s with dec := { s.dec with sp := 0, dp := 0, dstate := .dPrecheck } }

/-- More visits than any decode takes: each source byte and each destination byte costs a bounded number
of them (R115). -/
def decodeFuel (s : State) : Nat := 8 * s.srcLen + s.dstLen + 10

/-- `BLOCK_DECODE` (R100, R112) started and run to its end (R204). -/
def execBlockDecode (s : State) : Out :=
  andThen (startWith (codecRefusal s) s) fun t =>
    runToEnd decoderVisit (decodeFuel t) (beginDecode t)

end Sys2Proof.Machine
end

