-- ==== Sys2Proof/Machine/Encoder.lean ====
section
/-! DEFINITION. The block encoder (43_encoder.md): the labels of R146 and `BLOCK_ENCODE` run to its end.
One visit to a label is one step of the machine (92_eei_decisions.md D8; assumption log 6). -/

namespace Sys2Proof.Machine

open Sys2Proof.Config

/-- Write bytes at `dp` and move past them; a write outside the destination stops (R43, R151). -/
def emit (bs : List Byte) (s : State) : Out :=
  if s.enc.dp + bs.length ≤ s.dstLen then
    .next { s with
      mem := writeBytes s.mem (s.dstPtr + s.enc.dp) bs
      enc := { s.enc with dp := s.enc.dp + bs.length } }
  else .fault .destinationOutOfBounds

/-- The `len` source bytes from offset `off`, written at `dp` (R139, R145; R51 leaves their order free). -/
def emitLiterals (off len : Nat) (s : State) : Out :=
  if off + len ≤ s.srcLen then emit (bytesFrom s.mem (s.srcPtr + off) len) s
  else .fault .sourceOutOfBounds

/-- `DST[token_pos] <- token` (R141, R149). -/
def emitToken (s : State) : Out :=
  if s.enc.tokenPos < s.dstLen then
    .next { s with mem := memWrite s.mem (s.dstPtr + s.enc.tokenPos) s.enc.token }
  else .fault .destinationOutOfBounds

/-- `peek32(i)` (R8): the word loader at source offset `i`, which the encoder keeps in bounds (R91). -/
def peekSource (i : Nat) (s : State) : Out :=
  if i + 4 ≤ s.srcLen then .next (peekUnit (s.srcPtr + i) s) else .fault .sourceOutOfBounds

/-- `lcp(p, q, p_limit)` (R141): the scanner on source offsets, within its preconditions (R96). -/
def lcpSource (p q pLimit : Nat) (s : State) : Out :=
  if p ≤ pLimit ∧ pLimit ≤ s.srcLen ∧ q + (pLimit - p) ≤ s.srcLen then
    .next (lcpUnit s.srcPtr p q pLimit s)
  else .fault .sourceOutOfBounds

/-- Replace the slot of the four bytes at `sp`: `match <- HT[h]`, `HT[h] <- sp` (R135, R144). -/
def probeTable (x : Word) (s : State) : State :=
  { s with
    ht := htWrite s.ht (hash x) (BitVec.ofNat 32 s.enc.sp)
    enc := { s.enc with matchOff := (htRead s.ht (hash x)).toNat } }

/-- Candidate validity (R136): the offset fits in 16 bits and the four bytes agree. -/
def tryCandidate (x : Word) (valid invalid : State → State) (s : State) : Out :=
  if s.enc.sp - s.enc.matchOff ≤ maxOffset then
    andThen (peekSource s.enc.matchOff s) fun s =>
      .next (if x = s.peek.data then valid s else invalid s)
  else .next (invalid s)

/-- `ESTATE <- e`. -/
def State.encGoto (e : EState) (s : State) : State := { s with enc := { s.enc with estate := e } }

/-- `E_PRECHECK` (R131, R132): the length check first. -/
def encPrecheck (s : State) : Out :=
  if encMaxSrcLen < s.srcLen then .next (raise .srcTooLong s)
  else
    let t := { s with enc := { s.enc with wc := worstCaseSize s.srcLen } }
    if s.dstLen < worstCaseSize s.srcLen then .next (raise .dstTooShort t)
    else
      .next { t with enc := { t.enc with
        sp := 0, literalStart := 0, dp := 0
        estate := if s.srcLen ≤ shortInput then .eFinal else .eSetup } }

/-- `E_SETUP` (R134). -/
def encSetup (s : State) : Out :=
  .next { s with
    ht := htCleared
    enc := { s.enc with
      matchLimit := s.srcLen - matchLimitTail
      finalLiteralsLimit := s.srcLen - finalLimitTail
      estate := .eScanInit } }

/-- `E_SCAN_INIT` (R135 item 1). -/
def encScanInit (s : State) : Out :=
  .next { s with enc := { s.enc with step := 1, stepCounter := stepCounterInit, estate := .eScan } }

/-- The stride update of a probe (R135 item 4). -/
def nextStride (s : State) : State :=
  { s with enc := { s.enc with
    step := s.enc.stepCounter >>> stepShift, stepCounter := s.enc.stepCounter + 1 } }

/-- `E_SCAN` (R135): one probe. -/
def encScan (s : State) : Out :=
  let t := { s with enc := { s.enc with sp := s.enc.sp + s.enc.step } }
  if t.enc.finalLiteralsLimit ≤ t.enc.sp then .next (t.encGoto .eFinal)
  else
    andThen (peekSource t.enc.sp t) fun t =>
      tryCandidate t.peek.data (State.encGoto .eBackward) (State.encGoto .eScan)
        (nextStride (probeTable t.peek.data t))

/-- How far a match at `sp` extends backwards (R138): while `sp > literal_start`, `match > 0` and the bytes
before both agree. -/
def backwardCount (m : Memory) (src literalStart : Nat) : Nat → Nat → Nat
  | 0, _ => 0
  | off + 1, sp =>
    if literalStart < sp ∧ memRead m (src + (sp - 1)) = memRead m (src + off) then
      backwardCount m src literalStart off (sp - 1) + 1
    else 0

/-- `E_BACKWARD` (R138). -/
def encBackward (s : State) : Out :=
  if s.enc.sp ≤ s.srcLen ∧ s.enc.matchOff ≤ s.srcLen then
    let b := backwardCount s.mem s.srcPtr s.enc.literalStart s.enc.matchOff s.enc.sp
    .next { s with enc := { s.enc with
      sp := s.enc.sp - b, matchOff := s.enc.matchOff - b, estate := .eToken } }
  else .fault .sourceOutOfBounds

/-- The token of a sequence with `literalLen` literals, its low nibble still 0 (R139, R145). -/
def literalToken (literalLen : Nat) : Byte :=
  if literalLen < 15 then BitVec.ofNat 8 literalLen <<< 4 else 0xF0#8

/-- The low nibble the match length puts into the token (R141). -/
def matchNibble (adjCopyLen : Nat) : Byte :=
  if adjCopyLen < 15 then BitVec.ofNat 8 adjCopyLen else 0x0F#8

/-- Reserve one destination byte for the token, whose value is held in `token` (R139, R144, R149). -/
def reserveToken (tok : Byte) (s : State) : State :=
  { s with enc := { s.enc with tokenPos := s.enc.dp, dp := s.enc.dp + 1, token := tok } }

/-- `E_TOKEN` (R139): token reserved, literal-length run and literals written. -/
def encToken (s : State) : Out :=
  let len := s.enc.sp - s.enc.literalStart
  let t := reserveToken (literalToken len) { s with enc := { s.enc with literalLen := len } }
  andThen (emit (lengthBytes len) t) fun t =>
    andThen (emitLiterals t.enc.literalStart len t) fun t =>
      .next (t.encGoto .eMatch)

/-- `E_MATCH` (R141): offset, match-length run, token, and the advance of `sp`. -/
def encMatch (s : State) : Out :=
  let off := BitVec.ofNat 16 (s.enc.sp - s.enc.matchOff)
  let t := { s with enc := { s.enc with copyOff := off } }
  andThen (emit [lowByte off, highByte off] t) fun t =>
    andThen (lcpSource (t.enc.sp + 4) (t.enc.matchOff + 4) t.enc.matchLimit t) fun t =>
      let t := { t with enc := { t.enc with
        adjCopyLen := t.lcp.k, token := t.enc.token ||| matchNibble t.lcp.k } }
      andThen (emit (lengthBytes t.enc.adjCopyLen) t) fun t =>
        andThen (emitToken t) fun t =>
          .next { t with enc := { t.enc with
            sp := t.enc.sp + 4 + t.enc.adjCopyLen, estate := .eAdvance } }

/-- `E_ADVANCE` (R142). -/
def encAdvance (s : State) : Out :=
  .next { s with enc := { s.enc with
    literalStart := s.enc.sp
    estate := if s.enc.finalLiteralsLimit ≤ s.enc.sp then .eFinal else .eBackfill } }

/-- `E_BACKFILL` (R143). -/
def encBackfill (s : State) : Out :=
  andThen (peekSource (s.enc.sp - 2) s) fun t =>
    .next (State.encGoto .eFollow
      { t with ht := htWrite t.ht (hash t.peek.data) (BitVec.ofNat 32 (t.enc.sp - 2)) })

/-- The start of an immediate-follow match: a fresh token of value 0 (R144). -/
def followMatch (s : State) : State := (reserveToken 0x00#8 s).encGoto .eMatch

/-- `E_FOLLOW` (R144). -/
def encFollow (s : State) : Out :=
  andThen (peekSource s.enc.sp s) fun t =>
    tryCandidate t.peek.data followMatch (State.encGoto .eScanInit) (probeTable t.peek.data t)

/-- `E_FINAL` (R145): the final literals, and the end of the command. -/
def encFinal (s : State) : Out :=
  let len := s.srcLen - s.enc.literalStart
  let t := { s with enc := { s.enc with finalLiteralLen := len } }
  andThen (emit (literalToken len :: lengthBytes len) t) fun t =>
    andThen (emitLiterals t.enc.literalStart len t) fun t =>
      .next (ret t.enc.dp t)

/-- One visit to a label of R146. -/
def encoderVisit (s : State) : Out :=
  match s.enc.estate with
  | .ePrecheck => encPrecheck s
  | .eSetup => encSetup s
  | .eScanInit => encScanInit s
  | .eScan => encScan s
  | .eBackward => encBackward s
  | .eToken => encToken s
  | .eMatch => encMatch s
  | .eAdvance => encAdvance s
  | .eBackfill => encBackfill s
  | .eFollow => encFollow s
  | .eFinal => encFinal s

/-- The start of an encode: `sp`, `literal_start` and `dp` are 0 and `ESTATE` is `E_PRECHECK` (R25). -/
def beginEncode (s : State) : State :=
  { s with enc := { s.enc with sp := 0, literalStart := 0, dp := 0, estate := .ePrecheck } }

/-- More visits than any encode takes: between two moves of `literal_start` the scan takes at most
`SRC_LEN` probes (R147 item 7). -/
def encodeFuel (s : State) : Nat := (s.srcLen + 2) * (s.srcLen + 20) + 50

/-- `BLOCK_ENCODE` (R130, R146) started and run to its end (R204). -/
def execBlockEncode (s : State) : Out :=
  andThen (startWith (codecRefusal s) s) fun t =>
    runToEnd encoderVisit (encodeFuel t) (beginEncode t)

end Sys2Proof.Machine
end

