-- ==== Sys2Proof/Machine/Flags.lean ====
section
/-! DEFINITION. The hardware has no condition codes, carry or overflow flags (10_state.md R22). Its only
status state is `STATUS`, a four-constructor enumeration whose 2-bit codes are a presentation detail
(30_encoding.md R74), and `PHASE` with its 1-bit code (R14). -/

namespace Sys2Proof.Machine

/-- The 2-bit code of `STATUS` (R74). -/
def Status.code : Status → BitVec 2
  | .ok => 0#2
  | .dstTooShort => 1#2
  | .invalidData => 2#2
  | .srcTooLong => 3#2

/-- The `STATUS` of a 2-bit code (R74). -/
def Status.ofCode (c : BitVec 2) : Status :=
  match c.toNat with
  | 0 => .ok
  | 1 => .dstTooShort
  | 2 => .invalidData
  | _ => .srcTooLong

/-- The 1-bit code of `PHASE` (R14). -/
def Phase.code : Phase → BitVec 1
  | .idle => 0#1
  | .busy => 1#1

end Sys2Proof.Machine
end

