-- ==== Sys2Proof/Machine/HostPort.lean ====
section
/-! DEFINITION. The host's moves (70_reset_and_hazards.md R203, R206, R213): all of them only while
`PHASE = IDLE`. They are functions on the state beside the step; a run that uses them is the host's call
cut into its events. -/

namespace Sys2Proof.Machine

/-- A host move: it has a meaning only while `PHASE = IDLE` (R14, R206). -/
def hostMove (f : State → State) (s : State) : Out :=
  if s.phase = .busy then .refused .hostMoveWhileBusy else .next (f s)

/-- Write `OP` (R12). -/
def hostWriteOp (v : BitVec 3) : State → Out := hostMove fun s => { s with op := v }

/-- Write `DST_PTR`: an `XLEN`-bit register (R12). -/
def hostWriteDstPtr (v : Nat) : State → Out :=
  hostMove fun s => { s with dstPtr := v % 2 ^ s.params.xlen }

/-- Write `DST_LEN` (R12). -/
def hostWriteDstLen (v : Nat) : State → Out :=
  hostMove fun s => { s with dstLen := v % 2 ^ s.params.xlen }

/-- Write `SRC_PTR` (R12). -/
def hostWriteSrcPtr (v : Nat) : State → Out :=
  hostMove fun s => { s with srcPtr := v % 2 ^ s.params.xlen }

/-- Write `SRC_LEN` (R12). -/
def hostWriteSrcLen (v : Nat) : State → Out :=
  hostMove fun s => { s with srcLen := v % 2 ^ s.params.xlen }

/-- Write one byte of the host's memory between commands (R213: the host may touch everything). The map of ranges
that are no plain memory (`params.map`) is not consulted: the write lands in a read-only, device or unmapped range
as in any other (DESIGN CHOICE, assumption log 30). -/
def hostWriteByte (a : Nat) (b : Byte) : State → Out :=
  hostMove fun s => { s with mem := memWrite s.mem (a % 2 ^ s.params.xlen) b }

/-- Read one byte of the host's memory between commands (R213). Like the write it does not consult `params.map`,
and it changes nothing (DESIGN CHOICE, assumption log 30). -/
def hostReadByte (a : Nat) (s : State) : Host.Outcome Byte Fault Refusal :=
  if s.phase = .busy then .refused .hostMoveWhileBusy
  else .next (memRead s.mem (a % 2 ^ s.params.xlen))

/-- Read `(STATUS, VALUE)` (R13, R213). Before any command has ended since reset both are unspecified (R25), and
the host reads free values (U12 allows any value; assumption log 8). -/
def hostReadResult (s : State) : Host.Outcome (Status × Nat) Fault Refusal :=
  if s.phase = .busy then .refused .hostMoveWhileBusy
  else if s.ended then .next (s.status, s.value)
  else .next (Status.ofCode Config.unspecifiedStatus, Config.unspecifiedValue % 2 ^ s.params.xlen)

/-- Start the command in the operand registers (R213 "start a command"): `PHASE = BUSY`, working state as
R25 says, nothing run yet. The steps that follow are visits to the labels of R112 or R146. -/
def hostStart (s : State) : Out :=
  match decodeCommand s.op with
  | .worstCaseDstLen => startWith none s
  | .blockEncode => andThen (startWith (codecRefusal s) s) fun t => .next (beginEncode t)
  | .blockDecode => andThen (startWith (codecRefusal s) s) fun t => .next (beginDecode t)
  | .peekU32le => startWith (peekRefusal s) s
  | .lcp => andThen (startWith (lcpRefusal s) s) fun t => .next (beginLcp t)
  | .refusedOp0 | .refusedOp6 | .refusedOp7 => .refused .opNamesNoOperation
  | .token _ _ | .litExtCont | .litExtEnd _ | .literal _ | .offset _ | .matchExtCont
  | .matchExtEnd _ => .refused .elementOutOfPosition

end Sys2Proof.Machine
end

