-- ==== Sys2Proof/Machine/Fetch.lean ====
section
/-! DEFINITION. What the engine does next (10_state.md R14, R21): idle, it takes the command in `OP`, which
the host starts; running a decode, the label says whether a stream element is fetched at `sp` (R68, R112);
running anything else, one visit to the command's own label. Also how a table word is put where the next
step takes it (assumption logs 9, 10). -/

namespace Sys2Proof.Machine

/-- What the next step runs: an instruction, a stream that has too few bytes for the element its label
fetches, or a label that fetches none. -/
inductive Fetched where
  | instr (i : Instr)
  | exhausted
  | internal
deriving DecidableEq, Repr

/-- The stream element the decoder's label fetches (R68). -/
def fetchElement (s : State) : Fetched :=
  match elementCtx s with
  | none => .internal
  | some c =>
    match decode c (streamBytes c s) with
    | .ok (i, _) => .instr i
    | .error _ => .exhausted

/-- What the next step runs. -/
def fetch (s : State) : Fetched :=
  match s.phase with
  | .idle => .instr (decodeCommand s.op)
  | .busy => if s.op = 3#3 then fetchElement s else .internal

/-- One visit to a label that fetches no stream element, of the running command. -/
def internalVisit (s : State) : Out :=
  match decodeCommand s.op with
  | .worstCaseDstLen => worstCaseVisit s
  | .blockEncode => encoderVisit s
  | .blockDecode => decInternal s
  | .peekU32le => peekVisit s
  | .lcp => lcpVisit s
  | .refusedOp0 | .refusedOp6 | .refusedOp7 => .refused .opNamesNoOperation
  | .token _ _ | .litExtCont | .litExtEnd _ | .literal _ | .offset _ | .matchExtCont
  | .matchExtEnd _ => .refused .elementOutOfPosition

/-- The label at which an element of a position is fetched (R68). -/
def labelOf : Ctx → DState
  | .litExt => .dLitExt
  | .literal => .dLitCopy
  | .offset => .dOffset
  | .matchExt => .dMatchExt
  | .command | .token => .dToken

/-- Put a command code where the next step takes it: in `OP`, the engine idle. The two primitives exist for
the host only under `HOST_PRIMITIVES`, and a peek needs four source bytes (R72). -/
def placeCommand (op : BitVec 3) (s : State) : State :=
  { s with
    phase := .idle
    op := op
    params := { s.params with
      hostPrimitives := s.params.hostPrimitives || op == 4#3 || op == 5#3 }
    srcLen := if op = 4#3 then max 4 s.srcLen else s.srcLen }

/-- Put a stream element where the next step fetches it: a running decode at the element's label, the bytes
at `sp` of the source. -/
def placeElement (c : Ctx) (bytes : List Byte) (s : State) : State :=
  { s with
    phase := .busy
    op := 3#3
    srcLen := max s.srcLen (s.dec.sp + bytes.length)
    dec := { s.dec with dstate := labelOf c, n := if c = .literal then 1#32 else s.dec.n }
    mem := writeBytes s.mem (s.srcPtr + s.dec.sp) bytes }

/-- Put an opcode-table word where the next step takes it. -/
def placeTableWord (nbits w : Nat) (s : State) : State :=
  match tableCtx nbits w with
  | .command => placeCommand (BitVec.ofNat 3 w) s
  | .token => placeElement .token (tableBytes nbits w) s
  | .litExt => placeElement .litExt (tableBytes nbits w) s
  | .literal => placeElement .literal (tableBytes nbits w) s
  | .offset => placeElement .offset (tableBytes nbits w) s
  | .matchExt => placeElement .matchExt (tableBytes nbits w) s

end Sys2Proof.Machine
end

