-- ==== Sys2Proof/Machine/Dispatch.lean ====
section
/-! DEFINITION. One arm per instruction: each a direct call of its meaning. -/

namespace Sys2Proof.Machine

def exec (i : Instr) (s : State) : Host.Outcome State Fault Refusal :=
  match i with
  | .worstCaseDstLen => Sys2Proof.Machine.execWorstCaseDstLen s
  | .blockEncode => Sys2Proof.Machine.execBlockEncode s
  | .blockDecode => Sys2Proof.Machine.execBlockDecode s
  | .peekU32le => Sys2Proof.Machine.execPeekU32le s
  | .lcp => Sys2Proof.Machine.execLcp s
  | .refusedOp0 => Sys2Proof.Machine.execRefusedOp0 s
  | .refusedOp6 => Sys2Proof.Machine.execRefusedOp6 s
  | .refusedOp7 => Sys2Proof.Machine.execRefusedOp7 s
  | .token l m => Sys2Proof.Machine.execToken l m s
  | .litExtCont => Sys2Proof.Machine.execLitExtCont s
  | .litExtEnd r => Sys2Proof.Machine.execLitExtEnd r s
  | .literal b => Sys2Proof.Machine.execLiteral b s
  | .offset copyOff => Sys2Proof.Machine.execOffset copyOff s
  | .matchExtCont => Sys2Proof.Machine.execMatchExtCont s
  | .matchExtEnd r => Sys2Proof.Machine.execMatchExtEnd r s

end Sys2Proof.Machine
end

