-- ==== Sys2Proof/Machine/Step.lean ====
section
/-! DEFINITION. One step of the engine. Idle, a step is the host's start of the command in `OP` and its
whole run, as the host sees it (R14, 92_eei_decisions.md D7, D8); busy, a step is one visit to a label of
the running command (R112, R146; assumption logs 6, 7). -/

namespace Sys2Proof.Machine

/-- One step. -/
def step (s : State) : Host.Outcome State Fault Refusal :=
  match fetch s with
  | .instr i => exec i s
  | .exhausted => streamUnderflow s
  | .internal => internalVisit s

/-- The state with an opcode-table word placed where `step` takes its next instruction. -/
def State.withFetchWord (s : State) (nbits w : Nat) : State := placeTableWord nbits w s

end Sys2Proof.Machine
end

