-- ==== Sys2Proof/Machine/Format.lean ====
section
/-! DEFINITION. The LZ4 block as a value (30_encoding.md R60 to R67, R76): its sequences and final literals,
the bytes they assemble to, and the bytes they decode to. What the codecs' whole-command claims speak of. -/

namespace Sys2Proof.Machine

/-- A sequence with a match part: `seq lit=<bytes> off=<n> len=<n>` (R76). -/
structure LzSeq where
  lits : List Byte
  off : Nat
  len : Nat
deriving DecidableEq, Repr

/-- A block: its sequences with a match part, and the literals of the final sequence (R60). `lastLow` is
the low nibble of the final token, which the decoder ignores and the encoder writes as 0 (R61). -/
structure LzBlock where
  seqs : List LzSeq
  last : List Byte
  lastLow : Nibble
deriving DecidableEq, Repr

/-- The token of a sequence: `min(|L|,15)<<4 | min(m-4,15)` (R61, R76). -/
def tokenByte (litLen matchCode : Nat) : Byte :=
  BitVec.ofNat 4 (min litLen 15) ++ BitVec.ofNat 4 (min matchCode 15)

/-- The two bytes of an offset, low byte first (R45, R66). -/
def offsetBytes (off : Nat) : List Byte :=
  [lowByte (BitVec.ofNat 16 off), highByte (BitVec.ofNat 16 off)]

/-- The bytes of a sequence: token, literal-length run, literals, offset, match-length run (R61 to R67). -/
def LzSeq.bytes (q : LzSeq) : List Byte :=
  tokenByte q.lits.length (q.len - 4) ::
    (lengthBytes q.lits.length ++ q.lits ++ offsetBytes q.off ++ lengthBytes (q.len - 4))

/-- The bytes of the final sequence: token, literal-length run, literals (R60 to R65). -/
def lastBytes (last : List Byte) (low : Nibble) : List Byte :=
  (BitVec.ofNat 4 (min last.length 15) ++ low) :: (lengthBytes last.length ++ last)

/-- The bytes of a block. -/
def LzBlock.bytes (b : LzBlock) : List Byte :=
  b.seqs.flatMap LzSeq.bytes ++ lastBytes b.last b.lastLow

/-- `n` bytes appended one after the other, each the byte `off` before it: the match (R110). -/
def copyMatch (out : List Byte) (off : Nat) : Nat → List Byte
  | 0 => out
  | n + 1 => copyMatch (out ++ [out.getD (out.length - off) 0#8]) off n

/-- What a sequence adds to the decoded bytes. -/
def LzSeq.apply (out : List Byte) (q : LzSeq) : List Byte := copyMatch (out ++ q.lits) q.off q.len

/-- The decoded bytes of a list of sequences. -/
def expandSeqs (qs : List LzSeq) : List Byte := qs.foldl LzSeq.apply []

/-- The decoded bytes of a block. -/
def LzBlock.expand (b : LzBlock) : List Byte := expandSeqs b.seqs ++ b.last

/-- The sequences are legal after `n` decoded bytes: a match length of at least 4 (R67), an offset in
`[1, 65535]` (R66) that does not reach before the start of the output (R70 item 6). -/
def seqsValid : Nat → List LzSeq → Bool
  | _, [] => true
  | n, q :: rest =>
    4 ≤ q.len && 1 ≤ q.off && q.off ≤ 65535 && q.off ≤ n + q.lits.length &&
      seqsValid (n + q.lits.length + q.len) rest

/-- A legal block (R60 to R67, R70): what the decoder accepts, given room (42_decoder.md R121 item 3). -/
def LzBlock.valid (b : LzBlock) : Bool := seqsValid 0 b.seqs

/-- The positions in the decoded bytes, after `n` of them, at which the matches of a list of sequences start
(43_encoder.md R147 item 6). -/
def matchStarts : Nat → List LzSeq → List Nat
  | _, [] => []
  | n, q :: rest => (n + q.lits.length) :: matchStarts (n + q.lits.length + q.len) rest

end Sys2Proof.Machine
end

