-- ==== Sys2Proof/Safety.lean ====
section
/-! DEFINITION. What counts as a safe run: the invariants the spec states for a running command
(42_decoder.md R113, R114; 43_encoder.md R147, R150), the canonical form of the two stores, what a
command may write, and the properties of the decoder and the encoder (42_decoder.md R121; 43_encoder.md R150). -/

namespace Sys2Proof.Machine

open Sys2Proof.Config

/-- The two stores are in canonical form. -/
structure StoresCanonical (s : State) : Prop where
  mem : s.mem.wf
  ht : storeWf s.ht

/-- Every `XLEN`-bit operand and result register holds an `XLEN`-bit value (R12, R13). -/
structure RegistersFit (s : State) : Prop where
  xlen : s.params.wf
  dstPtr : s.dstPtr < 2 ^ s.params.xlen
  dstLen : s.dstLen < 2 ^ s.params.xlen
  srcPtr : s.srcPtr < 2 ^ s.params.xlen
  srcLen : s.srcLen < 2 ^ s.params.xlen
  value : s.value < 2 ^ s.params.xlen

/-- `VALUE` is 0 whenever `STATUS` is an error kind (R13, R75). -/
def FailedValueZero (s : State) : Prop := s.status ≠ .ok → s.value = 0

/-- An address is one of the `len` from `lo` up. -/
def InRange (lo len a : Nat) : Prop := lo ≤ a ∧ a < lo + len

/-- Every byte of a range is in the address space and in no range of memory of a barred kind (R41). A range of
no bytes is so whatever its pointer (R42). -/
def PlainBytes (p : Params) (barred : List RegionKind) (ptr len : Nat) : Prop :=
  ∀ a, InRange ptr len a →
    a < 2 ^ p.xlen ∧ ∀ r ∈ p.map, r.kind ∈ barred → ¬ InRange r.base r.size a

/-- A command on two buffers whose contract is met (R203): idle, both ranges buffers, disjoint. -/
def CodecReady (s : State) : Prop := s.phase = .idle ∧ codecRefusal s = none

/-- The source bytes of the command. -/
def sourceBytes (s : State) : List Byte := bytesFrom s.mem s.srcPtr s.srcLen

/-- The first `n` destination bytes. -/
def destinationBytes (s : State) (n : Nat) : List Byte := bytesFrom s.mem s.dstPtr n

/-- A command is refused for a reason in both of its forms: run whole, and started by the host (R184). -/
def RefusedWith (i : Instr) (r : Refusal) (s : State) : Prop :=
  exec i s = .refused r ∧ (decodeCommand s.op = i → hostStart s = .refused r)

/-- The invariants of a decode past its pre-check (R17, R113, R114). -/
structure DecoderInv (s : State) : Prop where
  srcLimit : s.srcLen ≤ decMaxSrcLen
  sp : s.dec.sp ≤ s.srcLen
  dp : s.dec.dp ≤ s.dstLen
  past : s.dec.dstate ≠ .dPrecheck
  spent : s.dec.dstate ≠ .dToken → 1 ≤ s.dec.sp
  literalLen : s.dec.dstate = .dLitExt ∨ s.dec.dstate = .dLitCheck →
    s.dec.literalLen.toNat ≤ 15 + 255 * (s.dec.sp - 1)
  litCopy : s.dec.dstate = .dLitCopy →
    s.dec.sp + s.dec.n.toNat ≤ s.srcLen ∧ s.dec.dp + s.dec.n.toNat ≤ s.dstLen
  offset : s.dec.dstate = .dMatchExt ∨ s.dec.dstate = .dMatchCheck ∨ s.dec.dstate = .dMatchCopy →
    1 ≤ s.dec.copyOff.toNat ∧ s.dec.copyOff.toNat ≤ s.dec.dp
  copyLen : s.dec.dstate = .dMatchExt ∨ s.dec.dstate = .dMatchCheck →
    3 ≤ s.dec.sp ∧ s.dec.copyLen.toNat ≤ 19 + 255 * (s.dec.sp - 3)
  matchCopy : s.dec.dstate = .dMatchCopy →
    s.dec.fromOff < s.dec.dp ∧ s.dec.dp + s.dec.copyLen.toNat ≤ s.dstLen

/-- A running decode: at its pre-check with both cursors 0 (R25), or past it with the invariants. So the
cursors are inside their buffers at every label (R17, R113). -/
def DecodeRunning (s : State) : Prop :=
  s.phase = .busy ∧
  (s.dec.dstate = .dPrecheck ∧ s.dec.sp = 0 ∧ s.dec.dp = 0 ∨ DecoderInv s)

/-- The candidates in the table lie below a bound (R147 item 2). -/
def TableBelow (t : HashTable) (bound : Nat) : Prop := ∀ i, (storeRead t i).toNat < bound

/-- The bytes of the source agree from two offsets for a length. -/
def SourceAgrees (s : State) (i j len : Nat) : Prop :=
  ∀ x < len, memRead s.mem (s.srcPtr + (i + x)) = memRead s.mem (s.srcPtr + (j + x))

/-- The invariants of an encode past its pre-check (R147, and the destination bound of R150 item 3). -/
structure EncoderInv (s : State) : Prop where
  srcLimit : s.srcLen ≤ encMaxSrcLen
  room : worstCaseSize s.srcLen ≤ s.dstLen
  past : s.enc.estate ≠ .ePrecheck
  start : s.enc.literalStart ≤ s.srcLen
  shortPath : s.srcLen ≤ shortInput →
    s.enc.estate = .eFinal ∧ s.enc.literalStart = 0 ∧ s.enc.dp = 0
  setup : s.enc.estate = .eSetup →
    s.enc.sp = 0 ∧ s.enc.literalStart = 0 ∧ s.enc.dp = 0
  limits : shortInput < s.srcLen → s.enc.estate ≠ .eSetup →
    s.enc.matchLimit = s.srcLen - matchLimitTail ∧
    s.enc.finalLiteralsLimit = s.srcLen - finalLimitTail
  scanning : s.enc.estate = .eScanInit ∨ s.enc.estate = .eScan →
    s.enc.literalStart ≤ s.enc.sp ∧ s.enc.sp < s.enc.finalLiteralsLimit ∧
    TableBelow s.ht (s.enc.sp + 1) ∧
    s.enc.dp ≤ s.enc.literalStart + s.enc.literalStart / 255
  stride : s.enc.estate = .eScan → 1 ≤ s.enc.step ∧ stepCounterInit ≤ s.enc.stepCounter
  backward : s.enc.estate = .eBackward →
    s.enc.literalStart ≤ s.enc.sp ∧ s.enc.sp < s.enc.finalLiteralsLimit ∧
    s.enc.matchOff < s.enc.sp ∧ s.enc.sp - s.enc.matchOff ≤ maxOffset ∧
    SourceAgrees s s.enc.sp s.enc.matchOff minMatch ∧
    TableBelow s.ht (s.enc.sp + minMatch) ∧
    s.enc.dp ≤ s.enc.literalStart + s.enc.literalStart / 255
  matched : s.enc.estate = .eToken ∨ s.enc.estate = .eMatch →
    s.enc.literalStart ≤ s.enc.sp ∧ s.enc.sp < s.enc.finalLiteralsLimit ∧
    s.enc.matchOff < s.enc.sp ∧ s.enc.sp - s.enc.matchOff ≤ maxOffset ∧
    ∃ len, minMatch ≤ len ∧ s.enc.sp + len ≤ s.enc.matchLimit ∧
      SourceAgrees s s.enc.sp s.enc.matchOff len ∧ TableBelow s.ht (s.enc.sp + len)
  tokenRoom : s.enc.estate = .eToken →
    s.enc.dp ≤ s.enc.literalStart + s.enc.literalStart / 255
  matchRoom : s.enc.estate = .eMatch →
    s.enc.dp ≤ s.enc.sp + s.enc.sp / 255 + 2 ∧ s.enc.tokenPos < s.enc.dp
  advanced : s.enc.estate = .eAdvance →
    s.enc.literalStart + minMatch ≤ s.enc.sp ∧ s.enc.sp ≤ s.enc.matchLimit ∧
    TableBelow s.ht s.enc.sp ∧ s.enc.dp ≤ s.enc.sp + s.enc.sp / 255
  following : s.enc.estate = .eBackfill ∨ s.enc.estate = .eFollow →
    s.enc.literalStart = s.enc.sp ∧ minMatch ≤ s.enc.sp ∧ s.enc.sp < s.enc.finalLiteralsLimit ∧
    TableBelow s.ht s.enc.sp ∧ s.enc.dp ≤ s.enc.sp + s.enc.sp / 255
  final : s.enc.estate = .eFinal →
    s.enc.dp ≤ s.enc.literalStart + s.enc.literalStart / 255 ∧
    (shortInput < s.srcLen → s.enc.literalStart + matchLimitTail ≤ s.srcLen)

/-- A running encode: at its pre-check with its cursors 0 (R25), or past it with the invariants. The buffers
stay disjoint. -/
def EncodeRunning (s : State) : Prop :=
  s.phase = .busy ∧ disjointRanges s.srcPtr s.srcLen s.dstPtr s.dstLen = true ∧
  (s.enc.estate = .ePrecheck ∧ s.enc.sp = 0 ∧ s.enc.literalStart = 0 ∧ s.enc.dp = 0 ∨ EncoderInv s)

/-! ### The machine as a whole -/

/-- What a running command keeps true between its steps: the code in `OP` names an operation, the two codecs
keep their invariants, and the two primitives their preconditions (R91, R96). -/
def CommandRunning (s : State) : Prop :=
  match decodeCommand s.op with
  | .worstCaseDstLen => True
  | .lcp => ¬ lcpOutruns s
  | .blockEncode => EncodeRunning s
  | .blockDecode => DecodeRunning s
  | .peekU32le => 4 ≤ s.srcLen
  | .refusedOp0 | .refusedOp6 | .refusedOp7 | .token _ _ | .litExtCont | .litExtEnd _ | .literal _
  | .offset _ | .matchExtCont | .matchExtEnd _ => False

/-- The invariant of the machine: canonical stores, registers within their widths, `VALUE` 0 after an
error, and the running command's own invariants. -/
structure MachineInv (s : State) : Prop where
  stores : StoresCanonical s
  registers : RegistersFit s
  failed : FailedValueZero s
  running : s.phase = .busy → CommandRunning s

/-- No step writes the parameters or the operand registers (10_state.md R12). -/
structure OperandsKept (s t : State) : Prop where
  params : t.params = s.params
  op : t.op = s.op
  dstPtr : t.dstPtr = s.dstPtr
  dstLen : t.dstLen = s.dstLen
  srcPtr : t.srcPtr = s.srcPtr
  srcLen : t.srcLen = s.srcLen

/-- Every byte outside the `len` bytes from address `lo` reads as before. -/
def WritesOnly (lo len : Nat) (s t : State) : Prop :=
  ∀ a, a < lo ∨ lo + len ≤ a → memRead t.mem a = memRead s.mem a

/-! ### The properties of the decoder and the encoder (42_decoder.md R121; 43_encoder.md R150) -/

/-- The source is the bytes of a legal block (30_encoding.md R60 to R67, R70). -/
def HoldsLegalBlock (s : State) (b : LzBlock) : Prop := b.valid = true ∧ sourceBytes s = b.bytes

/-- A decode has ended with `ok` and the correct decoding of a block: its decoded bytes, and `VALUE` their number. -/
def DecodedTo (b : LzBlock) (t : State) : Prop :=
  t.status = .ok ∧ t.value = b.expand.length ∧ destinationBytes t t.value = b.expand

/-- R121 item 1, of a decode that led from `s` to `t`: the correct decoding of a legal block or one of the three
error kinds, and no write outside the destination. -/
structure SoundDecode (s t : State) : Prop where
  answer : (∃ b, HoldsLegalBlock s b ∧ DecodedTo b t) ∨
    t.value = 0 ∧ (t.status = .dstTooShort ∨ t.status = .invalidData ∨ t.status = .srcTooLong)
  writes : WritesOnly s.dstPtr s.dstLen s t

/-- The round trip's hypotheses (R121 item 2, 43_encoder.md R150 item 1): the source of `u` is the block that an encode of `s` left in `t`, within the
decoder's length bound, and the destination has room for the original. -/
structure HoldsBlockOf (s t u : State) : Prop where
  ready : CodecReady u
  mem : u.mem.wf
  block : sourceBytes u = destinationBytes t t.value
  length : u.srcLen = t.value
  bound : t.value ≤ decMaxSrcLen
  room : s.srcLen ≤ u.dstLen

/-- R150 items 1 to 5, of an encode that led from `s` to `t` with `ok`: `b` is the block it wrote. -/
structure EmittedBlock (s t : State) (b : LzBlock) : Prop where
  /-- Every offset is in `[1, 65535]` and reaches no further back than the first byte emitted (item 2). -/
  legal : b.valid = true
  /-- The block decodes to the source (item 1). -/
  expands : b.expand = sourceBytes s
  size : t.value = b.bytes.length
  written : destinationBytes t t.value = b.bytes
  /-- The block is no longer than the worst-case size (item 3). -/
  bound : t.value ≤ worstCaseSize s.srcLen
  /-- The final token's low nibble is 0 (R145). -/
  lastLow : b.lastLow = 0#4
  /-- The final literals are at least 5 bytes, unless they are the whole source (item 4). -/
  tail : b.seqs = [] ∧ b.last = sourceBytes s ∨ 5 ≤ b.last.length
  /-- No match starts within the last 12 source bytes (item 5, 30_encoding.md R71). -/
  starts : ∀ p ∈ matchStarts 0 b.seqs, p + 12 ≤ s.srcLen

/-- Two commands have ended alike: the same `STATUS`, the same `VALUE`, the same bytes written (R150 item 6;
10_state.md R10, 70_reset_and_hazards.md R200). -/
structure SameAnswer (t t' : State) : Prop where
  status : t'.status = t.status
  value : t'.value = t.value
  bytes : destinationBytes t' t.value = destinationBytes t t.value

/-- A running decode at a label (42_decoder.md R112). -/
def DecodingAt (d : DState) (s : State) : Prop := s.phase = .busy ∧ s.op = 3#3 ∧ s.dec.dstate = d

/-- A running encode at a label, with its invariants (43_encoder.md R146, R147). -/
def EncodingAt (e : EState) (s : State) : Prop := s.op = 2#3 ∧ s.enc.estate = e ∧ EncodeRunning s

/-- The instructions that are stream elements (30_encoding.md R68). -/
def isElement : Instr → Bool
  | .worstCaseDstLen | .blockEncode | .blockDecode | .peekU32le | .lcp => false
  | .refusedOp0 | .refusedOp6 | .refusedOp7 => false
  | .token _ _ | .litExtCont | .litExtEnd _ | .literal _ | .offset _ | .matchExtCont
  | .matchExtEnd _ => true

/-- The destination address an instruction stores one byte to, if it is a stream element that stores:
the literal, at the output cursor (42_decoder.md R105). -/
def elementStore (i : Instr) (s : State) : Option Nat :=
  match i with
  | .literal _ => some (s.dstPtr + s.dec.dp)
  | .worstCaseDstLen | .blockEncode | .blockDecode | .peekU32le | .lcp => none
  | .refusedOp0 | .refusedOp6 | .refusedOp7 => none
  | .token _ _ | .litExtCont | .litExtEnd _ | .offset _ | .matchExtCont | .matchExtEnd _ => none

end Sys2Proof.Machine
end

