-- ==== Sys2Proof/Certificates/Slice0/Obligations.lean ====
section
/-! DEFINITION. The statements about the machine, from the numbered rules of the spec. Each says in its
docstring which rule it formalises, or the model's decision (assumption log) it rests on. -/

open Sys2Proof Sys2Proof.Machine Sys2Proof.Config

/-! ### Encoding and decoding -/

/-- A few words written out from the tables of 30_encoding.md R61, R63, R66 and R72 decode to what they
stand for: command codes, a token, both kinds of extension byte, a literal, an offset. -/
def Obligations.SampleWordsDecode : Prop :=
  decode .command [0x01#8] = .ok (.worstCaseDstLen, []) ∧
  decode .command [0x02#8] = .ok (.blockEncode, []) ∧
  decode .command [0x05#8] = .ok (.lcp, []) ∧
  decode .token [0xF1#8, 0x61#8] = .ok (.token 15#4 1#4, [0x61#8]) ∧
  decode .litExt [0xFF#8] = .ok (.litExtCont, []) ∧
  decode .litExt [0x00#8] = .ok (.litExtEnd 0#8, []) ∧
  decode .literal [0x61#8] = .ok (.literal 0x61#8, []) ∧
  decode .offset [0x0B#8, 0x00#8] = .ok (.offset 11#16, []) ∧
  decode .matchExt [0x03#8] = .ok (.matchExtEnd 3#8, [])

/-- Decoding what the encoder of an instruction gives returns the instruction, every operand included, and
leaves the bytes after it (R61 to R67, R72). -/
def Obligations.DecodeOfEncodeIsTheInstruction : Prop :=
  ∀ (i : Instr) (rest : List Byte), i.wf = true →
    decode (contextOf i) (encode i ++ rest) = .ok (i, rest)

/-- Each decoded instruction is well formed, stands at the position it was decoded at, and its encoding is
exactly the bytes taken (R64: each length has one encoding; R68: position alone decides). -/
def Obligations.EncodeOfDecodeIsTheBytes : Prop :=
  ∀ (c : Ctx) (bytes rest : List Byte) (i : Instr), decode c bytes = .ok (i, rest) →
    i.wf = true ∧ contextOf i = c ∧ bytes = encode i ++ rest

/-- Every byte string decodes at every position of the stream, whatever its values, exactly when it holds as
many bytes as the element has (R68, R69); a command is decoded exactly when its code fits 3 bits (R73). -/
def Obligations.StreamBytesAlwaysDecode : Prop :=
  ∀ (c : Ctx) (bytes : List Byte),
    (c ≠ .command →
      (c.size ≤ bytes.length → ∃ i, isElement i = true ∧ decode c bytes = .ok (i, bytes.drop c.size)) ∧
      (bytes.length < c.size → decode c bytes = .error .truncated)) ∧
    (c = .command → ∀ b rest, bytes = b :: rest →
      (b.toNat < 8 → ∃ i, isElement i = false ∧ decode c bytes = .ok (i, rest)) ∧
      (8 ≤ b.toNat → decode c bytes = .error .opTooWide))

/-- The fields of the stream elements: the nibbles of a token (R61), the bytes of an offset, low byte first
(R66), 255 and only 255 continues an extension run (R63). -/
def Obligations.ElementFieldsAreTheBits : Prop :=
  ∀ (b b0 b1 : Byte) (rest : List Byte),
    decode .token (b :: rest) =
      .ok (.token (BitVec.ofNat 4 (b.toNat / 16)) (BitVec.ofNat 4 (b.toNat % 16)), rest) ∧
    decode .offset (b0 :: b1 :: rest) =
      .ok (.offset (BitVec.ofNat 16 (b0.toNat + 256 * b1.toNat)), rest) ∧
    (b.toNat = 255 → decode .litExt (b :: rest) = .ok (.litExtCont, rest) ∧
      decode .matchExt (b :: rest) = .ok (.matchExtCont, rest)) ∧
    (b.toNat < 255 → decode .litExt (b :: rest) = .ok (.litExtEnd b, rest) ∧
      decode .matchExt (b :: rest) = .ok (.matchExtEnd b, rest))

/-- The bytes of an extension run give back the value they encode, and no other run of the form R63 gives
the same bytes: `n / 255 + 1` bytes, all 255 but the last, which is below 255 (R63, R64, R140). -/
def Obligations.ExtensionRunHasOneValue : Prop :=
  ∀ n : Nat, (extBytes n).length = n / 255 + 1 ∧
    ∃ k r, r < 255 ∧ n = 255 * k + r ∧ extBytes n = List.replicate k 0xFF#8 ++ [BitVec.ofNat 8 r] ∧
      ∀ k' r', r' < 255 → List.replicate k' 0xFF#8 ++ [BitVec.ofNat 8 r'] = extBytes n →
        k' = k ∧ r' = r

/-- What a sequence costs in source bytes and produces in output bytes, and what the final sequence does (R117). -/
def Obligations.SequenceCostsAndProduces : Prop :=
  ∀ (q : LzSeq) (out last : List Byte) (low : Nibble), 4 ≤ q.len →
    let ext := fun v : Nat => if v < 15 then 0 else (v - 15) / 255 + 1
    q.bytes.length = 1 + ext q.lits.length + q.lits.length + 2 + ext (q.len - 4) ∧
    (q.apply out).length = out.length + (q.lits.length + q.len) ∧
    (lastBytes last low).length = 1 + ext last.length + last.length ∧
    ∀ b : LzBlock, b.expand.length = (expandSeqs b.seqs).length + b.last.length

/-! ### Memory and the units -/

/-- A wider read is the little-endian combination of the narrower reads at the same addresses (R44). -/
def Obligations.WiderReadIsLittleEndian : Prop :=
  ∀ (m : Memory) (a : Nat),
    (memRead32 m a).toNat = (memRead m a).toNat + 256 * (memRead m (a + 1)).toNat +
      65536 * (memRead m (a + 2)).toNat + 16777216 * (memRead m (a + 3)).toNat ∧
    (halfLE (memRead m a) (memRead m (a + 1))).toNat =
      (memRead m a).toNat + 256 * (memRead m (a + 1)).toNat

/-- A read returns the most recent write to that byte (R49), a write leaves every other byte, and the memory
stays in canonical form, in which equal contents are equal data. -/
def Obligations.ReadReturnsLatestWrite : Prop :=
  ∀ (m m' : Memory) (a x : Nat) (b : Byte), m.wf → m'.wf →
    memRead (memWrite m a b) a = b ∧
    (x ≠ a → memRead (memWrite m a b) x = memRead m x) ∧
    (memWrite m a b).wf ∧
    ((∀ y, memRead m y = memRead m' y) → m = m')

/-- The hash (R133): bits 31 to 20 of the low 32 bits of `x * 2654435761`, which are bits 31 to 20 of the full
product too; a value below 4096. -/
def Obligations.HashIsTopBitsOfProduct : Prop :=
  ∀ x : Word, (Machine.hash x).toNat = x.toNat * 2654435761 % 2 ^ 32 / 2 ^ 20 ∧
    (Machine.hash x).toNat = x.toNat * 2654435761 / 2 ^ 20 % 4096

/-- The scanner's listing returns the `k` of the definition (R95, R97): two words are equal exactly when their
four bytes are, and the count is the largest `k` up to the limit below which the bytes agree. -/
def Obligations.LcpListingIsTheDefinition : Prop :=
  ∀ (m : Memory) (p q n k : Nat),
    (memRead32 m p = memRead32 m q ↔ ∀ i < 4, memRead m (p + i) = memRead m (q + i)) ∧
    (lcpCount m p q (p + n) = k ↔
      k ≤ n ∧ (∀ i < k, memRead m (p + i) = memRead m (q + i)) ∧
        (k < n → memRead m (p + k) ≠ memRead m (q + k)))

/-! ### A step -/

/-- A step runs the decoded instruction: idle, the command whose code is in `OP`; in a running decode, the
stream element at `sp` whenever the label fetches one and the source has its bytes, `InvalidData` (or, in the
literal copy, no step) when it has not, and otherwise the label's own work; in any other running command, one
visit to its label. Nothing is added around `exec` (R14, R68, R112; the cut into steps is log entry 6). -/
def Obligations.StepRunsTheDecodedInstruction : Prop :=
  ∀ s : State,
    (s.phase = .idle → step s = exec (decodeCommand s.op) s) ∧
    (s.phase = .busy → s.op = 3#3 →
      (∀ c i rest, elementCtx s = some c → decode c (streamBytes c s) = .ok (i, rest) →
        i.wf = true ∧ step s = exec i s) ∧
      (∀ c e, elementCtx s = some c → decode c (streamBytes c s) = .error e → step s = streamUnderflow s) ∧
      (elementCtx s = none → step s = decInternal s)) ∧
    (s.phase = .busy → s.op ≠ 3#3 → step s = internalVisit s)

/-- The two forms of a command agree (92_eei_decisions.md D8): the whole-command meaning gives a state exactly
when starting the command and stepping it to its end gives that state. The stores being canonical is the
model's invariant. -/
def Obligations.WholeCommandAgreesWithItsSteps : Prop :=
  ∀ s t : State, StoresCanonical s → s.phase = .idle →
    (exec (decodeCommand s.op) s = .next t ↔
      ∃ u n, hostStart s = .next u ∧ runToEnd step n u = .next t)

/-! ### The invariant of the machine -/

/-- After reset the machine is idle and meets its invariant, and what the host reads as the result is unspecified
(R201, R25): a read gives the two free values, whatever they are. The values of the registers R25 leaves unspecified,
and that such a read gives a value instead of none, are the model's choice (log entries 1 to 5, 8). -/
def Obligations.ResetMeetsTheInvariant : Prop :=
  State.reset.phase = .idle ∧ MachineInv State.reset ∧
    hostReadResult State.reset = .next
      (Status.ofCode Config.unspecifiedStatus, Config.unspecifiedValue % 2 ^ State.reset.params.xlen)

/-- Every step keeps the invariant: the stores canonical, the registers within their widths, `VALUE` 0 after an
error, and the invariants of the running codec (R17, R113, R114, R147). -/
def Obligations.EveryStepKeepsTheInvariant : Prop :=
  ∀ s t : State, MachineInv s → step s = .next t → MachineInv t

/-- The host's moves on an idle engine (R12, R206, R213): a write sets its own register or byte and keeps everything
else, a read gives the byte there or, once a command has ended, the result. That a value or an address is taken modulo
`2^XLEN` is the model's choice (log entry 27), and so is that a byte is written or read whatever range of the memory map
it is in (log entry 30). No move, a start included, breaks the invariant, whatever is written. -/
def Obligations.HostMovesSetOneThingAndKeepTheInvariant : Prop :=
  ∀ (s : State) (op : BitVec 3) (v : Nat) (b : Byte),
    (s.phase = .idle →
      hostWriteOp op s = .next { s with op := op } ∧
      hostWriteDstPtr v s = .next { s with dstPtr := v % 2 ^ s.params.xlen } ∧
      hostWriteDstLen v s = .next { s with dstLen := v % 2 ^ s.params.xlen } ∧
      hostWriteSrcPtr v s = .next { s with srcPtr := v % 2 ^ s.params.xlen } ∧
      hostWriteSrcLen v s = .next { s with srcLen := v % 2 ^ s.params.xlen } ∧
      hostWriteByte v b s = .next { s with mem := memWrite s.mem (v % 2 ^ s.params.xlen) b } ∧
      hostReadByte v s = .next (memRead s.mem (v % 2 ^ s.params.xlen)) ∧
      (s.ended = true → hostReadResult s = .next (s.status, s.value))) ∧
    ∀ t : State, MachineInv s →
      (hostWriteOp op s = .next t ∨ hostWriteDstPtr v s = .next t ∨ hostWriteDstLen v s = .next t ∨
        hostWriteSrcPtr v s = .next t ∨ hostWriteSrcLen v s = .next t ∨ hostWriteByte v b s = .next t ∨
        hostStart s = .next t) → MachineInv t

/-- A running command never stops short: every step of it gives a next state (R115, R147, R204), for a host `PEEK_U32LE`
or `LCP` under its precondition, which the invariant holds (R91, R96). The model faults before an access outside a
buffer (R43; its own stop, log entry 12), so no step makes one, and there is no stuck state. -/
def Obligations.RunningCommandNeverStops : Prop :=
  ∀ s : State, MachineInv s → s.phase = .busy → ∃ t, step s = .next t

/-- A started command has the working state of R25 (a decode and an encode their cursors at 0 and their first label,
a scan its count at 0), with the operands and the memory as they were (R12, R213), and it ends (R204): after finitely
many steps the machine is idle and the result can be read. -/
def Obligations.StartedCommandEnds : Prop :=
  ∀ s u : State, MachineInv s → hostStart s = .next u →
    u.phase = .busy ∧ OperandsKept s u ∧ u.mem = s.mem ∧
    (s.op = 2#3 → u.enc.sp = 0 ∧ u.enc.literalStart = 0 ∧ u.enc.dp = 0 ∧ u.enc.estate = .ePrecheck) ∧
    (s.op = 3#3 → u.dec.sp = 0 ∧ u.dec.dp = 0 ∧ u.dec.dstate = .dPrecheck) ∧
    (s.op = 5#3 → u.lcp.k = 0) ∧
    ∃ n t, runToEnd step n u = .next t ∧ t.phase = .idle ∧ hostReadResult t = .next (t.status, t.value)

/-- The host has no move while a command runs (R14, R206). -/
def Obligations.HostHasNoMoveWhileBusy : Prop :=
  ∀ (s : State) (op : BitVec 3) (v : Nat) (b : Byte), s.phase = .busy →
    hostWriteOp op s = .refused .hostMoveWhileBusy ∧
    hostWriteDstPtr v s = .refused .hostMoveWhileBusy ∧
    hostWriteDstLen v s = .refused .hostMoveWhileBusy ∧
    hostWriteSrcPtr v s = .refused .hostMoveWhileBusy ∧
    hostWriteSrcLen v s = .refused .hostMoveWhileBusy ∧
    hostWriteByte v b s = .refused .hostMoveWhileBusy ∧
    hostReadByte v s = .refused .hostMoveWhileBusy ∧
    hostReadResult s = .refused .hostMoveWhileBusy ∧
    (s.op ≠ 0#3 → s.op ≠ 6#3 → s.op ≠ 7#3 → hostStart s = .refused .hostMoveWhileBusy)

/-! ### Whole-machine rules -/

/-- The engine never writes an operand register or a parameter (R12). -/
def Obligations.NoStepWritesTheOperands : Prop :=
  ∀ s t : State, step s = .next t → OperandsKept s t

/-- No step changes a byte outside the destination range, so with disjoint ranges the source bytes stay what they
were; and only the two codecs change memory at all (R40, R43, R47, R120, R130). -/
def Obligations.OnlyTheDestinationIsWritten : Prop :=
  ∀ s t : State, step s = .next t →
    WritesOnly s.dstPtr s.dstLen s t ∧ (s.op ≠ 2#3 → s.op ≠ 3#3 → t.mem = s.mem) ∧
    (disjointRanges s.srcPtr s.srcLen s.dstPtr s.dstLen = true → sourceBytes t = sourceBytes s)

/-- `STATUS` and `VALUE` are written only by the step that ends a command, together with `PHASE = IDLE`
(R14, R22, R179); a step after which the engine is still busy leaves both. -/
def Obligations.ResultIsWrittenOnlyAtTheEnd : Prop :=
  ∀ s t : State, step s = .next t →
    (t.phase = .busy → s.phase = .busy ∧ t.status = s.status ∧ t.value = s.value ∧ t.ended = s.ended) ∧
    (t.phase = .idle → t.ended = true ∧ (t.status ≠ .ok → t.value = 0))

/-- The decoder does not use `PEEK_U32LE`, `LCP` or the hash table (R119): whatever they and the encoder's
registers hold, a decode does the same and leaves them. -/
def Obligations.DecoderIgnoresTableAndUnits : Prop :=
  ∀ (s t : State) (e : EncRegs) (h : HashTable) (pk : PeekRegs) (lc : LcpRegs),
    exec .blockDecode s = .next t →
      t.enc = s.enc ∧ t.ht = s.ht ∧ t.peek = s.peek ∧ t.lcp = s.lcp ∧
      exec .blockDecode { s with enc := e, ht := h, peek := pk, lcp := lc } =
        .next { t with enc := e, ht := h, peek := pk, lcp := lc }

/-- The cursors of a decode are inside their buffers before and after every step, and a match copy reads below `dp`
(R17, R113). Past the pre-check a step moves them forward only, over at most two source bytes and one destination
byte, and writes memory only by the byte at `dp` that it moves past (R21, R48). -/
def Obligations.DecoderCursorsAdvanceInsideTheBuffers : Prop :=
  ∀ s t : State, s.phase = .busy → s.op = 3#3 → step s = .next t →
    (MachineInv s →
      s.dec.sp ≤ s.srcLen ∧ s.dec.dp ≤ s.dstLen ∧
      (s.dec.dstate = .dMatchCopy → s.dec.fromOff < s.dec.dp) ∧
      t.dec.sp ≤ t.srcLen ∧ t.dec.dp ≤ t.dstLen ∧
      (t.phase = .busy → t.dec.dstate = .dMatchCopy → t.dec.fromOff < t.dec.dp)) ∧
    (s.dec.dstate ≠ .dPrecheck →
      s.dec.sp ≤ t.dec.sp ∧ t.dec.sp ≤ s.dec.sp + 2 ∧
      (t.dec.dp = s.dec.dp ∧ t.mem = s.mem ∨
        t.dec.dp = s.dec.dp + 1 ∧ ∃ b, t.mem = memWrite s.mem (s.dstPtr + s.dec.dp) b))

/-- What a stream element leaves unchanged when it gives a next state (R103 to R108): the parameters, the
operands, the encoder's registers, the table and the units; every byte of memory but the one a literal stores;
the result registers unless the element ends the command, which it does only with `invalid_data`. -/
def Obligations.StreamElementFrame : Prop :=
  ∀ (i : Instr) (s t : State), isElement i = true → exec i s = .next t →
    OperandsKept s t ∧ t.enc = s.enc ∧ t.ht = s.ht ∧ t.peek = s.peek ∧ t.lcp = s.lcp ∧
    (∀ a, elementStore i s ≠ some a → memRead t.mem a = memRead s.mem a) ∧
    (t.phase = .busy ∧ t.status = s.status ∧ t.value = s.value ∧ t.ended = s.ended ∨
      t.phase = .idle ∧ t.status = .invalidData ∧ t.value = 0 ∧ t.ended = true)

/-! ### WORST_CASE_DST_LEN, the primitives, the refused codes -/

/-- `WORST_CASE_DST_LEN`, code 1 (R170): the sum, or `SrcTooLong` above 0x7E000000; nothing else changes. -/
def Obligations.WorstCaseDstLenResult : Prop :=
  decodeCommand 1#3 = .worstCaseDstLen ∧ ∀ s : State, s.phase = .idle →
    exec .worstCaseDstLen s = .next
      (if 0x7E000000 < s.srcLen then
        { s with status := .srcTooLong, value := 0, ended := true }
      else
        { s with status := .ok, value := s.srcLen + s.srcLen / 255 + 16, ended := true })

/-- The worst-case size is monotonic, at least 16, and at most 2,122,219,150 for an accepted length, which is
below 2^31 (R172). -/
def Obligations.WorstCaseSizeRange : Prop :=
  ∀ a b : Nat, (a ≤ b → worstCaseSize a ≤ worstCaseSize b) ∧ 16 ≤ worstCaseSize a ∧
    (a ≤ 0x7E000000 → worstCaseSize a ≤ 2122219150) ∧ worstCaseSize 0x7E000000 = 2122219150 ∧
    2122219150 < 2 ^ 31

/-- `PEEK_U32LE` in the host form (R72, R90): the four bytes at `SRC_PTR`, the lowest address the least
significant, zero-extended into `VALUE`; memory is not written. The unit's registers are the model's record of
its latest use (log entry 19). -/
def Obligations.PeekU32leResult : Prop :=
  ∀ s : State, s.phase = .idle → s.params.hostPrimitives = true → 4 ≤ s.srcLen →
    readableBuffer s.params s.srcPtr s.srcLen = true →
    exec .peekU32le s = .next { s with
      status := .ok
      value := (memRead s.mem s.srcPtr).toNat + 256 * (memRead s.mem (s.srcPtr + 1)).toNat +
        65536 * (memRead s.mem (s.srcPtr + 2)).toNat + 16777216 * (memRead s.mem (s.srcPtr + 3)).toNat
      ended := true
      peek := { p := s.srcPtr, data := memRead32 s.mem s.srcPtr } }

/-- `LCP` in the host form (R72, R95): if the two sequences agree below `k`, and `k` is the whole first
sequence or the bytes at `k` differ, and every byte this reads of the second sequence is available (R96), the
result is `k`; memory is not written. The model's choices here: that the scan reads no byte past the first difference
(log entry 15), that the second range, `DST_PTR` and `DST_LEN`, need only be readable (log entry 28), that the scan's own
word reads leave the peek unit's registers (log entry 29), and the record of the latest use (log entry 19). -/
def Obligations.LcpResult : Prop :=
  ∀ (s : State) (k : Nat), s.phase = .idle → s.params.hostPrimitives = true →
    readableBuffer s.params s.srcPtr s.srcLen = true →
    readableBuffer s.params s.dstPtr s.dstLen = true →
    k ≤ s.srcLen → (∀ i < k, memRead s.mem (s.srcPtr + i) = memRead s.mem (s.dstPtr + i)) →
    (k < s.srcLen → memRead s.mem (s.srcPtr + k) ≠ memRead s.mem (s.dstPtr + k)) →
    min (k + 1) s.srcLen ≤ s.dstLen →
    exec .lcp s = .next { s with
      status := .ok
      value := k
      ended := true
      lcp := { p := s.srcPtr, q := s.dstPtr, pLimit := s.srcPtr + s.srcLen, k := k } }

/-- Where a command has no meaning because its contract is broken (R72, R91, R96, R41, R42, R52, U11), run whole or
started by the host. The primitives: not exported, the four bytes not in the buffer, a range that is no buffer (the
second of `LCP` need only be readable, log entry 28), or the second sequence ending before the scan does (log entry 15).
What a buffer is: every byte in the address space and in no memory of a barred kind; so a range may end exactly at
`2^XLEN`, and one of no bytes may have any pointer. The codecs: ready exactly when the source is readable, the
destination readable and writable, and no byte is in both, so adjacent ranges are; otherwise refused for one of these
reasons. Which reason comes first where several hold is the model's (log entry 14). -/
def Obligations.CommandsRefusedOutsideTheirContract : Prop :=
  ∀ s : State, s.phase = .idle →
    (s.params.hostPrimitives = false →
      RefusedWith .peekU32le .primitiveNotExported s ∧ RefusedWith .lcp .primitiveNotExported s) ∧
    (s.params.hostPrimitives = true → s.srcLen < 4 → RefusedWith .peekU32le .peekOutsideBuffer s) ∧
    (s.params.hostPrimitives = true → 4 ≤ s.srcLen →
      ¬ PlainBytes s.params [.device, .unmapped] s.srcPtr s.srcLen →
      RefusedWith .peekU32le .sourceRangeInvalid s) ∧
    (s.params.hostPrimitives = true → ¬ PlainBytes s.params [.device, .unmapped] s.srcPtr s.srcLen →
      RefusedWith .lcp .sourceRangeInvalid s) ∧
    (s.params.hostPrimitives = true → PlainBytes s.params [.device, .unmapped] s.srcPtr s.srcLen →
      ¬ PlainBytes s.params [.device, .unmapped] s.dstPtr s.dstLen →
      RefusedWith .lcp .destinationRangeInvalid s) ∧
    (s.params.hostPrimitives = true → readableBuffer s.params s.srcPtr s.srcLen = true →
      readableBuffer s.params s.dstPtr s.dstLen = true → s.dstLen < s.srcLen →
      (∀ i < s.dstLen, memRead s.mem (s.srcPtr + i) = memRead s.mem (s.dstPtr + i)) →
      RefusedWith .lcp .lcpSecondSequenceTooShort s) ∧
    (∀ ptr len, readableBuffer s.params ptr len = true ↔
      PlainBytes s.params [.device, .unmapped] ptr len) ∧
    (CodecReady s ↔
      PlainBytes s.params [.device, .unmapped] s.srcPtr s.srcLen ∧
      PlainBytes s.params [.readOnly, .device, .unmapped] s.dstPtr s.dstLen ∧
      ∀ a, ¬ (InRange s.srcPtr s.srcLen a ∧ InRange s.dstPtr s.dstLen a)) ∧
    (¬ CodecReady s → ∃ r,
      (r = .sourceRangeInvalid ∨ r = .destinationRangeInvalid ∨ r = .buffersOverlap) ∧
      RefusedWith .blockDecode r s ∧ RefusedWith .blockEncode r s)

/-- The codes that name no operation have no meaning (R72, 93_implementation_defined.md U9): executing,
stepping and starting them are refused. -/
def Obligations.RefusedCodesStop : Prop :=
  ∀ s : State,
    exec .refusedOp0 s = .refused .opNamesNoOperation ∧
    exec .refusedOp6 s = .refused .opNamesNoOperation ∧
    exec .refusedOp7 s = .refused .opNamesNoOperation ∧
    (s.phase = .idle → s.op = 0#3 ∨ s.op = 6#3 ∨ s.op = 7#3 →
      step s = .refused .opNamesNoOperation ∧ hostStart s = .refused .opNamesNoOperation)

/-! ### The stream elements -/

/-- `TOKEN` (R103) runs at `D_TOKEN` when a source byte remains: token and literal length set, `sp` moved by 1,
the literal-length run next exactly when the high nibble is 15. -/
def Obligations.TokenCompletes : Prop :=
  ∀ (s : State) (l m : Nibble), s.phase = .busy → s.dec.dstate = .dToken → s.dec.sp < s.srcLen →
    exec (.token l m) s = .next { s with dec := { s.dec with
      token := BitVec.ofNat 8 (16 * l.toNat + m.toNat)
      sp := s.dec.sp + 1
      literalLen := BitVec.ofNat 32 l.toNat
      dstate := if l.toNat = 15 then .dLitExt else .dLitCheck } }

/-- `LIT_EXT_CONT` and `LIT_EXT_END` (R104) run at `D_LITEXT` when a source byte remains: the byte is added and
255, only 255, keeps the run going. -/
def Obligations.LiteralExtensionCompletes : Prop :=
  ∀ (s : State) (r : Byte), s.phase = .busy → s.dec.dstate = .dLitExt → s.dec.sp < s.srcLen →
    exec .litExtCont s = .next { s with dec := { s.dec with
      sp := s.dec.sp + 1, literalLen := s.dec.literalLen + 255#32, dstate := .dLitExt } } ∧
    (r.toNat < 255 → exec (.litExtEnd r) s = .next { s with dec := { s.dec with
      sp := s.dec.sp + 1, literalLen := s.dec.literalLen + BitVec.ofNat 32 r.toNat
      dstate := .dLitCheck } })

/-- `LITERAL` (R105) runs at `D_LITCOPY` while literals remain, both cursors inside their buffers (as the
invariants R113 have them): the byte is stored at `dp`, both cursors move by 1. -/
def Obligations.LiteralCompletes : Prop :=
  ∀ (s : State) (b : Byte), s.phase = .busy → s.dec.dstate = .dLitCopy → s.dec.n ≠ 0#32 →
    s.dec.sp < s.srcLen → s.dec.dp < s.dstLen →
    exec (.literal b) s = .next { s with
      mem := memWrite s.mem (s.dstPtr + s.dec.dp) b
      dec := { s.dec with sp := s.dec.sp + 1, dp := s.dec.dp + 1, n := s.dec.n - 1#32 } }

/-- `OFFSET` (R107) runs at `D_OFFSET` when two source bytes remain. A legal offset is set, `sp` moved by 2, the match
length begun at the low nibble plus 4 (R108), its run next exactly when that nibble is 15. An offset of 0, or one that
reaches before the first decoded byte, raises `InvalidData` (R70): the two bytes are consumed, nothing is written. -/
def Obligations.OffsetCompletes : Prop :=
  ∀ (s : State) (o : Half), s.phase = .busy → s.dec.dstate = .dOffset → s.dec.sp + 2 ≤ s.srcLen →
    (1 ≤ o.toNat → o.toNat ≤ s.dec.dp →
      exec (.offset o) s = .next { s with dec := { s.dec with
        copyOff := o
        sp := s.dec.sp + 2
        copyLen := BitVec.ofNat 32 (s.dec.token.toNat % 16 + 4)
        dstate := if s.dec.token.toNat % 16 = 15 then .dMatchExt else .dMatchCheck } }) ∧
    (o.toNat = 0 ∨ s.dec.dp < o.toNat →
      exec (.offset o) s = .next { s with
        dec := { s.dec with copyOff := o, sp := s.dec.sp + 2 }
        status := .invalidData, value := 0, phase := .idle, ended := true })

/-- `MATCH_EXT_CONT` and `MATCH_EXT_END` (R108) run at `D_MATCHEXT` when a source byte remains. -/
def Obligations.MatchExtensionCompletes : Prop :=
  ∀ (s : State) (r : Byte), s.phase = .busy → s.dec.dstate = .dMatchExt → s.dec.sp < s.srcLen →
    exec .matchExtCont s = .next { s with dec := { s.dec with
      sp := s.dec.sp + 1, copyLen := s.dec.copyLen + 255#32, dstate := .dMatchExt } } ∧
    (r.toNat < 255 → exec (.matchExtEnd r) s = .next { s with dec := { s.dec with
      sp := s.dec.sp + 1, copyLen := s.dec.copyLen + BitVec.ofNat 32 r.toNat
      dstate := .dMatchCheck } })

/-! ### The labels of the decoder -/

/-- `D_PRECHECK` (R101): the length check before anything else, then both cursors at 0. `D_ENDCHECK` (R106): success
with the bytes written as the result when the source is exhausted, and the offset next otherwise. -/
def Obligations.DecoderFirstAndLastSteps : Prop :=
  ∀ s : State,
    (DecodingAt .dPrecheck s → step s = .next
      (if 0x00FFFFFF < s.srcLen then
        { s with status := .srcTooLong, value := 0, phase := .idle, ended := true }
      else { s with dec := { s.dec with sp := 0, dp := 0, dstate := .dToken } })) ∧
    (DecodingAt .dEndCheck s → s.dec.sp ≤ s.srcLen → step s = .next
      (if s.dec.sp = s.srcLen then
        { s with status := .ok, value := s.dec.dp, phase := .idle, ended := true }
      else { s with dec := { s.dec with dstate := .dOffset } }))

/-- `D_TOKEN` and `D_LITEXT` (R103, R104): the byte at `sp`, or `InvalidData` when the source has none left. -/
def Obligations.TokenAndLiteralRunSteps : Prop :=
  ∀ s : State, s.dec.sp ≤ s.srcLen →
    let b := memRead s.mem (s.srcPtr + s.dec.sp)
    (DecodingAt .dToken s → step s = .next
      (if s.dec.sp = s.srcLen then
        { s with status := .invalidData, value := 0, phase := .idle, ended := true }
      else { s with dec := { s.dec with
        token := b
        sp := s.dec.sp + 1
        literalLen := BitVec.ofNat 32 (b.toNat / 16)
        dstate := if b.toNat / 16 = 15 then .dLitExt else .dLitCheck } })) ∧
    (DecodingAt .dLitExt s → step s = .next
      (if s.dec.sp = s.srcLen then
        { s with status := .invalidData, value := 0, phase := .idle, ended := true }
      else { s with dec := { s.dec with
        sp := s.dec.sp + 1
        literalLen := s.dec.literalLen + BitVec.ofNat 32 b.toNat
        dstate := if b.toNat = 255 then .dLitExt else .dLitCheck } }))

/-- `D_LITCHECK` and `D_LITCOPY` (R105): the source test before the destination test, both before the first
byte is copied; then one byte a step. -/
def Obligations.LiteralCheckAndCopySteps : Prop :=
  ∀ s : State, DecoderInv s →
    (DecodingAt .dLitCheck s → step s = .next
      (if s.srcLen - s.dec.sp < s.dec.literalLen.toNat then
        { s with status := .invalidData, value := 0, phase := .idle, ended := true }
      else if s.dstLen - s.dec.dp < s.dec.literalLen.toNat then
        { s with status := .dstTooShort, value := 0, phase := .idle, ended := true }
      else { s with dec := { s.dec with n := s.dec.literalLen, dstate := .dLitCopy } })) ∧
    (DecodingAt .dLitCopy s → step s = .next
      (if s.dec.n.toNat = 0 then { s with dec := { s.dec with dstate := .dEndCheck } }
      else { s with
        mem := memWrite s.mem (s.dstPtr + s.dec.dp) (memRead s.mem (s.srcPtr + s.dec.sp))
        dec := { s.dec with sp := s.dec.sp + 1, dp := s.dec.dp + 1
                            n := BitVec.ofNat 32 (s.dec.n.toNat - 1) } }))

/-- `D_OFFSET` and `D_MATCHEXT` (R107, R108): fewer than two bytes, a zero offset or one beyond the bytes written
raise `InvalidData`; the match length is the low nibble plus 4 plus the run. -/
def Obligations.OffsetAndMatchRunSteps : Prop :=
  ∀ s : State, s.dec.sp ≤ s.srcLen →
    let b0 := memRead s.mem (s.srcPtr + s.dec.sp)
    let o := b0.toNat + 256 * (memRead s.mem (s.srcPtr + (s.dec.sp + 1))).toNat
    (DecodingAt .dOffset s → ∃ t, step s = .next t ∧
      if s.srcLen - s.dec.sp < 2 ∨ o = 0 ∨ s.dec.dp < o then
        t.status = .invalidData ∧ t.value = 0 ∧ t.phase = .idle ∧ t.mem = s.mem
      else t = { s with dec := { s.dec with
        copyOff := BitVec.ofNat 16 o
        sp := s.dec.sp + 2
        copyLen := BitVec.ofNat 32 (s.dec.token.toNat % 16 + 4)
        dstate := if s.dec.token.toNat % 16 = 15 then .dMatchExt else .dMatchCheck } }) ∧
    (DecodingAt .dMatchExt s → step s = .next
      (if s.dec.sp = s.srcLen then
        { s with status := .invalidData, value := 0, phase := .idle, ended := true }
      else { s with dec := { s.dec with
        sp := s.dec.sp + 1
        copyLen := s.dec.copyLen + BitVec.ofNat 32 b0.toNat
        dstate := if b0.toNat = 255 then .dMatchExt else .dMatchCheck } }))

/-- `D_MATCHCHECK` (R109): the capacity test once, before the first byte; then `from` is `dp - copy_off`, which is
not negative. `D_MATCHCOPY` (R110, R111): the byte at `from` is read and then written at `dp`, one byte a step; with
none left the decoder goes back to the token, whatever remains of the source, which is a choice: the spec's own
decision D9 (92_eei_decisions.md), followed in log entry 23. -/
def Obligations.MatchCheckAndCopySteps : Prop :=
  ∀ s : State, DecoderInv s →
    (DecodingAt .dMatchCheck s → s.dec.copyOff.toNat ≤ s.dec.dp ∧ step s = .next
      (if s.dstLen - s.dec.dp < s.dec.copyLen.toNat then
        { s with status := .dstTooShort, value := 0, phase := .idle, ended := true }
      else { s with dec := { s.dec with
        fromOff := s.dec.dp - s.dec.copyOff.toNat, dstate := .dMatchCopy } })) ∧
    (DecodingAt .dMatchCopy s → s.dec.fromOff < s.dec.dp ∧ step s = .next
      (if s.dec.copyLen.toNat = 0 then { s with dec := { s.dec with dstate := .dToken } }
      else { s with
        mem := memWrite s.mem (s.dstPtr + s.dec.dp) (memRead s.mem (s.dstPtr + s.dec.fromOff))
        dec := { s.dec with fromOff := s.dec.fromOff + 1, dp := s.dec.dp + 1
                            copyLen := BitVec.ofNat 32 (s.dec.copyLen.toNat - 1) } }))

/-- The match copy as a whole (R50, R110): after `copy_len` steps the new bytes are the periodic extension, with
period `copy_off`, of the bytes before `dp`. -/
def Obligations.MatchCopyIsPeriodic : Prop :=
  ∀ s : State, DecodingAt .dMatchCopy s → DecoderInv s → s.mem.wf →
    s.dec.fromOff + s.dec.copyOff.toNat = s.dec.dp →
    ∃ t, core.run s.dec.copyLen.toNat s = .next t ∧ DecodingAt .dMatchCopy t ∧ t.dec.copyLen = 0#32 ∧
      t.dec.dp = s.dec.dp + s.dec.copyLen.toNat ∧
      (∀ i < s.dec.copyLen.toNat, memRead t.mem (s.dstPtr + (s.dec.dp + i)) =
        memRead s.mem (s.dstPtr + (s.dec.dp - s.dec.copyOff.toNat + i % s.dec.copyOff.toNat))) ∧
      WritesOnly (s.dstPtr + s.dec.dp) s.dec.copyLen.toNat s t

/-! ### BLOCK_DECODE as a whole -/

/-- `BLOCK_DECODE` completes on every operand and every source content (R100, R115, R204), ends idle with a result,
and changes no byte of memory but the `dp` bytes it wrote at the start of the destination; on `ok`, `VALUE` is
that number of bytes, and `DST[VALUE .. DST_LEN)` is unchanged (R120); that a failed decode leaves no other byte
changed either is log entry 16. `SrcTooLong` comes exactly from the length
check, before anything is written (R101, R178); an empty source is `InvalidData` (R70 item 1, R103). -/
def Obligations.BlockDecodeCompletesAndFrames : Prop :=
  ∀ s : State, CodecReady s →
    ∃ t, exec .blockDecode s = .next t ∧ t.phase = .idle ∧ t.ended = true ∧ OperandsKept s t ∧
      (t.status = .ok → t.value = t.dec.dp ∧ t.value ≤ s.dstLen) ∧
      (t.status ≠ .ok → t.value = 0) ∧
      (t.status = .srcTooLong ↔ 0x00FFFFFF < s.srcLen) ∧
      (t.status = .srcTooLong → t.mem = s.mem) ∧
      (s.srcLen = 0 → t.status = .invalidData ∧ t.mem = s.mem) ∧
      (t.status ≠ .srcTooLong → t.dec.dp ≤ s.dstLen ∧ WritesOnly s.dstPtr t.dec.dp s t)

/-- Every byte string that is a well-formed block (R60 to R67) and violates no condition of R70 decodes with `ok`,
given enough destination room (R121 item 3), and what is written is the block's decoded bytes. -/
def Obligations.LegalBlockDecodes : Prop :=
  ∀ (s : State) (b : LzBlock), CodecReady s → s.mem.wf → s.srcLen ≤ 0x00FFFFFF →
    HoldsLegalBlock s b → b.expand.length ≤ s.dstLen →
    ∃ t, exec .blockDecode s = .next t ∧ DecodedTo b t

/-- The decoder rejects malformed input (R69, R121 item 1): whatever the source bytes, a decode completes, and it
either ends with `ok`, the source then being the bytes of a legal block and the destination holding what that block
decodes to, or with one of the three error kinds; it writes no byte outside the destination. -/
def Obligations.DecoderRejectsMalformedInput : Prop :=
  ∀ s : State, CodecReady s → s.mem.wf → ∃ t, exec .blockDecode s = .next t ∧ SoundDecode s t

/-- A decode is a function of the source bytes and `DST_LEN` alone (R10, R200): not of addresses, nor of anything
an earlier command left. -/
def Obligations.DecodeDependsOnSourceAndRoom : Prop :=
  ∀ s s' t : State, CodecReady s → CodecReady s' → s.mem.wf → s'.mem.wf →
    sourceBytes s' = sourceBytes s → s'.dstLen = s.dstLen → exec .blockDecode s = .next t →
    ∃ t', exec .blockDecode s' = .next t' ∧ SameAnswer t t'

/-! ### The labels of the encoder -/

/-- `E_PRECHECK` (R131, R132): the length check, then the worst-case size and the room check, then the cursors at 0
and the short path for at most 12 source bytes, the matcher for any more. `E_SETUP` and `E_SCAN_INIT` (R134, R135
item 1): the table all zero, the two limits set, the stride reset. -/
def Obligations.EncoderSetupSteps : Prop :=
  ∀ s : State,
    (EncodingAt .ePrecheck s → step s = .next
      (let wc := s.srcLen + s.srcLen / 255 + 16
      if 0x7E000000 < s.srcLen then
        { s with status := .srcTooLong, value := 0, phase := .idle, ended := true }
      else if s.dstLen < wc then
        { s with enc := { s.enc with wc := wc }
                 status := .dstTooShort, value := 0, phase := .idle, ended := true }
      else { s with enc := { s.enc with
        wc := wc, sp := 0, literalStart := 0, dp := 0
        estate := if s.srcLen ≤ 12 then .eFinal else .eSetup } })) ∧
    (EncodingAt .eSetup s → ∃ t, step s = .next t ∧ (∀ i, htRead t.ht i = 0#32) ∧
      t = { s with ht := t.ht, enc := { s.enc with
        matchLimit := s.srcLen - 5, finalLiteralsLimit := s.srcLen - 11, estate := .eScanInit } } ∧
      8 ≤ t.enc.matchLimit ∧ 2 ≤ t.enc.finalLiteralsLimit) ∧
    (EncodingAt .eScanInit s → step s = .next { s with enc := { s.enc with
      step := 1, stepCounter := 64, estate := .eScan } })

/-- `E_SCAN` (R135, R136): the advance, the termination test before anything is read (log entry 17), the probe that
replaces the slot by `sp`, the stride, and the validity of the candidate, which lies below `sp` (R147 item 2). -/
def Obligations.EncoderScanStep : Prop :=
  ∀ s : State, EncodingAt .eScan s → StoresCanonical s →
    let sp := s.enc.sp + s.enc.step
    let h := Machine.hash (memRead32 s.mem (s.srcPtr + sp))
    let m := (htRead s.ht h).toNat
    (s.enc.finalLiteralsLimit ≤ sp →
      step s = .next { s with enc := { s.enc with sp := sp, estate := .eFinal } }) ∧
    (sp < s.enc.finalLiteralsLimit → m < sp ∧ ∃ t, step s = .next t ∧
      htRead t.ht h = BitVec.ofNat 32 sp ∧ (∀ i, i ≠ h → htRead t.ht i = htRead s.ht i) ∧
      t = { s with ht := t.ht, peek := t.peek, enc := { s.enc with
        sp := sp
        matchOff := m
        step := s.enc.stepCounter / 64
        stepCounter := s.enc.stepCounter + 1
        estate := t.enc.estate } } ∧
      (t.enc.estate = .eBackward ∧ sp - m ≤ 65535 ∧ SourceAgrees s sp m 4 ∨
        t.enc.estate = .eScan ∧ ¬ (sp - m ≤ 65535 ∧ SourceAgrees s sp m 4)))

/-- `E_BACKWARD` (R138): both cursors move back together while literals are left, the match is not at the start of
the source and the bytes before both agree; and not further. -/
def Obligations.EncoderBackwardStep : Prop :=
  ∀ s : State, EncodingAt .eBackward s →
    ∃ n, n ≤ s.enc.matchOff ∧ s.enc.literalStart + n ≤ s.enc.sp ∧
      (∀ i < n, memRead s.mem (s.srcPtr + (s.enc.sp - 1 - i)) =
        memRead s.mem (s.srcPtr + (s.enc.matchOff - 1 - i))) ∧
      (n = s.enc.matchOff ∨ s.enc.literalStart + n = s.enc.sp ∨
        memRead s.mem (s.srcPtr + (s.enc.sp - 1 - n)) ≠
          memRead s.mem (s.srcPtr + (s.enc.matchOff - 1 - n))) ∧
      step s = .next { s with enc := { s.enc with
        sp := s.enc.sp - n, matchOff := s.enc.matchOff - n, estate := .eToken } }

/-- `E_TOKEN` (R139): the token byte reserved, the literal-length run and the literals written after it; the bytes
fit, whatever the source (R150 item 3). -/
def Obligations.EncoderTokenStep : Prop :=
  ∀ s : State, EncodingAt .eToken s →
    let n := s.enc.sp - s.enc.literalStart
    let bs := lengthBytes n ++ bytesFrom s.mem (s.srcPtr + s.enc.literalStart) n
    s.enc.dp + 1 + bs.length ≤ s.dstLen ∧
    step s = .next { s with
      mem := writeBytes s.mem (s.dstPtr + (s.enc.dp + 1)) bs
      enc := { s.enc with
        literalLen := n
        tokenPos := s.enc.dp
        token := if n < 15 then BitVec.ofNat 8 (16 * n) else 0xF0#8
        dp := s.enc.dp + 1 + bs.length
        estate := .eMatch } }

/-- `E_MATCH` (R141, R149): the offset low byte first, the length beyond 4 of the common part up to `match_limit`,
its run, the token written once at its reserved place, and `sp` past the match. That the scan's word reads leave the
peek unit's registers is the model's choice (log entry 29), as is the record of the scanner's latest use (log entry 19). -/
def Obligations.EncoderMatchStep : Prop :=
  ∀ s : State, EncodingAt .eMatch s →
    1 ≤ s.enc.sp - s.enc.matchOff ∧ s.enc.sp - s.enc.matchOff ≤ 65535 ∧
    ∃ k, s.enc.sp + 4 + k ≤ s.enc.matchLimit ∧
      SourceAgrees s (s.enc.sp + 4) (s.enc.matchOff + 4) k ∧
      (s.enc.sp + 4 + k < s.enc.matchLimit →
        memRead s.mem (s.srcPtr + (s.enc.sp + 4 + k)) ≠
          memRead s.mem (s.srcPtr + (s.enc.matchOff + 4 + k))) ∧
      let off := s.enc.sp - s.enc.matchOff
      let tok := s.enc.token ||| BitVec.ofNat 8 (min k 15)
      let bs := [BitVec.ofNat 8 (off % 256), BitVec.ofNat 8 (off / 256)] ++ lengthBytes k
      s.enc.dp + bs.length ≤ s.dstLen ∧ s.enc.tokenPos < s.dstLen ∧
      step s = .next { s with
        mem := memWrite (writeBytes s.mem (s.dstPtr + s.enc.dp) bs) (s.dstPtr + s.enc.tokenPos) tok
        lcp := { p := s.enc.sp + 4, q := s.enc.matchOff + 4, pLimit := s.enc.matchLimit, k := k }
        enc := { s.enc with
          copyOff := BitVec.ofNat 16 off
          adjCopyLen := k
          token := tok
          dp := s.enc.dp + bs.length
          sp := s.enc.sp + 4 + k
          estate := .eAdvance } }

/-- `E_ADVANCE` and `E_BACKFILL` (R142, R143): `literal_start` moves to `sp`, at least 5 bytes before the end of the
source; past the limit the final literals follow, else `sp - 2` is stored into the slot of the bytes there. -/
def Obligations.EncoderAdvanceAndBackfillSteps : Prop :=
  ∀ s : State, StoresCanonical s →
    (EncodingAt .eAdvance s → s.enc.sp + 5 ≤ s.srcLen ∧
      step s = .next { s with enc := { s.enc with
        literalStart := s.enc.sp
        estate := if s.enc.finalLiteralsLimit ≤ s.enc.sp then .eFinal else .eBackfill } }) ∧
    (EncodingAt .eBackfill s → ∃ t, step s = .next t ∧
      let h := Machine.hash (memRead32 s.mem (s.srcPtr + (s.enc.sp - 2)))
      htRead t.ht h = BitVec.ofNat 32 (s.enc.sp - 2) ∧ (∀ i, i ≠ h → htRead t.ht i = htRead s.ht i) ∧
      t = { s with ht := t.ht, peek := t.peek, enc := { s.enc with estate := .eFollow } })

/-- `E_FOLLOW` (R144): the slot of the bytes at `sp` is replaced; a valid candidate starts a match with no literals
and a token of 0, any other leads back to the scan, which starts its stride anew (log entry 17). -/
def Obligations.EncoderFollowStep : Prop :=
  ∀ s : State, EncodingAt .eFollow s → StoresCanonical s →
    let h := Machine.hash (memRead32 s.mem (s.srcPtr + s.enc.sp))
    let m := (htRead s.ht h).toNat
    m < s.enc.sp ∧ ∃ t, step s = .next t ∧
      htRead t.ht h = BitVec.ofNat 32 s.enc.sp ∧ (∀ i, i ≠ h → htRead t.ht i = htRead s.ht i) ∧
      (s.enc.sp - m ≤ 65535 ∧ SourceAgrees s s.enc.sp m 4 ∧
        t = { s with ht := t.ht, peek := t.peek, enc := { s.enc with
          matchOff := m, tokenPos := s.enc.dp, dp := s.enc.dp + 1, token := 0x00#8
          estate := .eMatch } } ∨
      ¬ (s.enc.sp - m ≤ 65535 ∧ SourceAgrees s s.enc.sp m 4) ∧
        t = { s with ht := t.ht, peek := t.peek, enc := { s.enc with
          matchOff := m, estate := .eScanInit } })

/-- `E_FINAL` (R145): one final sequence of all remaining source bytes, its token's low nibble 0, and `VALUE` is the
output cursor after it. -/
def Obligations.EncoderFinalStep : Prop :=
  ∀ s : State, EncodingAt .eFinal s →
    let n := s.srcLen - s.enc.literalStart
    let bs := BitVec.ofNat 8 (16 * min n 15) ::
      (lengthBytes n ++ bytesFrom s.mem (s.srcPtr + s.enc.literalStart) n)
    s.enc.dp + bs.length ≤ s.dstLen ∧
    step s = .next { s with
      mem := writeBytes s.mem (s.dstPtr + s.enc.dp) bs
      enc := { s.enc with finalLiteralLen := n, dp := s.enc.dp + bs.length }
      status := .ok, value := s.enc.dp + bs.length, phase := .idle, ended := true }

/-! ### BLOCK_ENCODE as a whole -/

/-- The pre-checks of `BLOCK_ENCODE` (R131, R177, R178): the length first, then the room; on either error no byte
is written, and nothing else changes but the cursors and the label, which the start sets (R25), and for the second the
computed worst case. -/
def Obligations.BlockEncodePrechecks : Prop :=
  ∀ s : State, CodecReady s →
    (0x7E000000 < s.srcLen → exec .blockEncode s = .next { s with
      status := .srcTooLong, value := 0, ended := true
      enc := { s.enc with sp := 0, literalStart := 0, dp := 0, estate := .ePrecheck } }) ∧
    (s.srcLen ≤ 0x7E000000 → s.dstLen < s.srcLen + s.srcLen / 255 + 16 →
      exec .blockEncode s = .next { s with
        status := .dstTooShort, value := 0, ended := true
        enc := { s.enc with
          sp := 0, literalStart := 0, dp := 0, estate := .ePrecheck
          wc := s.srcLen + s.srcLen / 255 + 16 } })

/-- `BLOCK_ENCODE` completes with `ok` whenever the pre-checks pass (R130, R150 item 3, R177): at most the worst-case
size is written, at the start of the destination, and no other byte of memory changes; the decoder's registers and
the operands stay. -/
def Obligations.BlockEncodeCompletes : Prop :=
  ∀ s : State, CodecReady s → StoresCanonical s → s.srcLen ≤ 0x7E000000 →
    s.srcLen + s.srcLen / 255 + 16 ≤ s.dstLen →
    ∃ t, exec .blockEncode s = .next t ∧ t.phase = .idle ∧ t.ended = true ∧ t.status = .ok ∧
      t.value ≤ s.srcLen + s.srcLen / 255 + 16 ∧ WritesOnly s.dstPtr t.value s t ∧
      OperandsKept s t ∧ t.dec = s.dec

/-- A source of at most 12 bytes (R132): one token and the bytes; the table and the units are not used. -/
def Obligations.ShortInputIsOneSequence : Prop :=
  ∀ s : State, CodecReady s → StoresCanonical s → s.srcLen ≤ 12 → s.srcLen + 16 ≤ s.dstLen →
    ∃ t, exec .blockEncode s = .next t ∧ t.status = .ok ∧ t.value = s.srcLen + 1 ∧
      destinationBytes t t.value = BitVec.ofNat 8 (16 * s.srcLen) :: sourceBytes s ∧
      t.ht = s.ht ∧ t.peek = s.peek ∧ t.lcp = s.lcp

/-- What the encoder writes is a legal block that decodes to the source (R150 items 1 to 5, R71): every offset is
in `[1, 65535]` and refers to a position already emitted, the block is no longer than the worst-case size, the final
token's low nibble is 0, the final literals are at least 5 bytes unless they are the whole source, and no match starts
within the last 12 source bytes. -/
def Obligations.EncoderEmitsALegalBlock : Prop :=
  ∀ s t : State, StoresCanonical s → exec .blockEncode s = .next t → t.status = .ok →
    ∃ b : LzBlock, EmittedBlock s t b

/-- The round trip (R121 item 2, R150 item 1): whatever machine decodes the block an encode wrote, with the block no
longer than 0x00FFFFFF bytes and room for the original, gets the original bytes back. -/
def Obligations.RoundTrip : Prop :=
  ∀ s t u : State, StoresCanonical s → exec .blockEncode s = .next t → t.status = .ok →
    HoldsBlockOf s t u →
    ∃ v, exec .blockDecode u = .next v ∧ v.status = .ok ∧ v.value = s.srcLen ∧
      destinationBytes v v.value = sourceBytes s

/-- The block is a function of the source bytes alone (R130, R150 item 6): not of `DST_LEN` beyond the pre-check, of
addresses, or of anything an earlier command left, a dirty table included (R207). -/
def Obligations.EncodeDependsOnSourceOnly : Prop :=
  ∀ s s' t : State, CodecReady s → CodecReady s' → StoresCanonical s → StoresCanonical s' →
    sourceBytes s' = sourceBytes s → s'.srcLen + s'.srcLen / 255 + 16 ≤ s'.dstLen →
    exec .blockEncode s = .next t → t.status = .ok →
    ∃ t', exec .blockEncode s' = .next t' ∧ SameAnswer t t'
end

