-- ==== Sys2Proof/Laws/Decode.lean ====
section
/-! SUPPORT. The pieces of an encoded item and the decoder on them. -/

namespace Sys2Proof

theorem nibbles_append : ∀ b : Byte, highNibble b ++ lowNibble b = b := by decide

theorem highNibble_append (l m : Nibble) : highNibble (l ++ m) = l := by revert l m; decide

theorem lowNibble_append (l m : Nibble) : lowNibble (l ++ m) = m := by revert l m; decide

theorem halfLE_toNat (b0 b1 : Byte) : (halfLE b0 b1).toNat = b0.toNat + 256 * b1.toNat := by
  have h0 := b0.isLt
  have h1 := b1.isLt
  have e0 : (b0.setWidth 16).toNat = b0.toNat := by rw [BitVec.toNat_setWidth]; omega
  have e1 : (b1.setWidth 16).toNat = b1.toNat := by rw [BitVec.toNat_setWidth]; omega
  rw [halfLE, BitVec.toNat_or, BitVec.toNat_shiftLeft, Nat.shiftLeft_eq, e0, e1,
    Nat.mod_eq_of_lt (by omega), Nat.or_comm, Nat.mul_comm,
    ← Nat.two_pow_add_eq_or_of_lt (by omega)]
  omega

theorem lowByte_toNat (h : Half) : (lowByte h).toNat = h.toNat % 256 := by
  simp [lowByte]

theorem highByte_toNat (h : Half) : (highByte h).toNat = h.toNat / 256 := by
  have := h.isLt
  simp only [highByte, BitVec.extractLsb'_toNat, Nat.shiftRight_eq_div_pow]
  omega

theorem halfLE_bytes (h : Half) : halfLE (lowByte h) (highByte h) = h := by
  apply BitVec.eq_of_toNat_eq
  rw [halfLE_toNat, lowByte_toNat, highByte_toNat]
  omega

theorem lowByte_halfLE (b0 b1 : Byte) : lowByte (halfLE b0 b1) = b0 := by
  apply BitVec.eq_of_toNat_eq
  rw [lowByte_toNat, halfLE_toNat]
  have := b0.isLt
  omega

theorem highByte_halfLE (b0 b1 : Byte) : highByte (halfLE b0 b1) = b1 := by
  apply BitVec.eq_of_toNat_eq
  rw [highByte_toNat, halfLE_toNat]
  have := b0.isLt
  omega

/-- The eight command codes (R72): decoding and encoding a code agree. -/
theorem encode_decodeCommand : ∀ op : BitVec 3,
    encode (decodeCommand op) = [op.setWidth 8] ∧ contextOf (decodeCommand op) = .command ∧
      (decodeCommand op).wf = true := by decide

end Sys2Proof
end

