-- ==== Sys2Proof/Laws/Store.lean ====
section
/-! SUPPORT. The laws of sparse storage: a write keeps the canonical form, a read after it gives what was
written, and every other place reads as before. -/

namespace Sys2Proof.Machine

variable {w : Nat}

/-- An address below every listed one reads as 0. -/
theorem storeRead_of_lt (m : List (Nat × BitVec w)) (a : Nat) (h : ∀ c ∈ m, a < c.1) :
    storeRead m a = 0#w := by
  induction m with
  | nil => rfl
  | cons c rest ih =>
    have hc := h c (by simp)
    rw [storeRead, if_neg (by omega)]
    exact ih fun c hc => h c (by simp [hc])

theorem storeRead_write_of_ne (m : List (Nat × BitVec w)) (a : Nat) (v : BitVec w) (b : Nat)
    (hb : b ≠ a) : storeRead (storeWrite m a v) b = storeRead m b := by
  induction m with
  | nil => by_cases hv : v = 0#w <;> simp [storeWrite, storeRead, hv, hb]
  | cons c rest ih =>
    obtain ⟨k, u⟩ := c
    simp only [storeWrite]
    by_cases h1 : a < k
    · by_cases hv : v = 0#w <;> simp [h1, hv, storeRead, hb]
    · by_cases h2 : a = k
      · subst h2
        by_cases hv : v = 0#w <;> simp [hv, storeRead, hb]
      · simp only [h1, h2, if_false, storeRead]
        split
        · rfl
        · exact ih

theorem storeRead_write_self (m : List (Nat × BitVec w)) (a : Nat) (v : BitVec w) (h : storeWf m) :
    storeRead (storeWrite m a v) a = v := by
  induction m with
  | nil => by_cases hv : v = 0#w <;> simp [storeWrite, storeRead, hv]
  | cons c rest ih =>
    obtain ⟨k, u⟩ := c
    obtain ⟨hp, hz⟩ := h
    rw [List.pairwise_cons] at hp
    simp only [storeWrite]
    by_cases h1 : a < k
    · by_cases hv : v = 0#w
      · subst hv
        rw [if_pos h1, if_pos rfl]
        apply storeRead_of_lt
        intro c hc
        rcases List.mem_cons.1 hc with rfl | hc
        · exact h1
        · exact Nat.lt_trans h1 (hp.1 c hc)
      · simp [h1, hv, storeRead]
    · by_cases h2 : a = k
      · subst h2
        by_cases hv : v = 0#w
        · subst hv
          simp only [Nat.lt_irrefl, if_true, if_false]
          exact storeRead_of_lt _ _ hp.1
        · simp [hv, storeRead]
      · simp only [h1, h2, if_false, storeRead]
        exact ih ⟨hp.2, fun c hc => hz c (by simp [hc])⟩

/-- Every entry after a write is the new one or an old one. -/
theorem mem_storeWrite {m : List (Nat × BitVec w)} {a : Nat} {v : BitVec w} {c : Nat × BitVec w}
    (h : c ∈ storeWrite m a v) : c = (a, v) ∧ v ≠ 0#w ∨ c ∈ m := by
  induction m with
  | nil =>
    by_cases hv : v = 0#w <;> simp_all [storeWrite]
  | cons d rest ih =>
    obtain ⟨k, u⟩ := d
    simp only [storeWrite] at h
    by_cases h1 : a < k <;> by_cases h2 : a = k <;> by_cases hv : v = 0#w <;>
      simp_all <;> grind

theorem storeWrite_wf (m : List (Nat × BitVec w)) (a : Nat) (v : BitVec w) (h : storeWf m) :
    storeWf (storeWrite m a v) := by
  refine ⟨?_, fun c hc => ?_⟩
  · obtain ⟨hp, -⟩ := h
    induction m with
    | nil => by_cases hv : v = 0#w <;> simp [storeWrite, hv]
    | cons d rest ih =>
      obtain ⟨k, u⟩ := d
      rw [List.pairwise_cons] at hp
      simp only [storeWrite]
      by_cases h1 : a < k
      · by_cases hv : v = 0#w
        · simpa [h1, hv] using hp
        · simp only [h1, hv, if_true, if_false, List.pairwise_cons]
          refine ⟨fun c hc => ?_, hp⟩
          rcases List.mem_cons.1 hc with rfl | hc
          · exact h1
          · exact Nat.lt_trans h1 (hp.1 c hc)
      · by_cases h2 : a = k
        · subst h2
          by_cases hv : v = 0#w
          · simpa [hv] using hp.2
          · simpa [hv] using hp
        · simp only [h1, h2, if_false, List.pairwise_cons]
          refine ⟨fun c hc => ?_, ih hp.2⟩
          rcases mem_storeWrite hc with ⟨rfl, -⟩ | hc
          · omega
          · exact hp.1 c hc
  · rcases mem_storeWrite hc with ⟨rfl, hv⟩ | hc
    · exact hv
    · exact h.2 c hc

/-- Two canonical stores that read alike are the same list. -/
theorem storeWf_ext {m m' : List (Nat × BitVec w)} (h : storeWf m) (h' : storeWf m')
    (he : ∀ a, storeRead m a = storeRead m' a) : m = m' := by
  have headLt : ∀ {k : Nat} {u : BitVec w} {r l : List (Nat × BitVec w)},
      storeWf ((k, u) :: r) → storeWf l → (∀ a, storeRead ((k, u) :: r) a = storeRead l a) →
      ∃ u' r', l = (k, u') :: r' ∨ ∃ k' , k' < k ∧ l = (k', u') :: r' := by
    intro k u r l hw hl he
    cases l with
    | nil =>
      have := he k
      simp [storeRead] at this
      exact absurd this (hw.2 (k, u) (by simp))
    | cons d r' =>
      obtain ⟨k', u'⟩ := d
      rcases Nat.lt_trichotomy k' k with hlt | rfl | hgt
      · exact ⟨u', r', .inr ⟨k', hlt, rfl⟩⟩
      · exact ⟨u', r', .inl rfl⟩
      · exfalso
        have hz : storeRead ((k', u') :: r') k = 0#w := by
          apply storeRead_of_lt
          intro c hc
          rcases List.mem_cons.1 hc with rfl | hc
          · exact hgt
          · exact Nat.lt_trans hgt ((List.pairwise_cons.1 hl.1).1 c hc)
        have := he k
        rw [hz] at this
        simp [storeRead] at this
        exact hw.2 (k, u) (by simp) this
  induction m generalizing m' with
  | nil =>
    cases m' with
    | nil => rfl
    | cons d r =>
      obtain ⟨k, u⟩ := d
      obtain ⟨u', r', hl | ⟨k', -, hl⟩⟩ := headLt h' h (fun a => (he a).symm) <;> simp at hl
  | cons d rest ih =>
    obtain ⟨k, u⟩ := d
    obtain ⟨u', r', rfl | ⟨k', hk, rfl⟩⟩ := headLt h h' he
    · have hu : u = u' := by simpa [storeRead] using he k
      subst hu
      congr 1
      refine ih ⟨(List.pairwise_cons.1 h.1).2, fun c hc => h.2 c (by simp [hc])⟩
        ⟨(List.pairwise_cons.1 h'.1).2, fun c hc => h'.2 c (by simp [hc])⟩ fun a => ?_
      by_cases hak : a = k
      · subst hak
        rw [storeRead_of_lt _ _ (List.pairwise_cons.1 h.1).1,
          storeRead_of_lt _ _ (List.pairwise_cons.1 h'.1).1]
      · simpa [storeRead, hak] using he a
    · obtain ⟨u'', r'', hl | ⟨k'', hk'', hl⟩⟩ := headLt h' h (fun a => (he a).symm)
      · simp at hl; omega
      · simp at hl; omega

end Sys2Proof.Machine
end

