-- ==== Sys2Proof/Laws/Memory.lean ====
section
/-! SUPPORT. The laws of byte memory: canonical form, read after write, frames, byte lists, and the
little-endian word of 20_memory.md R44. -/

namespace Sys2Proof.Machine

theorem memRead_write_self (m : Memory) (a : Nat) (b : Byte) (h : m.wf) :
    memRead (memWrite m a b) a = b := storeRead_write_self m a b h

theorem memRead_write_of_ne (m : Memory) {a x : Nat} (b : Byte) (h : x ≠ a) :
    memRead (memWrite m a b) x = memRead m x := storeRead_write_of_ne m a b x h

theorem memWrite_wf (m : Memory) (a : Nat) (b : Byte) (h : m.wf) : (memWrite m a b).wf :=
  storeWrite_wf m a b h

/-! ### Lists of bytes read -/

@[simp] theorem bytesFrom_length (m : Memory) (a n : Nat) : (bytesFrom m a n).length = n := by
  induction n generalizing a with
  | zero => rfl
  | succ n ih => simp [bytesFrom, ih]

theorem bytesFrom_getElem (m : Memory) (a n i : Nat) (h : i < (bytesFrom m a n).length) :
    (bytesFrom m a n)[i] = memRead m (a + i) := by
  induction n generalizing a i with
  | zero => simp [bytesFrom] at h
  | succ n ih =>
    cases i with
    | zero => simp [bytesFrom]
    | succ i =>
      simp only [bytesFrom, List.getElem_cons_succ]
      rw [ih]
      congr 1
      omega

theorem bytesFrom_getElem? (m : Memory) (a n i : Nat) (h : i < n) :
    (bytesFrom m a n)[i]? = some (memRead m (a + i)) := by
  rw [List.getElem?_eq_getElem (by simpa using h), bytesFrom_getElem]

theorem bytesFrom_add (m : Memory) (a n k : Nat) :
    bytesFrom m a (n + k) = bytesFrom m a n ++ bytesFrom m (a + n) k := by
  induction n generalizing a with
  | zero => simp [bytesFrom]
  | succ n ih =>
    rw [show n + 1 + k = (n + k) + 1 by omega]
    simp only [bytesFrom, List.cons_append, ih (a + 1), show a + 1 + n = a + (n + 1) by omega]

theorem bytesFrom_succ_last (m : Memory) (a n : Nat) :
    bytesFrom m a (n + 1) = bytesFrom m a n ++ [memRead m (a + n)] := by
  rw [bytesFrom_add]; rfl

/-- Two memories that agree on a range give the same bytes of it. -/
theorem bytesFrom_congr {m m' : Memory} {a a' n : Nat}
    (h : ∀ i < n, memRead m (a + i) = memRead m' (a' + i)) : bytesFrom m a n = bytesFrom m' a' n := by
  apply List.ext_getElem (by simp)
  intro i h1 h2
  rw [bytesFrom_getElem, bytesFrom_getElem]
  exact h i (by simpa using h1)

/-- Equal byte lists agree at every offset. -/
theorem memRead_of_bytesFrom_eq {m m' : Memory} {a a' n i : Nat}
    (h : bytesFrom m a n = bytesFrom m' a' n) (hi : i < n) :
    memRead m (a + i) = memRead m' (a' + i) := by
  have h1 := bytesFrom_getElem? m a n i hi
  rw [h, bytesFrom_getElem? m' a' n i hi] at h1
  exact (Option.some.inj h1).symm

theorem bytesFrom_take (m : Memory) (a n k : Nat) (h : k ≤ n) :
    (bytesFrom m a n).take k = bytesFrom m a k := by
  obtain ⟨j, rfl⟩ := Nat.exists_eq_add_of_le h
  rw [bytesFrom_add, List.take_left' (by simp)]

theorem bytesFrom_drop (m : Memory) (a n k : Nat) (h : k ≤ n) :
    (bytesFrom m a n).drop k = bytesFrom m (a + k) (n - k) := by
  obtain ⟨j, rfl⟩ := Nat.exists_eq_add_of_le h
  rw [bytesFrom_add, List.drop_left' (by simp), Nat.add_sub_cancel_left]

/-! ### Lists of bytes written -/

theorem writeBytes_append (m : Memory) (a : Nat) (bs cs : List Byte) :
    writeBytes m a (bs ++ cs) = writeBytes (writeBytes m a bs) (a + bs.length) cs := by
  induction bs generalizing m a with
  | nil => rfl
  | cons b bs ih =>
    simp only [List.cons_append, writeBytes, ih, List.length_cons]
    congr 1
    omega

theorem writeBytes_wf (m : Memory) (a : Nat) (bs : List Byte) (h : m.wf) : (writeBytes m a bs).wf := by
  induction bs generalizing m a with
  | nil => exact h
  | cons b bs ih => exact ih _ _ (memWrite_wf m a b h)

/-- The frame of a list write: every byte outside the written range reads as before. -/
theorem memRead_writeBytes_of_outside (m : Memory) (a : Nat) (bs : List Byte) (x : Nat)
    (h : x < a ∨ a + bs.length ≤ x) : memRead (writeBytes m a bs) x = memRead m x := by
  induction bs generalizing m a with
  | nil => rfl
  | cons b bs ih =>
    simp only [List.length_cons] at h
    rw [writeBytes, ih _ _ (by omega), memRead_write_of_ne _ _ (by omega)]

theorem memRead_writeBytes_inside (m : Memory) (a : Nat) (bs : List Byte) (i : Nat)
    (h : i < bs.length) (hw : m.wf) : memRead (writeBytes m a bs) (a + i) = bs[i] := by
  induction bs generalizing m a i with
  | nil => simp at h
  | cons b bs ih =>
    cases i with
    | zero =>
      rw [writeBytes, memRead_writeBytes_of_outside _ _ _ _ (by omega)]
      simpa using memRead_write_self m a b hw
    | succ i =>
      rw [writeBytes, show a + (i + 1) = a + 1 + i by omega,
        ih _ _ i (by simpa using h) (memWrite_wf m a b hw)]
      rfl

/-- Reading back a list that was written gives it. -/
theorem bytesFrom_writeBytes_self (m : Memory) (a : Nat) (bs : List Byte) (hw : m.wf) :
    bytesFrom (writeBytes m a bs) a bs.length = bs := by
  apply List.ext_getElem (by simp)
  intro i h1 h2
  rw [bytesFrom_getElem, memRead_writeBytes_inside m a bs i h2 hw]

/-- Bytes of a range apart from the written one are as before. -/
theorem bytesFrom_writeBytes_of_disjoint (m : Memory) (a : Nat) (bs : List Byte) (x n : Nat)
    (h : x + n ≤ a ∨ a + bs.length ≤ x) : bytesFrom (writeBytes m a bs) x n = bytesFrom m x n := by
  apply bytesFrom_congr
  intro i hi
  exact memRead_writeBytes_of_outside _ _ _ _ (by omega)

theorem bytesFrom_memWrite_of_disjoint (m : Memory) (a : Nat) (b : Byte) (x n : Nat)
    (h : x + n ≤ a ∨ a < x) : bytesFrom (memWrite m a b) x n = bytesFrom m x n := by
  apply bytesFrom_congr
  intro i hi
  exact memRead_write_of_ne _ _ (by omega)

/-- Writing the next bytes after a range extends the range by them. -/
theorem bytesFrom_writeBytes_extend (m : Memory) (a n : Nat) (bs : List Byte) (hw : m.wf) :
    bytesFrom (writeBytes m (a + n) bs) a (n + bs.length) = bytesFrom m a n ++ bs := by
  rw [bytesFrom_add, bytesFrom_writeBytes_of_disjoint _ _ _ _ _ (by omega),
    bytesFrom_writeBytes_self _ _ _ hw]

theorem bytesFrom_memWrite_extend (m : Memory) (a n : Nat) (b : Byte) (hw : m.wf) :
    bytesFrom (memWrite m (a + n) b) a (n + 1) = bytesFrom m a n ++ [b] :=
  bytesFrom_writeBytes_extend m a n [b] hw

/-! ### The little-endian word -/

/-- The peeked word determines its four bytes, and they determine it (R44, R97). -/
theorem memRead32_eq_iff (m m' : Memory) (a b : Nat) :
    memRead32 m a = memRead32 m' b ↔ ∀ i < 4, memRead m (a + i) = memRead m' (b + i) := by
  have key : ∀ x0 x1 x2 x3 y0 y1 y2 y3 : Byte,
      (x0.setWidth 32 ||| x1.setWidth 32 <<< 8 ||| x2.setWidth 32 <<< 16 ||| x3.setWidth 32 <<< 24 =
        y0.setWidth 32 ||| y1.setWidth 32 <<< 8 ||| y2.setWidth 32 <<< 16 ||| y3.setWidth 32 <<< 24) →
      x0 = y0 ∧ x1 = y1 ∧ x2 = y2 ∧ x3 = y3 := by
    intro x0 x1 x2 x3 y0 y1 y2 y3 h
    have hb := fun i (_ : i < 32) => congrArg (fun v => v.getLsbD i) h
    refine ⟨?_, ?_, ?_, ?_⟩
    · apply BitVec.eq_of_getLsbD_eq
      intro i hi
      have := hb i (by omega)
      simpa [BitVec.getLsbD_or, BitVec.getLsbD_shiftLeft, BitVec.getLsbD_setWidth, hi,
        show i < 32 by omega, show i < 16 by omega, show i < 24 by omega] using this
    · apply BitVec.eq_of_getLsbD_eq
      intro i hi
      have := hb (i + 8) (by omega)
      have e1 : (x0.getLsbD (i + 8)) = false := BitVec.getLsbD_of_ge _ _ (by omega)
      have e2 : (y0.getLsbD (i + 8)) = false := BitVec.getLsbD_of_ge _ _ (by omega)
      simpa [BitVec.getLsbD_or, BitVec.getLsbD_shiftLeft, BitVec.getLsbD_setWidth, hi, e1, e2,
        show i + 8 < 32 by omega, show i + 8 < 16 by omega, show i + 8 < 24 by omega,
        show i < 32 by omega] using this
    · apply BitVec.eq_of_getLsbD_eq
      intro i hi
      have := hb (i + 16) (by omega)
      have e1 : ∀ z : Byte, (z.getLsbD (i + 16)) = false := fun z => BitVec.getLsbD_of_ge _ _ (by omega)
      have e2 : ∀ z : Byte, (z.getLsbD (i + 16 - 8)) = false := fun z => BitVec.getLsbD_of_ge _ _ (by omega)
      simpa [BitVec.getLsbD_or, BitVec.getLsbD_shiftLeft, BitVec.getLsbD_setWidth, hi, e1, e2,
        show i + 16 < 32 by omega, show ¬ i + 16 < 8 by omega, show i + 16 < 24 by omega,
        show i < 32 by omega] using this
    · apply BitVec.eq_of_getLsbD_eq
      intro i hi
      have := hb (i + 24) (by omega)
      have e1 : ∀ z : Byte, (z.getLsbD (i + 24)) = false := fun z => BitVec.getLsbD_of_ge _ _ (by omega)
      have e2 : ∀ z : Byte, (z.getLsbD (i + 24 - 8)) = false := fun z => BitVec.getLsbD_of_ge _ _ (by omega)
      have e3 : ∀ z : Byte, (z.getLsbD (i + 24 - 16)) = false := fun z => BitVec.getLsbD_of_ge _ _ (by omega)
      simpa [BitVec.getLsbD_or, BitVec.getLsbD_shiftLeft, BitVec.getLsbD_setWidth, hi, e1, e2, e3,
        show i + 24 < 32 by omega, show ¬ i + 24 < 8 by omega, show ¬ i + 24 < 16 by omega,
        show i < 32 by omega] using this
  constructor
  · intro h i hi
    obtain ⟨h0, h1, h2, h3⟩ := key _ _ _ _ _ _ _ _ h
    match i, hi with
    | 0, _ => simpa using h0
    | 1, _ => exact h1
    | 2, _ => exact h2
    | 3, _ => exact h3
  · intro h
    have h0 := h 0 (by omega)
    simp only [Nat.add_zero] at h0
    simp only [memRead32, h0, h 1 (by omega), h 2 (by omega), h 3 (by omega)]

/-- Memories that agree on the four bytes give the same word. -/
theorem memRead32_congr {m m' : Memory} {a b : Nat}
    (h : ∀ i < 4, memRead m (a + i) = memRead m' (b + i)) : memRead32 m a = memRead32 m' b :=
  (memRead32_eq_iff m m' a b).2 h

end Sys2Proof.Machine
end

