-- ==== Sys2Proof/Laws/DecoderVisit.lean ====
section
/-! SUPPORT. What one visit to each label of 42_decoder.md R112 does, said once: later proofs cite these
equations and never unfold the fetch. -/

namespace Sys2Proof.Machine

/-- The source byte at the decoder's cursor. -/
def decByte (s : State) : Byte := memRead s.mem (s.srcPtr + s.dec.sp)

/-- The offset the two source bytes at the cursor hold. -/
def decOffset (s : State) : Half :=
  halfLE (memRead s.mem (s.srcPtr + s.dec.sp)) (memRead s.mem (s.srcPtr + s.dec.sp + 1))

variable {s : State}

theorem streamBytes_one {c : Ctx} (hc : c.size = 1) (h : 1 ≤ decRemainingSrc s) :
    streamBytes c s = [decByte s] := by
  rw [streamBytes, hc, Nat.min_eq_left h]; rfl

theorem streamBytes_two {c : Ctx} (hc : c.size = 2) (h : 2 ≤ decRemainingSrc s) :
    streamBytes c s =
      [memRead s.mem (s.srcPtr + s.dec.sp), memRead s.mem (s.srcPtr + s.dec.sp + 1)] := by
  rw [streamBytes, hc, Nat.min_eq_left h]; rfl

theorem decode_streamBytes_short {c : Ctx} (hc : c ≠ .command) (h : decRemainingSrc s < c.size) :
    decode c (streamBytes c s) = .error .truncated := by
  have hl : (streamBytes c s).length < c.size := by
    simp only [streamBytes, bytesFrom_length]; omega
  revert hl
  generalize streamBytes c s = bs
  intro hl
  cases c <;> simp only [Ctx.size] at hl <;> first
    | exact absurd rfl hc
    | (match bs, hl with
       | [], _ => rfl
       | [_], _ => rfl)
    | (match bs, hl with
       | [], _ => rfl)

theorem decoderVisit_dToken (hb : s.phase = .busy) (hd : s.dec.dstate = .dToken) :
    decoderVisit s =
      if s.srcLen ≤ s.dec.sp then .next (raise .invalidData s)
      else .next { s with dec := { s.dec with
        token := decByte s
        sp := s.dec.sp + 1
        literalLen := (highNibble (decByte s)).setWidth 32
        dstate := if highNibble (decByte s) = 15#4 then .dLitExt else .dLitCheck } } := by
  unfold decoderVisit
  simp only [elementCtx, hd]
  by_cases h : s.srcLen ≤ s.dec.sp
  · rw [if_pos h, decode_streamBytes_short (c := .token) (by simp) (by simp only [decRemainingSrc, Ctx.size]; omega)]
    simp [streamUnderflow, hd]
  · rw [if_neg h]
    have hr : 1 ≤ decRemainingSrc s := by simp only [decRemainingSrc]; omega
    rw [streamBytes_one (c := .token) rfl hr]
    simp only [decode, runElement, execToken, inPosition, hb, hd, and_self, if_true]
    rw [if_neg (by simp only [Ctx.size]; omega), nibbles_append]

theorem decoderVisit_dLitExt (hb : s.phase = .busy) (hd : s.dec.dstate = .dLitExt) :
    decoderVisit s =
      if s.srcLen ≤ s.dec.sp then .next (raise .invalidData s)
      else .next { s with dec := { s.dec with
        sp := s.dec.sp + 1
        literalLen := s.dec.literalLen + (decByte s).setWidth 32
        dstate := if decByte s = 255#8 then .dLitExt else .dLitCheck } } := by
  unfold decoderVisit
  simp only [elementCtx, hd]
  by_cases h : s.srcLen ≤ s.dec.sp
  · rw [if_pos h, decode_streamBytes_short (c := .litExt) (by simp) (by simp only [decRemainingSrc, Ctx.size]; omega)]
    simp [streamUnderflow, hd]
  · rw [if_neg h]
    have hr : 1 ≤ decRemainingSrc s := by simp only [decRemainingSrc]; omega
    rw [streamBytes_one (c := .litExt) rfl hr]
    by_cases hx : decByte s = 255#8 <;>
      simp only [decode, hx, if_true, if_false, runElement, execLitExtCont, execLitExtEnd,
        inPosition, hb, hd, and_self, literalExtension] <;>
      rw [if_neg (by simp only [Ctx.size]; omega)]

theorem decoderVisit_dLitCheck (hd : s.dec.dstate = .dLitCheck) :
    decoderVisit s =
      if s.srcLen - s.dec.sp < s.dec.literalLen.toNat then .next (raise .invalidData s)
      else if s.dstLen - s.dec.dp < s.dec.literalLen.toNat then .next (raise .dstTooShort s)
      else .next { s with dec := { s.dec with n := s.dec.literalLen, dstate := .dLitCopy } } := by
  simp only [decoderVisit, elementCtx, hd, decInternal, decLitCheck, decRemainingSrc, decRemainingDst]
  rfl

theorem decoderVisit_dLitCopy_done (hd : s.dec.dstate = .dLitCopy) (hn : s.dec.n = 0#32) :
    decoderVisit s = .next { s with dec := { s.dec with dstate := .dEndCheck } } := by
  simp only [decoderVisit, elementCtx, hd, hn, if_true, decInternal, decLitDone]

theorem decoderVisit_dLitCopy (hb : s.phase = .busy) (hd : s.dec.dstate = .dLitCopy)
    (hn : s.dec.n ≠ 0#32) :
    decoderVisit s =
      if s.srcLen ≤ s.dec.sp then .fault .sourceOutOfBounds
      else if s.dstLen ≤ s.dec.dp then .fault .destinationOutOfBounds
      else .next { s with
        mem := memWrite s.mem (s.dstPtr + s.dec.dp) (decByte s)
        dec := { s.dec with sp := s.dec.sp + 1, dp := s.dec.dp + 1, n := s.dec.n - 1#32 } } := by
  unfold decoderVisit
  simp only [elementCtx, hd, hn, if_false]
  by_cases h : s.srcLen ≤ s.dec.sp
  · rw [if_pos h, decode_streamBytes_short (c := .literal) (by simp) (by simp only [decRemainingSrc, Ctx.size]; omega)]
    simp [streamUnderflow, hd]
  · rw [if_neg h]
    have hr : 1 ≤ decRemainingSrc s := by simp only [decRemainingSrc]; omega
    rw [streamBytes_one (c := .literal) rfl hr]
    simp only [decode, runElement, execLiteral, hb, hd, hn, ne_eq, not_false_eq_true, and_self, if_true]
    rw [if_neg (by omega)]

theorem decoderVisit_dEndCheck (hd : s.dec.dstate = .dEndCheck) :
    decoderVisit s =
      if s.srcLen ≤ s.dec.sp then .next (ret s.dec.dp s)
      else .next { s with dec := { s.dec with dstate := .dOffset } } := by
  simp only [decoderVisit, elementCtx, hd, decInternal, decEndCheck, decRemainingSrc,
    Nat.sub_eq_zero_iff_le]

theorem decoderVisit_dOffset (hb : s.phase = .busy) (hd : s.dec.dstate = .dOffset) :
    decoderVisit s =
      if s.srcLen - s.dec.sp < 2 then .next (raise .invalidData s)
      else if decOffset s = 0#16 ∨ s.dec.dp < (decOffset s).toNat then
        .next (raise .invalidData
          { s with dec := { s.dec with copyOff := decOffset s, sp := s.dec.sp + 2 } })
      else .next { s with dec := { s.dec with
        copyOff := decOffset s
        sp := s.dec.sp + 2
        copyLen := (lowNibble s.dec.token).setWidth 32 + 4#32
        dstate := if lowNibble s.dec.token = 15#4 then .dMatchExt else .dMatchCheck } } := by
  unfold decoderVisit
  simp only [elementCtx, hd]
  by_cases h : s.srcLen - s.dec.sp < 2
  · rw [if_pos h, decode_streamBytes_short (c := .offset) (by simp) (by simp only [decRemainingSrc, Ctx.size]; omega)]
    simp [streamUnderflow, hd]
  · rw [if_neg h]
    have hr : 2 ≤ decRemainingSrc s := by simp only [decRemainingSrc]; omega
    rw [streamBytes_two (c := .offset) rfl hr]
    simp only [decode, runElement, execOffset, inPosition, hb, hd, and_self, if_true, decOffset]
    rw [if_neg (by simp only [Ctx.size]; omega)]

theorem decoderVisit_dMatchExt (hb : s.phase = .busy) (hd : s.dec.dstate = .dMatchExt) :
    decoderVisit s =
      if s.srcLen ≤ s.dec.sp then .next (raise .invalidData s)
      else .next { s with dec := { s.dec with
        sp := s.dec.sp + 1
        copyLen := s.dec.copyLen + (decByte s).setWidth 32
        dstate := if decByte s = 255#8 then .dMatchExt else .dMatchCheck } } := by
  unfold decoderVisit
  simp only [elementCtx, hd]
  by_cases h : s.srcLen ≤ s.dec.sp
  · rw [if_pos h, decode_streamBytes_short (c := .matchExt) (by simp) (by simp only [decRemainingSrc, Ctx.size]; omega)]
    simp [streamUnderflow, hd]
  · rw [if_neg h]
    have hr : 1 ≤ decRemainingSrc s := by simp only [decRemainingSrc]; omega
    rw [streamBytes_one (c := .matchExt) rfl hr]
    by_cases hx : decByte s = 255#8 <;>
      simp only [decode, hx, if_true, if_false, runElement, execMatchExtCont, execMatchExtEnd,
        inPosition, hb, hd, and_self, matchExtension] <;>
      rw [if_neg (by simp only [Ctx.size]; omega)]

theorem decoderVisit_dMatchCheck (hd : s.dec.dstate = .dMatchCheck) :
    decoderVisit s =
      if s.dstLen - s.dec.dp < s.dec.copyLen.toNat then .next (raise .dstTooShort s)
      else .next { s with dec := { s.dec with
        fromOff := s.dec.dp - s.dec.copyOff.toNat, dstate := .dMatchCopy } } := by
  simp only [decoderVisit, elementCtx, hd, decInternal, decMatchCheck, decRemainingDst]
  rfl

theorem decoderVisit_dMatchCopy (hd : s.dec.dstate = .dMatchCopy) :
    decoderVisit s =
      if s.dec.copyLen = 0#32 then .next { s with dec := { s.dec with dstate := .dToken } }
      else if s.dstLen ≤ s.dec.fromOff ∨ s.dstLen ≤ s.dec.dp then .fault .destinationOutOfBounds
      else .next { s with
        mem := memWrite s.mem (s.dstPtr + s.dec.dp) (memRead s.mem (s.dstPtr + s.dec.fromOff))
        dec := { s.dec with
          fromOff := s.dec.fromOff + 1, dp := s.dec.dp + 1, copyLen := s.dec.copyLen - 1#32 } } := by
  simp only [decoderVisit, elementCtx, hd, decInternal, decMatchCopy]

theorem decoderVisit_dPrecheck (hd : s.dec.dstate = .dPrecheck) :
    decoderVisit s =
      if Config.decMaxSrcLen < s.srcLen then .next (raise .srcTooLong s)
      else .next { s with dec := { s.dec with sp := 0, dp := 0, dstate := .dToken } } := by
  simp only [decoderVisit, elementCtx, hd, decInternal, decPrecheck]

end Sys2Proof.Machine
end

