-- ==== Sys2Proof/Laws/Run.lean ====
section
/-! SUPPORT. The whole run of a command out of its visits: what every visit keeps the run keeps, a measure
that every visit lowers makes it end, and a run is the visits it is made of. -/

namespace Sys2Proof.Machine

@[simp] theorem andThen_next (s : State) (f : State → Out) : andThen (.next s) f = f s := rfl
@[simp] theorem andThen_fault (r : Fault) (f : State → Out) : andThen (.fault r) f = .fault r := rfl
@[simp] theorem andThen_refused (r : Refusal) (f : State → Out) :
    andThen (.refused r) f = .refused r := rfl

/-- A sequence gives a next state only through a next state of its first part. -/
theorem andThen_eq_next {o : Out} {f : State → Out} {t : State} :
    andThen o f = .next t ↔ ∃ u, o = .next u ∧ f u = .next t := by
  cases o <;> simp [andThen]

variable {visit : State → Out}

theorem runToEnd_idle {s : State} (h : s.phase = .idle) (fuel : Nat) :
    runToEnd visit fuel s = .next s := by
  cases fuel <;> simp [runToEnd, h]

theorem runToEnd_busy {s : State} (h : s.phase = .busy) (fuel : Nat) :
    runToEnd visit (fuel + 1) s = andThen (visit s) (runToEnd visit fuel) := by
  simp [runToEnd, h]

/-- What holds at the start and is kept by every visit holds at the end, where the engine is idle. -/
theorem runToEnd_keeps {P : State → Prop}
    (hstep : ∀ s t, s.phase = .busy → P s → visit s = .next t → P t) :
    ∀ {fuel : Nat} {s t : State}, P s → runToEnd visit fuel s = .next t → P t ∧ t.phase = .idle := by
  intro fuel
  induction fuel with
  | zero =>
    intro s t hp h
    simp only [runToEnd] at h
    split at h
    · cases h; exact ⟨hp, by assumption⟩
    · cases h
  | succ fuel ih =>
    intro s t hp h
    simp only [runToEnd] at h
    split at h
    · cases h; exact ⟨hp, by assumption⟩
    · rename_i hi
      obtain ⟨u, hu, ht⟩ := andThen_eq_next.1 h
      have hb : s.phase = .busy := by cases hs : s.phase <;> simp_all
      exact ih (hstep s u hb hp hu) ht

/-- If every visit ends the command or keeps the invariant and lowers the measure, the run ends. -/
theorem runToEnd_total {P : State → Prop} {μ : State → Nat}
    (hstep : ∀ s, s.phase = .busy → P s →
      ∃ t, visit s = .next t ∧ (t.phase = .idle ∨ P t ∧ μ t < μ s)) :
    ∀ {fuel : Nat} {s : State}, P s → μ s < fuel → ∃ t, runToEnd visit fuel s = .next t := by
  intro fuel
  induction fuel with
  | zero => intro s _ h; omega
  | succ fuel ih =>
    intro s hp hm
    cases hb : s.phase with
    | idle => exact ⟨s, runToEnd_idle hb _⟩
    | busy =>
      obtain ⟨t, ht, h | ⟨h, hlt⟩⟩ := hstep s hb hp
      · exact ⟨t, by rw [runToEnd_busy hb, ht, andThen_next, runToEnd_idle h]⟩
      · obtain ⟨r, hr⟩ := ih h (by omega)
        exact ⟨r, by rw [runToEnd_busy hb, ht, andThen_next, hr]⟩

/-- Visits lead from one state to another, the engine busy before each. -/
inductive Runs (visit : State → Out) : State → State → Prop
  | refl (s : State) : Runs visit s s
  | head {s u t : State} (hb : s.phase = .busy) (hv : visit s = .next u) (h : Runs visit u t) :
      Runs visit s t

theorem Runs.one {s t : State} (hb : s.phase = .busy) (hv : visit s = .next t) : Runs visit s t :=
  .head hb hv (.refl t)

theorem Runs.trans {s u t : State} (h1 : Runs visit s u) (h2 : Runs visit u t) : Runs visit s t := by
  induction h1 with
  | refl => exact h2
  | head hb hv _ ih => exact .head hb hv (ih h2)

/-- A run that ends is made of visits. -/
theorem runs_of_runToEnd {fuel : Nat} {s t : State} (h : runToEnd visit fuel s = .next t) :
    Runs visit s t ∧ t.phase = .idle := by
  induction fuel generalizing s with
  | zero =>
    simp only [runToEnd] at h
    split at h
    · cases h; exact ⟨.refl _, by assumption⟩
    · cases h
  | succ fuel ih =>
    simp only [runToEnd] at h
    split at h
    · cases h; exact ⟨.refl _, by assumption⟩
    · obtain ⟨u, hu, ht⟩ := andThen_eq_next.1 h
      have hb : s.phase = .busy := by cases hs : s.phase <;> simp_all
      exact ⟨.head hb hu (ih ht).1, (ih ht).2⟩

/-- Visits that lead to an idle state lead where the whole run leads. -/
theorem runToEnd_of_runs {fuel : Nat} {s t r : State} (h : Runs visit s t) (ht : t.phase = .idle)
    (hr : runToEnd visit fuel s = .next r) : r = t := by
  induction h generalizing fuel with
  | refl s => rw [runToEnd_idle ht] at hr; cases hr; rfl
  | head hb hv _ ih =>
    cases fuel with
    | zero => simp [runToEnd, hb] at hr
    | succ fuel =>
      rw [runToEnd_busy hb, hv, andThen_next] at hr
      exact ih ht hr

/-- What every visit keeps, visits keep. -/
theorem Runs.keeps {P : State → Prop}
    (hstep : ∀ s t, s.phase = .busy → P s → visit s = .next t → P t) {s t : State}
    (h : Runs visit s t) (hp : P s) : P t := by
  induction h with
  | refl => exact hp
  | head hb hv _ ih => exact ih (hstep _ _ hb hp hv)

end Sys2Proof.Machine
end

