-- ==== Sys2Proof/Laws/State.lean ====
section
/-! SUPPORT. One lemma per field per named update of `State`, each true by `rfl`, so that no later proof
unfolds a record update. -/

namespace Sys2Proof.Machine

@[simp] theorem finish_params (st : Status) (v : Nat) (s : State) :
    (s.finish st v).params = s.params := rfl
@[simp] theorem finish_phase (st : Status) (v : Nat) (s : State) :
    (s.finish st v).phase = .idle := rfl
@[simp] theorem finish_op (st : Status) (v : Nat) (s : State) :
    (s.finish st v).op = s.op := rfl
@[simp] theorem finish_dstPtr (st : Status) (v : Nat) (s : State) :
    (s.finish st v).dstPtr = s.dstPtr := rfl
@[simp] theorem finish_dstLen (st : Status) (v : Nat) (s : State) :
    (s.finish st v).dstLen = s.dstLen := rfl
@[simp] theorem finish_srcPtr (st : Status) (v : Nat) (s : State) :
    (s.finish st v).srcPtr = s.srcPtr := rfl
@[simp] theorem finish_srcLen (st : Status) (v : Nat) (s : State) :
    (s.finish st v).srcLen = s.srcLen := rfl
@[simp] theorem finish_status (st : Status) (v : Nat) (s : State) :
    (s.finish st v).status = st := rfl
@[simp] theorem finish_value (st : Status) (v : Nat) (s : State) :
    (s.finish st v).value = v := rfl
@[simp] theorem finish_ended (st : Status) (v : Nat) (s : State) :
    (s.finish st v).ended = true := rfl
@[simp] theorem finish_dec (st : Status) (v : Nat) (s : State) :
    (s.finish st v).dec = s.dec := rfl
@[simp] theorem finish_enc (st : Status) (v : Nat) (s : State) :
    (s.finish st v).enc = s.enc := rfl
@[simp] theorem finish_ht (st : Status) (v : Nat) (s : State) :
    (s.finish st v).ht = s.ht := rfl
@[simp] theorem finish_peek (st : Status) (v : Nat) (s : State) :
    (s.finish st v).peek = s.peek := rfl
@[simp] theorem finish_lcp (st : Status) (v : Nat) (s : State) :
    (s.finish st v).lcp = s.lcp := rfl
@[simp] theorem finish_mem (st : Status) (v : Nat) (s : State) :
    (s.finish st v).mem = s.mem := rfl

@[simp] theorem raise_params (k : ErrorKind) (s : State) :
    (raise k s).params = s.params := rfl
@[simp] theorem raise_phase (k : ErrorKind) (s : State) :
    (raise k s).phase = .idle := rfl
@[simp] theorem raise_op (k : ErrorKind) (s : State) :
    (raise k s).op = s.op := rfl
@[simp] theorem raise_dstPtr (k : ErrorKind) (s : State) :
    (raise k s).dstPtr = s.dstPtr := rfl
@[simp] theorem raise_dstLen (k : ErrorKind) (s : State) :
    (raise k s).dstLen = s.dstLen := rfl
@[simp] theorem raise_srcPtr (k : ErrorKind) (s : State) :
    (raise k s).srcPtr = s.srcPtr := rfl
@[simp] theorem raise_srcLen (k : ErrorKind) (s : State) :
    (raise k s).srcLen = s.srcLen := rfl
@[simp] theorem raise_status (k : ErrorKind) (s : State) :
    (raise k s).status = k.status := rfl
@[simp] theorem raise_value (k : ErrorKind) (s : State) :
    (raise k s).value = 0 := rfl
@[simp] theorem raise_ended (k : ErrorKind) (s : State) :
    (raise k s).ended = true := rfl
@[simp] theorem raise_dec (k : ErrorKind) (s : State) :
    (raise k s).dec = s.dec := rfl
@[simp] theorem raise_enc (k : ErrorKind) (s : State) :
    (raise k s).enc = s.enc := rfl
@[simp] theorem raise_ht (k : ErrorKind) (s : State) :
    (raise k s).ht = s.ht := rfl
@[simp] theorem raise_peek (k : ErrorKind) (s : State) :
    (raise k s).peek = s.peek := rfl
@[simp] theorem raise_lcp (k : ErrorKind) (s : State) :
    (raise k s).lcp = s.lcp := rfl
@[simp] theorem raise_mem (k : ErrorKind) (s : State) :
    (raise k s).mem = s.mem := rfl

@[simp] theorem ret_params (v : Nat) (s : State) :
    (ret v s).params = s.params := rfl
@[simp] theorem ret_phase (v : Nat) (s : State) :
    (ret v s).phase = .idle := rfl
@[simp] theorem ret_op (v : Nat) (s : State) :
    (ret v s).op = s.op := rfl
@[simp] theorem ret_dstPtr (v : Nat) (s : State) :
    (ret v s).dstPtr = s.dstPtr := rfl
@[simp] theorem ret_dstLen (v : Nat) (s : State) :
    (ret v s).dstLen = s.dstLen := rfl
@[simp] theorem ret_srcPtr (v : Nat) (s : State) :
    (ret v s).srcPtr = s.srcPtr := rfl
@[simp] theorem ret_srcLen (v : Nat) (s : State) :
    (ret v s).srcLen = s.srcLen := rfl
@[simp] theorem ret_status (v : Nat) (s : State) :
    (ret v s).status = .ok := rfl
@[simp] theorem ret_value (v : Nat) (s : State) :
    (ret v s).value = v := rfl
@[simp] theorem ret_ended (v : Nat) (s : State) :
    (ret v s).ended = true := rfl
@[simp] theorem ret_dec (v : Nat) (s : State) :
    (ret v s).dec = s.dec := rfl
@[simp] theorem ret_enc (v : Nat) (s : State) :
    (ret v s).enc = s.enc := rfl
@[simp] theorem ret_ht (v : Nat) (s : State) :
    (ret v s).ht = s.ht := rfl
@[simp] theorem ret_peek (v : Nat) (s : State) :
    (ret v s).peek = s.peek := rfl
@[simp] theorem ret_lcp (v : Nat) (s : State) :
    (ret v s).lcp = s.lcp := rfl
@[simp] theorem ret_mem (v : Nat) (s : State) :
    (ret v s).mem = s.mem := rfl

@[simp] theorem encGoto_params (e : EState) (s : State) :
    (s.encGoto e).params = s.params := rfl
@[simp] theorem encGoto_phase (e : EState) (s : State) :
    (s.encGoto e).phase = s.phase := rfl
@[simp] theorem encGoto_op (e : EState) (s : State) :
    (s.encGoto e).op = s.op := rfl
@[simp] theorem encGoto_dstPtr (e : EState) (s : State) :
    (s.encGoto e).dstPtr = s.dstPtr := rfl
@[simp] theorem encGoto_dstLen (e : EState) (s : State) :
    (s.encGoto e).dstLen = s.dstLen := rfl
@[simp] theorem encGoto_srcPtr (e : EState) (s : State) :
    (s.encGoto e).srcPtr = s.srcPtr := rfl
@[simp] theorem encGoto_srcLen (e : EState) (s : State) :
    (s.encGoto e).srcLen = s.srcLen := rfl
@[simp] theorem encGoto_status (e : EState) (s : State) :
    (s.encGoto e).status = s.status := rfl
@[simp] theorem encGoto_value (e : EState) (s : State) :
    (s.encGoto e).value = s.value := rfl
@[simp] theorem encGoto_ended (e : EState) (s : State) :
    (s.encGoto e).ended = s.ended := rfl
@[simp] theorem encGoto_dec (e : EState) (s : State) :
    (s.encGoto e).dec = s.dec := rfl
@[simp] theorem encGoto_enc (e : EState) (s : State) :
    (s.encGoto e).enc = { s.enc with estate := e } := rfl
@[simp] theorem encGoto_ht (e : EState) (s : State) :
    (s.encGoto e).ht = s.ht := rfl
@[simp] theorem encGoto_peek (e : EState) (s : State) :
    (s.encGoto e).peek = s.peek := rfl
@[simp] theorem encGoto_lcp (e : EState) (s : State) :
    (s.encGoto e).lcp = s.lcp := rfl
@[simp] theorem encGoto_mem (e : EState) (s : State) :
    (s.encGoto e).mem = s.mem := rfl

@[simp] theorem peekUnit_params (p : Nat) (s : State) :
    (peekUnit p s).params = s.params := rfl
@[simp] theorem peekUnit_phase (p : Nat) (s : State) :
    (peekUnit p s).phase = s.phase := rfl
@[simp] theorem peekUnit_op (p : Nat) (s : State) :
    (peekUnit p s).op = s.op := rfl
@[simp] theorem peekUnit_dstPtr (p : Nat) (s : State) :
    (peekUnit p s).dstPtr = s.dstPtr := rfl
@[simp] theorem peekUnit_dstLen (p : Nat) (s : State) :
    (peekUnit p s).dstLen = s.dstLen := rfl
@[simp] theorem peekUnit_srcPtr (p : Nat) (s : State) :
    (peekUnit p s).srcPtr = s.srcPtr := rfl
@[simp] theorem peekUnit_srcLen (p : Nat) (s : State) :
    (peekUnit p s).srcLen = s.srcLen := rfl
@[simp] theorem peekUnit_status (p : Nat) (s : State) :
    (peekUnit p s).status = s.status := rfl
@[simp] theorem peekUnit_value (p : Nat) (s : State) :
    (peekUnit p s).value = s.value := rfl
@[simp] theorem peekUnit_ended (p : Nat) (s : State) :
    (peekUnit p s).ended = s.ended := rfl
@[simp] theorem peekUnit_dec (p : Nat) (s : State) :
    (peekUnit p s).dec = s.dec := rfl
@[simp] theorem peekUnit_enc (p : Nat) (s : State) :
    (peekUnit p s).enc = s.enc := rfl
@[simp] theorem peekUnit_ht (p : Nat) (s : State) :
    (peekUnit p s).ht = s.ht := rfl
@[simp] theorem peekUnit_peek (p : Nat) (s : State) :
    (peekUnit p s).peek = { p := p, data := memRead32 s.mem p } := rfl
@[simp] theorem peekUnit_lcp (p : Nat) (s : State) :
    (peekUnit p s).lcp = s.lcp := rfl
@[simp] theorem peekUnit_mem (p : Nat) (s : State) :
    (peekUnit p s).mem = s.mem := rfl

@[simp] theorem lcpUnit_params (b p q l : Nat) (s : State) :
    (lcpUnit b p q l s).params = s.params := rfl
@[simp] theorem lcpUnit_phase (b p q l : Nat) (s : State) :
    (lcpUnit b p q l s).phase = s.phase := rfl
@[simp] theorem lcpUnit_op (b p q l : Nat) (s : State) :
    (lcpUnit b p q l s).op = s.op := rfl
@[simp] theorem lcpUnit_dstPtr (b p q l : Nat) (s : State) :
    (lcpUnit b p q l s).dstPtr = s.dstPtr := rfl
@[simp] theorem lcpUnit_dstLen (b p q l : Nat) (s : State) :
    (lcpUnit b p q l s).dstLen = s.dstLen := rfl
@[simp] theorem lcpUnit_srcPtr (b p q l : Nat) (s : State) :
    (lcpUnit b p q l s).srcPtr = s.srcPtr := rfl
@[simp] theorem lcpUnit_srcLen (b p q l : Nat) (s : State) :
    (lcpUnit b p q l s).srcLen = s.srcLen := rfl
@[simp] theorem lcpUnit_status (b p q l : Nat) (s : State) :
    (lcpUnit b p q l s).status = s.status := rfl
@[simp] theorem lcpUnit_value (b p q l : Nat) (s : State) :
    (lcpUnit b p q l s).value = s.value := rfl
@[simp] theorem lcpUnit_ended (b p q l : Nat) (s : State) :
    (lcpUnit b p q l s).ended = s.ended := rfl
@[simp] theorem lcpUnit_dec (b p q l : Nat) (s : State) :
    (lcpUnit b p q l s).dec = s.dec := rfl
@[simp] theorem lcpUnit_enc (b p q l : Nat) (s : State) :
    (lcpUnit b p q l s).enc = s.enc := rfl
@[simp] theorem lcpUnit_ht (b p q l : Nat) (s : State) :
    (lcpUnit b p q l s).ht = s.ht := rfl
@[simp] theorem lcpUnit_peek (b p q l : Nat) (s : State) :
    (lcpUnit b p q l s).peek = s.peek := rfl
@[simp] theorem lcpUnit_lcp (b p q l : Nat) (s : State) :
    (lcpUnit b p q l s).lcp = { p := p, q := q, pLimit := l, k := lcpCount s.mem (b + p) (b + q) (b + l) } := rfl
@[simp] theorem lcpUnit_mem (b p q l : Nat) (s : State) :
    (lcpUnit b p q l s).mem = s.mem := rfl

@[simp] theorem probeTable_params (x : Word) (s : State) :
    (probeTable x s).params = s.params := rfl
@[simp] theorem probeTable_phase (x : Word) (s : State) :
    (probeTable x s).phase = s.phase := rfl
@[simp] theorem probeTable_op (x : Word) (s : State) :
    (probeTable x s).op = s.op := rfl
@[simp] theorem probeTable_dstPtr (x : Word) (s : State) :
    (probeTable x s).dstPtr = s.dstPtr := rfl
@[simp] theorem probeTable_dstLen (x : Word) (s : State) :
    (probeTable x s).dstLen = s.dstLen := rfl
@[simp] theorem probeTable_srcPtr (x : Word) (s : State) :
    (probeTable x s).srcPtr = s.srcPtr := rfl
@[simp] theorem probeTable_srcLen (x : Word) (s : State) :
    (probeTable x s).srcLen = s.srcLen := rfl
@[simp] theorem probeTable_status (x : Word) (s : State) :
    (probeTable x s).status = s.status := rfl
@[simp] theorem probeTable_value (x : Word) (s : State) :
    (probeTable x s).value = s.value := rfl
@[simp] theorem probeTable_ended (x : Word) (s : State) :
    (probeTable x s).ended = s.ended := rfl
@[simp] theorem probeTable_dec (x : Word) (s : State) :
    (probeTable x s).dec = s.dec := rfl
@[simp] theorem probeTable_enc (x : Word) (s : State) :
    (probeTable x s).enc = { s.enc with matchOff := (htRead s.ht (hash x)).toNat } := rfl
@[simp] theorem probeTable_ht (x : Word) (s : State) :
    (probeTable x s).ht = htWrite s.ht (hash x) (BitVec.ofNat 32 s.enc.sp) := rfl
@[simp] theorem probeTable_peek (x : Word) (s : State) :
    (probeTable x s).peek = s.peek := rfl
@[simp] theorem probeTable_lcp (x : Word) (s : State) :
    (probeTable x s).lcp = s.lcp := rfl
@[simp] theorem probeTable_mem (x : Word) (s : State) :
    (probeTable x s).mem = s.mem := rfl

@[simp] theorem nextStride_params (s : State) :
    (nextStride s).params = s.params := rfl
@[simp] theorem nextStride_phase (s : State) :
    (nextStride s).phase = s.phase := rfl
@[simp] theorem nextStride_op (s : State) :
    (nextStride s).op = s.op := rfl
@[simp] theorem nextStride_dstPtr (s : State) :
    (nextStride s).dstPtr = s.dstPtr := rfl
@[simp] theorem nextStride_dstLen (s : State) :
    (nextStride s).dstLen = s.dstLen := rfl
@[simp] theorem nextStride_srcPtr (s : State) :
    (nextStride s).srcPtr = s.srcPtr := rfl
@[simp] theorem nextStride_srcLen (s : State) :
    (nextStride s).srcLen = s.srcLen := rfl
@[simp] theorem nextStride_status (s : State) :
    (nextStride s).status = s.status := rfl
@[simp] theorem nextStride_value (s : State) :
    (nextStride s).value = s.value := rfl
@[simp] theorem nextStride_ended (s : State) :
    (nextStride s).ended = s.ended := rfl
@[simp] theorem nextStride_dec (s : State) :
    (nextStride s).dec = s.dec := rfl
@[simp] theorem nextStride_enc (s : State) :
    (nextStride s).enc = { s.enc with step := s.enc.stepCounter >>> Config.stepShift, stepCounter := s.enc.stepCounter + 1 } := rfl
@[simp] theorem nextStride_ht (s : State) :
    (nextStride s).ht = s.ht := rfl
@[simp] theorem nextStride_peek (s : State) :
    (nextStride s).peek = s.peek := rfl
@[simp] theorem nextStride_lcp (s : State) :
    (nextStride s).lcp = s.lcp := rfl
@[simp] theorem nextStride_mem (s : State) :
    (nextStride s).mem = s.mem := rfl

@[simp] theorem reserveToken_params (b : Byte) (s : State) :
    (reserveToken b s).params = s.params := rfl
@[simp] theorem reserveToken_phase (b : Byte) (s : State) :
    (reserveToken b s).phase = s.phase := rfl
@[simp] theorem reserveToken_op (b : Byte) (s : State) :
    (reserveToken b s).op = s.op := rfl
@[simp] theorem reserveToken_dstPtr (b : Byte) (s : State) :
    (reserveToken b s).dstPtr = s.dstPtr := rfl
@[simp] theorem reserveToken_dstLen (b : Byte) (s : State) :
    (reserveToken b s).dstLen = s.dstLen := rfl
@[simp] theorem reserveToken_srcPtr (b : Byte) (s : State) :
    (reserveToken b s).srcPtr = s.srcPtr := rfl
@[simp] theorem reserveToken_srcLen (b : Byte) (s : State) :
    (reserveToken b s).srcLen = s.srcLen := rfl
@[simp] theorem reserveToken_status (b : Byte) (s : State) :
    (reserveToken b s).status = s.status := rfl
@[simp] theorem reserveToken_value (b : Byte) (s : State) :
    (reserveToken b s).value = s.value := rfl
@[simp] theorem reserveToken_ended (b : Byte) (s : State) :
    (reserveToken b s).ended = s.ended := rfl
@[simp] theorem reserveToken_dec (b : Byte) (s : State) :
    (reserveToken b s).dec = s.dec := rfl
@[simp] theorem reserveToken_enc (b : Byte) (s : State) :
    (reserveToken b s).enc = { s.enc with tokenPos := s.enc.dp, dp := s.enc.dp + 1, token := b } := rfl
@[simp] theorem reserveToken_ht (b : Byte) (s : State) :
    (reserveToken b s).ht = s.ht := rfl
@[simp] theorem reserveToken_peek (b : Byte) (s : State) :
    (reserveToken b s).peek = s.peek := rfl
@[simp] theorem reserveToken_lcp (b : Byte) (s : State) :
    (reserveToken b s).lcp = s.lcp := rfl
@[simp] theorem reserveToken_mem (b : Byte) (s : State) :
    (reserveToken b s).mem = s.mem := rfl

@[simp] theorem followMatch_params (s : State) :
    (followMatch s).params = s.params := rfl
@[simp] theorem followMatch_phase (s : State) :
    (followMatch s).phase = s.phase := rfl
@[simp] theorem followMatch_op (s : State) :
    (followMatch s).op = s.op := rfl
@[simp] theorem followMatch_dstPtr (s : State) :
    (followMatch s).dstPtr = s.dstPtr := rfl
@[simp] theorem followMatch_dstLen (s : State) :
    (followMatch s).dstLen = s.dstLen := rfl
@[simp] theorem followMatch_srcPtr (s : State) :
    (followMatch s).srcPtr = s.srcPtr := rfl
@[simp] theorem followMatch_srcLen (s : State) :
    (followMatch s).srcLen = s.srcLen := rfl
@[simp] theorem followMatch_status (s : State) :
    (followMatch s).status = s.status := rfl
@[simp] theorem followMatch_value (s : State) :
    (followMatch s).value = s.value := rfl
@[simp] theorem followMatch_ended (s : State) :
    (followMatch s).ended = s.ended := rfl
@[simp] theorem followMatch_dec (s : State) :
    (followMatch s).dec = s.dec := rfl
@[simp] theorem followMatch_enc (s : State) :
    (followMatch s).enc = { s.enc with tokenPos := s.enc.dp, dp := s.enc.dp + 1, token := 0x00#8, estate := .eMatch } := rfl
@[simp] theorem followMatch_ht (s : State) :
    (followMatch s).ht = s.ht := rfl
@[simp] theorem followMatch_peek (s : State) :
    (followMatch s).peek = s.peek := rfl
@[simp] theorem followMatch_lcp (s : State) :
    (followMatch s).lcp = s.lcp := rfl
@[simp] theorem followMatch_mem (s : State) :
    (followMatch s).mem = s.mem := rfl

@[simp] theorem beginDecode_params (s : State) :
    (beginDecode s).params = s.params := rfl
@[simp] theorem beginDecode_phase (s : State) :
    (beginDecode s).phase = s.phase := rfl
@[simp] theorem beginDecode_op (s : State) :
    (beginDecode s).op = s.op := rfl
@[simp] theorem beginDecode_dstPtr (s : State) :
    (beginDecode s).dstPtr = s.dstPtr := rfl
@[simp] theorem beginDecode_dstLen (s : State) :
    (beginDecode s).dstLen = s.dstLen := rfl
@[simp] theorem beginDecode_srcPtr (s : State) :
    (beginDecode s).srcPtr = s.srcPtr := rfl
@[simp] theorem beginDecode_srcLen (s : State) :
    (beginDecode s).srcLen = s.srcLen := rfl
@[simp] theorem beginDecode_status (s : State) :
    (beginDecode s).status = s.status := rfl
@[simp] theorem beginDecode_value (s : State) :
    (beginDecode s).value = s.value := rfl
@[simp] theorem beginDecode_ended (s : State) :
    (beginDecode s).ended = s.ended := rfl
@[simp] theorem beginDecode_dec (s : State) :
    (beginDecode s).dec = { s.dec with sp := 0, dp := 0, dstate := .dPrecheck } := rfl
@[simp] theorem beginDecode_enc (s : State) :
    (beginDecode s).enc = s.enc := rfl
@[simp] theorem beginDecode_ht (s : State) :
    (beginDecode s).ht = s.ht := rfl
@[simp] theorem beginDecode_peek (s : State) :
    (beginDecode s).peek = s.peek := rfl
@[simp] theorem beginDecode_lcp (s : State) :
    (beginDecode s).lcp = s.lcp := rfl
@[simp] theorem beginDecode_mem (s : State) :
    (beginDecode s).mem = s.mem := rfl

@[simp] theorem beginLcp_params (s : State) :
    (beginLcp s).params = s.params := rfl
@[simp] theorem beginLcp_phase (s : State) :
    (beginLcp s).phase = s.phase := rfl
@[simp] theorem beginLcp_op (s : State) :
    (beginLcp s).op = s.op := rfl
@[simp] theorem beginLcp_dstPtr (s : State) :
    (beginLcp s).dstPtr = s.dstPtr := rfl
@[simp] theorem beginLcp_dstLen (s : State) :
    (beginLcp s).dstLen = s.dstLen := rfl
@[simp] theorem beginLcp_srcPtr (s : State) :
    (beginLcp s).srcPtr = s.srcPtr := rfl
@[simp] theorem beginLcp_srcLen (s : State) :
    (beginLcp s).srcLen = s.srcLen := rfl
@[simp] theorem beginLcp_status (s : State) :
    (beginLcp s).status = s.status := rfl
@[simp] theorem beginLcp_value (s : State) :
    (beginLcp s).value = s.value := rfl
@[simp] theorem beginLcp_ended (s : State) :
    (beginLcp s).ended = s.ended := rfl
@[simp] theorem beginLcp_dec (s : State) :
    (beginLcp s).dec = s.dec := rfl
@[simp] theorem beginLcp_enc (s : State) :
    (beginLcp s).enc = s.enc := rfl
@[simp] theorem beginLcp_ht (s : State) :
    (beginLcp s).ht = s.ht := rfl
@[simp] theorem beginLcp_peek (s : State) :
    (beginLcp s).peek = s.peek := rfl
@[simp] theorem beginLcp_lcp (s : State) :
    (beginLcp s).lcp = { s.lcp with k := 0 } := rfl
@[simp] theorem beginLcp_mem (s : State) :
    (beginLcp s).mem = s.mem := rfl

@[simp] theorem beginEncode_params (s : State) :
    (beginEncode s).params = s.params := rfl
@[simp] theorem beginEncode_phase (s : State) :
    (beginEncode s).phase = s.phase := rfl
@[simp] theorem beginEncode_op (s : State) :
    (beginEncode s).op = s.op := rfl
@[simp] theorem beginEncode_dstPtr (s : State) :
    (beginEncode s).dstPtr = s.dstPtr := rfl
@[simp] theorem beginEncode_dstLen (s : State) :
    (beginEncode s).dstLen = s.dstLen := rfl
@[simp] theorem beginEncode_srcPtr (s : State) :
    (beginEncode s).srcPtr = s.srcPtr := rfl
@[simp] theorem beginEncode_srcLen (s : State) :
    (beginEncode s).srcLen = s.srcLen := rfl
@[simp] theorem beginEncode_status (s : State) :
    (beginEncode s).status = s.status := rfl
@[simp] theorem beginEncode_value (s : State) :
    (beginEncode s).value = s.value := rfl
@[simp] theorem beginEncode_ended (s : State) :
    (beginEncode s).ended = s.ended := rfl
@[simp] theorem beginEncode_dec (s : State) :
    (beginEncode s).dec = s.dec := rfl
@[simp] theorem beginEncode_enc (s : State) :
    (beginEncode s).enc = { s.enc with sp := 0, literalStart := 0, dp := 0, estate := .ePrecheck } := rfl
@[simp] theorem beginEncode_ht (s : State) :
    (beginEncode s).ht = s.ht := rfl
@[simp] theorem beginEncode_peek (s : State) :
    (beginEncode s).peek = s.peek := rfl
@[simp] theorem beginEncode_lcp (s : State) :
    (beginEncode s).lcp = s.lcp := rfl
@[simp] theorem beginEncode_mem (s : State) :
    (beginEncode s).mem = s.mem := rfl

end Sys2Proof.Machine
end

