-- ==== Sys2Proof/Laws/DecoderInv.lean ====
section
/-! SUPPORT. What a visit of the decoder can change, that it keeps the invariants of R113 and R114, that it
never stops with a fault, and that the command ends (R115). -/

namespace Sys2Proof.Machine

open Sys2Proof.Config

/-- What no visit of the decoder changes, and how it may end the command. -/
structure DecFrame (s t : State) : Prop where
  params : t.params = s.params
  op : t.op = s.op
  dstPtr : t.dstPtr = s.dstPtr
  dstLen : t.dstLen = s.dstLen
  srcPtr : t.srcPtr = s.srcPtr
  srcLen : t.srcLen = s.srcLen
  enc : t.enc = s.enc
  ht : t.ht = s.ht
  peek : t.peek = s.peek
  lcp : t.lcp = s.lcp
  wf : s.mem.wf → t.mem.wf
  mem : ∀ a, a < s.dstPtr ∨ s.dstPtr + s.dstLen ≤ a → memRead t.mem a = memRead s.mem a
  ends : t.phase = .busy ∧ t.status = s.status ∧ t.value = s.value ∧ t.ended = s.ended ∨
    t.phase = .idle ∧ t.ended = true ∧
      (t.status = .ok ∧ t.value = t.dec.dp ∨ t.status ≠ .ok ∧ t.value = 0)

theorem decoderVisit_frame {s t : State} (hb : s.phase = .busy) (h : decoderVisit s = .next t) :
    DecFrame s t := by
  have fin : ∀ u : State, u.phase = .busy → u.params = s.params → u.op = s.op → u.dstPtr = s.dstPtr →
      u.dstLen = s.dstLen → u.srcPtr = s.srcPtr → u.srcLen = s.srcLen → u.enc = s.enc → u.ht = s.ht →
      u.peek = s.peek → u.lcp = s.lcp → u.mem = s.mem → ∀ k, DecFrame s (raise k u) := by
    intro u _ h1 h2 h3 h4 h5 h6 h7 h8 h9 h10 h11 k
    exact ⟨h1, h2, h3, h4, h5, h6, h7, h8, h9, h10, by simp [h11], by simp [h11],
      .inr ⟨rfl, rfl, .inr ⟨by cases k <;> simp [ErrorKind.status], rfl⟩⟩⟩
  cases hd : s.dec.dstate with
  | dPrecheck =>
    rw [decoderVisit_dPrecheck hd] at h
    split at h <;> cases h
    · exact fin s hb rfl rfl rfl rfl rfl rfl rfl rfl rfl rfl rfl _
    · exact ⟨rfl, rfl, rfl, rfl, rfl, rfl, rfl, rfl, rfl, rfl, id, fun _ _ => rfl, .inl ⟨hb, rfl, rfl, rfl⟩⟩
  | dToken =>
    rw [decoderVisit_dToken hb hd] at h
    split at h <;> cases h
    · exact fin s hb rfl rfl rfl rfl rfl rfl rfl rfl rfl rfl rfl _
    · exact ⟨rfl, rfl, rfl, rfl, rfl, rfl, rfl, rfl, rfl, rfl, id, fun _ _ => rfl, .inl ⟨hb, rfl, rfl, rfl⟩⟩
  | dLitExt =>
    rw [decoderVisit_dLitExt hb hd] at h
    split at h <;> cases h
    · exact fin s hb rfl rfl rfl rfl rfl rfl rfl rfl rfl rfl rfl _
    · exact ⟨rfl, rfl, rfl, rfl, rfl, rfl, rfl, rfl, rfl, rfl, id, fun _ _ => rfl, .inl ⟨hb, rfl, rfl, rfl⟩⟩
  | dLitCheck =>
    rw [decoderVisit_dLitCheck hd] at h
    split at h
    · cases h; exact fin s hb rfl rfl rfl rfl rfl rfl rfl rfl rfl rfl rfl _
    · split at h <;> cases h
      · exact fin s hb rfl rfl rfl rfl rfl rfl rfl rfl rfl rfl rfl _
      · exact ⟨rfl, rfl, rfl, rfl, rfl, rfl, rfl, rfl, rfl, rfl, id, fun _ _ => rfl, .inl ⟨hb, rfl, rfl, rfl⟩⟩
  | dLitCopy =>
    by_cases hn : s.dec.n = 0#32
    · rw [decoderVisit_dLitCopy_done hd hn] at h
      cases h
      exact ⟨rfl, rfl, rfl, rfl, rfl, rfl, rfl, rfl, rfl, rfl, id, fun _ _ => rfl, .inl ⟨hb, rfl, rfl, rfl⟩⟩
    · rw [decoderVisit_dLitCopy hb hd hn] at h
      split at h
      · cases h
      · split at h <;> cases h
        exact ⟨rfl, rfl, rfl, rfl, rfl, rfl, rfl, rfl, rfl, rfl, memWrite_wf _ _ _,
          fun a ha => memRead_write_of_ne _ _ (by omega), .inl ⟨hb, rfl, rfl, rfl⟩⟩
  | dEndCheck =>
    rw [decoderVisit_dEndCheck hd] at h
    split at h <;> cases h
    · exact ⟨rfl, rfl, rfl, rfl, rfl, rfl, rfl, rfl, rfl, rfl, id, fun _ _ => rfl,
        .inr ⟨rfl, rfl, .inl ⟨rfl, rfl⟩⟩⟩
    · exact ⟨rfl, rfl, rfl, rfl, rfl, rfl, rfl, rfl, rfl, rfl, id, fun _ _ => rfl, .inl ⟨hb, rfl, rfl, rfl⟩⟩
  | dOffset =>
    rw [decoderVisit_dOffset hb hd] at h
    split at h
    · cases h; exact fin s hb rfl rfl rfl rfl rfl rfl rfl rfl rfl rfl rfl _
    · split at h <;> cases h
      · apply fin <;> first | exact hb | rfl
      · exact ⟨rfl, rfl, rfl, rfl, rfl, rfl, rfl, rfl, rfl, rfl, id, fun _ _ => rfl, .inl ⟨hb, rfl, rfl, rfl⟩⟩
  | dMatchExt =>
    rw [decoderVisit_dMatchExt hb hd] at h
    split at h <;> cases h
    · exact fin s hb rfl rfl rfl rfl rfl rfl rfl rfl rfl rfl rfl _
    · exact ⟨rfl, rfl, rfl, rfl, rfl, rfl, rfl, rfl, rfl, rfl, id, fun _ _ => rfl, .inl ⟨hb, rfl, rfl, rfl⟩⟩
  | dMatchCheck =>
    rw [decoderVisit_dMatchCheck hd] at h
    split at h <;> cases h
    · exact fin s hb rfl rfl rfl rfl rfl rfl rfl rfl rfl rfl rfl _
    · exact ⟨rfl, rfl, rfl, rfl, rfl, rfl, rfl, rfl, rfl, rfl, id, fun _ _ => rfl, .inl ⟨hb, rfl, rfl, rfl⟩⟩
  | dMatchCopy =>
    rw [decoderVisit_dMatchCopy hd] at h
    split at h
    · cases h
      exact ⟨rfl, rfl, rfl, rfl, rfl, rfl, rfl, rfl, rfl, rfl, id, fun _ _ => rfl, .inl ⟨hb, rfl, rfl, rfl⟩⟩
    · split at h <;> cases h
      exact ⟨rfl, rfl, rfl, rfl, rfl, rfl, rfl, rfl, rfl, rfl, memWrite_wf _ _ _,
        fun a ha => memRead_write_of_ne _ _ (by omega), .inl ⟨hb, rfl, rfl, rfl⟩⟩

/-- The rank of a label among those a visit leads to without consuming a byte. -/
def decRank : DState → Nat
  | .dPrecheck => 9
  | .dToken => 0
  | .dLitExt => 7
  | .dLitCheck => 6
  | .dLitCopy => 5
  | .dEndCheck => 4
  | .dOffset => 3
  | .dMatchExt => 3
  | .dMatchCheck => 2
  | .dMatchCopy => 1

/-- What every visit of the decoder lowers (R115). -/
def decMeasure (s : State) : Nat :=
  if s.dec.dstate = .dPrecheck then 8 * s.srcLen + s.dstLen + 9
  else 8 * (s.srcLen - s.dec.sp) + (s.dstLen - s.dec.dp) + decRank s.dec.dstate

theorem word_pos {x : Word} (h : x ≠ 0#32) : 1 ≤ x.toNat := by
  rcases Nat.eq_zero_or_pos x.toNat with h0 | h0
  · exact absurd (BitVec.eq_of_toNat_eq h0) h
  · exact h0

theorem word_pred {x : Word} (h : x ≠ 0#32) : (x - 1#32).toNat = x.toNat - 1 := by
  have := word_pos h
  have hx := x.isLt
  rw [BitVec.toNat_sub]
  simp only [BitVec.toNat_ofNat]
  omega

theorem word_add_byte {x : Word} {b : Byte} (h : x.toNat + 255 < 2 ^ 32) :
    (x + b.setWidth 32).toNat = x.toNat + b.toNat := by
  have := b.isLt
  rw [BitVec.toNat_add, BitVec.toNat_setWidth]
  omega

theorem nibble_word (x : Nibble) : (x.setWidth 32 : Word).toNat = x.toNat := by
  have := x.isLt
  rw [BitVec.toNat_setWidth]
  omega

theorem nibble_word_add_four (x : Nibble) : (x.setWidth 32 + 4#32 : Word).toNat = x.toNat + 4 := by
  have := x.isLt
  rw [BitVec.toNat_add, BitVec.toNat_setWidth]
  simp only [BitVec.toNat_ofNat]
  omega

theorem half_pos {x : Half} (h : x ≠ 0#16) : 1 ≤ x.toNat := by
  rcases Nat.eq_zero_or_pos x.toNat with h0 | h0
  · exact absurd (BitVec.eq_of_toNat_eq h0) h
  · exact h0

/-- A decode that has just been started is running (R25). -/
theorem decodeRunning_begin {s : State} (hb : s.phase = .busy) : DecodeRunning (beginDecode s) :=
  ⟨hb, .inl ⟨rfl, rfl, rfl⟩⟩

theorem DecodeRunning.inv {s : State} (hr : DecodeRunning s) (hp : s.dec.dstate ≠ .dPrecheck) :
    DecoderInv s := hr.2.resolve_left fun h => hp h.1

/-- At every label the cursors are inside their buffers, and a match copy reads below `dp` (R17, R113). -/
theorem DecodeRunning.cursors {s : State} (hr : DecodeRunning s) :
    s.dec.sp ≤ s.srcLen ∧ s.dec.dp ≤ s.dstLen ∧
      (s.dec.dstate = .dMatchCopy → s.dec.fromOff < s.dec.dp) := by
  rcases hr.2 with ⟨hd, hs, hp⟩ | hi
  · exact ⟨by omega, by omega, fun h => by rw [hd] at h; cases h⟩
  · exact ⟨hi.sp, hi.dp, fun h => (hi.matchCopy h).1⟩

/-- From a running decode a visit gives a next state: it ends the command within the
destination, or the invariants hold again and the measure is lower. -/
theorem decoderVisit_progress {s : State} (hr : DecodeRunning s) :
    ∃ t, decoderVisit s = .next t ∧
      (t.phase = .idle ∧ t.value ≤ s.dstLen ∨ (DecodeRunning t ∧ decMeasure t < decMeasure s)) := by
  obtain ⟨hb, hi⟩ := hr
  have mk : ∀ t : State, decoderVisit s = .next t → t.phase = .busy → DecoderInv t →
      decMeasure t < decMeasure s →
      ∃ t, decoderVisit s = .next t ∧
        (t.phase = .idle ∧ t.value ≤ s.dstLen ∨ (DecodeRunning t ∧ decMeasure t < decMeasure s)) :=
    fun t h h1 h2 h3 => ⟨t, h, .inr ⟨⟨h1, .inr h2⟩, h3⟩⟩
  have stop : ∀ (k : ErrorKind) (u : State), decoderVisit s = .next (raise k u) →
      ∃ t, decoderVisit s = .next t ∧
        (t.phase = .idle ∧ t.value ≤ s.dstLen ∨ (DecodeRunning t ∧ decMeasure t < decMeasure s)) :=
    fun k u h => ⟨_, h, .inl ⟨rfl, Nat.zero_le _⟩⟩
  rcases hi with ⟨hd, -, -⟩ | hi
  · have hv := decoderVisit_dPrecheck hd
    split at hv
    · exact stop _ _ hv
    · rename_i hle
      refine mk _ hv hb ?_ ?_
      · constructor <;> simp; omega
      · simp only [decMeasure, hd, decRank, if_true, reduceCtorEq, if_false]
        omega
  · cases hd : s.dec.dstate with
    | dPrecheck => exact absurd hd hi.past
    | dToken =>
      have hv := decoderVisit_dToken hb hd
      split at hv
      · exact stop _ _ hv
      · rename_i hle
        have h15 := (highNibble (decByte s)).isLt
        refine mk _ hv hb ?_ ?_
        · have := hi.srcLimit
          have := hi.dp
          split <;> constructor <;> simp <;> omega
        · simp only [decMeasure, hd, reduceCtorEq, if_false, decRank]
          split <;> simp <;> omega
    | dLitExt =>
      have hv := decoderVisit_dLitExt hb hd
      split at hv
      · exact stop _ _ hv
      · rename_i hle
        have hlim : s.srcLen ≤ 0x00FFFFFF := hi.srcLimit
        have hlit := hi.literalLen (.inl hd)
        have hdp := hi.dp
        have hb8 := (decByte s).isLt
        have hsp := hi.spent (by simp [hd])
        have hw : (s.dec.literalLen + (decByte s).setWidth 32).toNat =
            s.dec.literalLen.toNat + (decByte s).toNat := word_add_byte (by omega)
        refine mk _ hv hb ?_ ?_
        · clear hv
          revert hw
          generalize s.dec.literalLen + (decByte s).setWidth 32 = x
          intro hw
          split <;> constructor <;> simp <;> omega
        · simp only [decMeasure, hd, reduceCtorEq, if_false, decRank]
          split <;> simp <;> omega
    | dLitCheck =>
      have hv := decoderVisit_dLitCheck hd
      split at hv
      · exact stop _ _ hv
      · split at hv
        · exact stop _ _ hv
        · have h1 := hi.srcLimit
          have h2 := hi.sp
          have h3 := hi.dp
          have h4 := hi.spent (by simp [hd])
          refine mk _ hv hb ?_ ?_
          · constructor <;> simp <;> omega
          · simp [decMeasure, hd, decRank]
    | dLitCopy =>
      have h1 := hi.srcLimit
      have h2 := hi.sp
      have h3 := hi.dp
      have h4 := hi.litCopy hd
      have h5 := hi.spent (by simp [hd])
      by_cases hn : s.dec.n = 0#32
      · refine mk _ (decoderVisit_dLitCopy_done hd hn) hb ?_ ?_
        · constructor <;> simp <;> omega
        · simp [decMeasure, hd, decRank]
      · have hp := word_pos hn
        have hv := decoderVisit_dLitCopy hb hd hn
        rw [if_neg (by omega), if_neg (by omega)] at hv
        refine mk _ hv hb ?_ ?_
        · clear hv
          have hw := word_pred hn
          revert hw
          generalize s.dec.n - 1#32 = x
          intro hw
          constructor <;> simp [hd] <;> omega
        · simp [decMeasure, hd, decRank]
          omega
    | dEndCheck =>
      have h1 := hi.srcLimit
      have h2 := hi.sp
      have h3 := hi.dp
      have h5 := hi.spent (by simp [hd])
      have hv := decoderVisit_dEndCheck hd
      split at hv
      · exact ⟨_, hv, .inl ⟨rfl, h3⟩⟩
      · refine mk _ hv hb ?_ ?_
        · constructor <;> simp <;> omega
        · simp [decMeasure, hd, decRank]
    | dOffset =>
      have h1 := hi.srcLimit
      have h2 := hi.sp
      have h3 := hi.dp
      have h5 := hi.spent (by simp [hd])
      have hv := decoderVisit_dOffset hb hd
      split at hv
      · exact stop _ _ hv
      · split at hv
        · exact stop _ _ hv
        · rename_i hle hoff
          have hn := (lowNibble s.dec.token).isLt
          have hp : 1 ≤ (decOffset s).toNat := half_pos (fun h => hoff (.inl h))
          have hq : (decOffset s).toNat ≤ s.dec.dp := by
            have : ¬ s.dec.dp < (decOffset s).toNat := fun h => hoff (.inr h)
            omega
          refine mk _ hv hb ?_ ?_
          · clear hv
            have hw := nibble_word_add_four (lowNibble s.dec.token)
            revert hw
            generalize (lowNibble s.dec.token).setWidth 32 + 4#32 = x
            intro hw
            split <;> constructor <;> simp <;> omega
          · simp only [decMeasure, hd, reduceCtorEq, if_false, decRank]
            split <;> simp <;> omega
    | dMatchExt =>
      have hv := decoderVisit_dMatchExt hb hd
      split at hv
      · exact stop _ _ hv
      · rename_i hle
        have hlim : s.srcLen ≤ 0x00FFFFFF := hi.srcLimit
        have hlit := hi.copyLen (.inl hd)
        have hoff := hi.offset (.inl hd)
        have hdp := hi.dp
        have hb8 := (decByte s).isLt
        have hw : (s.dec.copyLen + (decByte s).setWidth 32).toNat =
            s.dec.copyLen.toNat + (decByte s).toNat := word_add_byte (by omega)
        refine mk _ hv hb ?_ ?_
        · clear hv
          revert hw
          generalize s.dec.copyLen + (decByte s).setWidth 32 = x
          intro hw
          split <;> constructor <;> simp <;> omega
        · simp only [decMeasure, hd, reduceCtorEq, if_false, decRank]
          split <;> simp <;> omega
    | dMatchCheck =>
      have h1 := hi.srcLimit
      have h2 := hi.sp
      have h3 := hi.dp
      have h5 := hi.spent (by simp [hd])
      have hoff := hi.offset (.inr (.inl hd))
      have hv := decoderVisit_dMatchCheck hd
      split at hv
      · exact stop _ _ hv
      · refine mk _ hv hb ?_ ?_
        · constructor <;> simp <;> omega
        · simp [decMeasure, hd, decRank]
    | dMatchCopy =>
      have h1 := hi.srcLimit
      have h2 := hi.sp
      have h3 := hi.dp
      have h5 := hi.spent (by simp [hd])
      have hoff := hi.offset (.inr (.inr hd))
      have hcp := hi.matchCopy hd
      have hv := decoderVisit_dMatchCopy hd
      split at hv
      · refine mk _ hv hb ?_ ?_
        · constructor <;> simp <;> omega
        · simp [decMeasure, hd, decRank]
      · rename_i hn
        have hp := word_pos hn
        rw [if_neg (by omega)] at hv
        refine mk _ hv hb ?_ ?_
        · clear hv
          have hw := word_pred hn
          revert hw
          generalize s.dec.copyLen - 1#32 = x
          intro hw
          constructor <;> simp [hd] <;> omega
        · simp [decMeasure, hd, decRank]
          omega

/-- A decode started on any operands ends (R115, R204). -/
theorem decode_ends (s : State) (hb : s.phase = .busy) :
    ∃ t, runToEnd decoderVisit (decodeFuel s) (beginDecode s) = .next t := by
  refine runToEnd_total (P := DecodeRunning) (μ := decMeasure) (fun s _ hr => by
      obtain ⟨t, ht, h⟩ := decoderVisit_progress hr
      exact ⟨t, ht, h.imp And.left id⟩)
    (decodeRunning_begin hb) ?_
  simp [decMeasure, decodeFuel]

end Sys2Proof.Machine
end

