-- ==== Sys2Proof/Laws/Units.lean ====
section
/-! SUPPORT. What the internal units compute: the little-endian value of a peek, the common prefix, the
backward extension, the extension bytes of a length. -/

namespace Sys2Proof.Machine

open Sys2Proof.Config

/-! ### The word loader (R44, R90) -/

theorem or_shift_toNat (x y : Word) (k : Nat) (hx : x.toNat < 2 ^ k) (hy : y.toNat * 2 ^ k < 2 ^ 32) :
    (x ||| y <<< k).toNat = x.toNat + y.toNat * 2 ^ k := by
  rw [BitVec.toNat_or, BitVec.toNat_shiftLeft, Nat.shiftLeft_eq, Nat.mod_eq_of_lt hy, Nat.or_comm,
    Nat.mul_comm, ← Nat.two_pow_add_eq_or_of_lt hx, Nat.add_comm]

theorem memRead32_toNat (m : Memory) (a : Nat) :
    (memRead32 m a).toNat = (memRead m a).toNat + (memRead m (a + 1)).toNat * 256 +
      (memRead m (a + 2)).toNat * 65536 + (memRead m (a + 3)).toNat * 16777216 := by
  have h0 := (memRead m a).isLt
  have h1 := (memRead m (a + 1)).isLt
  have h2 := (memRead m (a + 2)).isLt
  have h3 := (memRead m (a + 3)).isLt
  have e : ∀ b : Byte, (b.setWidth 32).toNat = b.toNat := fun b => by
    rw [BitVec.toNat_setWidth]; have := b.isLt; omega
  unfold memRead32
  have s1 := or_shift_toNat ((memRead m a).setWidth 32) ((memRead m (a + 1)).setWidth 32) 8
    (by rw [e]; omega) (by rw [e]; omega)
  have s2 := or_shift_toNat ((memRead m a).setWidth 32 ||| (memRead m (a + 1)).setWidth 32 <<< 8)
    ((memRead m (a + 2)).setWidth 32) 16 (by rw [s1, e, e]; omega) (by rw [e]; omega)
  rw [or_shift_toNat _ _ 24 (by rw [s2, s1, e, e, e]; omega) (by rw [e]; omega), s2, s1]
  simp only [e]
  omega

/-! ### The common-prefix scanner (R95, R97) -/

theorem lcpWords_spec (m : Memory) (p q lim : Nat) (fuel k : Nat) :
    k ≤ lcpWords m p q lim fuel k ∧
    (p + k ≤ lim → p + lcpWords m p q lim fuel k ≤ lim) ∧
    ∀ i, k ≤ i → i < lcpWords m p q lim fuel k → memRead m (p + i) = memRead m (q + i) := by
  induction fuel generalizing k with
  | zero => exact ⟨Nat.le_refl _, id, fun i h1 h2 => absurd h2 (by simp only [lcpWords]; omega)⟩
  | succ fuel ih =>
    simp only [lcpWords]
    split
    case isFalse => exact ⟨Nat.le_refl _, id, fun i h1 h2 => by omega⟩
    case isTrue h =>
      obtain ⟨i1, i2, i3⟩ := ih (k + 4)
      refine ⟨by omega, fun _ => i2 (by omega), fun i h1 h2 => ?_⟩
      by_cases hi : k + 4 ≤ i
      · exact i3 i hi h2
      · have := (memRead32_eq_iff m m _ _).1 h.2 (i - k) (by omega)
        rwa [show p + k + (i - k) = p + i by omega, show q + k + (i - k) = q + i by omega] at this

theorem lcpBytes_spec (m : Memory) (p q lim : Nat) (fuel k : Nat) (hk : p + k ≤ lim)
    (hf : lim ≤ p + k + fuel) :
    k ≤ lcpBytes m p q lim fuel k ∧ p + lcpBytes m p q lim fuel k ≤ lim ∧
    (∀ i, k ≤ i → i < lcpBytes m p q lim fuel k → memRead m (p + i) = memRead m (q + i)) ∧
    (p + lcpBytes m p q lim fuel k < lim →
      memRead m (p + lcpBytes m p q lim fuel k) ≠ memRead m (q + lcpBytes m p q lim fuel k)) := by
  induction fuel generalizing k with
  | zero =>
    simp only [lcpBytes]
    exact ⟨Nat.le_refl _, hk, fun i h1 h2 => by omega, fun h => by omega⟩
  | succ fuel ih =>
    simp only [lcpBytes]
    split
    case isFalse h =>
      refine ⟨Nat.le_refl _, hk, fun i h1 h2 => by omega, fun h1 h2 => h ⟨h1, h2⟩⟩
    case isTrue h =>
      obtain ⟨i1, i2, i3, i4⟩ := ih (k + 1) (by omega) (by omega)
      refine ⟨by omega, i2, fun i h1 h2 => ?_, i4⟩
      by_cases hi : i = k
      · subst hi; exact h.2
      · exact i3 i (by omega) h2

/-- The count stays within the limit. -/
theorem lcpCount_le (m : Memory) {p lim : Nat} (q : Nat) (h : p ≤ lim) :
    p + lcpCount m p q lim ≤ lim := by
  obtain ⟨-, w2, -⟩ := lcpWords_spec m p q lim (lim - p) 0
  exact (lcpBytes_spec m p q lim (lim - p) _ (w2 (by omega)) (by omega)).2.1

/-- The bytes before the count agree. -/
theorem lcpCount_agree (m : Memory) {p lim : Nat} (q : Nat) (h : p ≤ lim) {i : Nat}
    (hi : i < lcpCount m p q lim) : memRead m (p + i) = memRead m (q + i) := by
  obtain ⟨-, w2, w3⟩ := lcpWords_spec m p q lim (lim - p) 0
  obtain ⟨-, -, b3, -⟩ := lcpBytes_spec m p q lim (lim - p) _ (w2 (by omega)) (by omega)
  by_cases hw : i < lcpWords m p q lim (lim - p) 0
  · exact w3 i (by omega) hw
  · exact b3 i (by omega) hi

/-- Below the limit, the byte at the count differs: the count is the largest (R95). -/
theorem lcpCount_stops (m : Memory) {p lim : Nat} (q : Nat) (h : p ≤ lim)
    (hk : p + lcpCount m p q lim < lim) :
    memRead m (p + lcpCount m p q lim) ≠ memRead m (q + lcpCount m p q lim) := by
  obtain ⟨-, w2, -⟩ := lcpWords_spec m p q lim (lim - p) 0
  exact (lcpBytes_spec m p q lim (lim - p) _ (w2 (by omega)) (by omega)).2.2.2 hk

/-- Whatever agrees up to the limit is counted. -/
theorem le_lcpCount (m : Memory) {p lim : Nat} (q : Nat) {j : Nat} (h : p + j ≤ lim)
    (ha : ∀ i < j, memRead m (p + i) = memRead m (q + i)) : j ≤ lcpCount m p q lim := by
  by_contra hc
  exact lcpCount_stops m (p := p) (lim := lim) q (by omega) (by omega) (ha _ (by omega))

/-- The count depends on the bytes only. -/
theorem lcpCount_congr {m m' : Memory} {p q p' q' n : Nat}
    (hp : ∀ i < n, memRead m (p + i) = memRead m' (p' + i))
    (hq : ∀ i < n, memRead m (q + i) = memRead m' (q' + i)) :
    lcpCount m p q (p + n) = lcpCount m' p' q' (p' + n) := by
  have a := lcpCount_le m q (Nat.le_add_right p n)
  have b := lcpCount_le m' q' (Nat.le_add_right p' n)
  apply Nat.le_antisymm
  · refine le_lcpCount m' q' (by omega) fun i hi => ?_
    rw [← hp i (by omega), ← hq i (by omega)]
    exact lcpCount_agree m q (by omega) hi
  · refine le_lcpCount m q (by omega) fun i hi => ?_
    rw [hp i (by omega), hq i (by omega)]
    exact lcpCount_agree m' q' (by omega) hi

/-- The count is the only `k` of the definition (R95). -/
theorem lcpCount_eq {m : Memory} {p q n k : Nat} (hk : k ≤ n)
    (ha : ∀ i < k, memRead m (p + i) = memRead m (q + i))
    (hs : k < n → memRead m (p + k) ≠ memRead m (q + k)) : lcpCount m p q (p + n) = k := by
  have a := le_lcpCount m (p := p) (lim := p + n) q (by omega) ha
  have b := lcpCount_le m (p := p) (lim := p + n) q (by omega)
  by_contra hne
  exact hs (by omega) (lcpCount_agree m (lim := p + n) q (by omega) (by omega))

/-! ### The host form of `LCP` (R72, R96) -/

/-- The host's scan stays inside both ranges (R43). -/
theorem lcpHostCount_le (s : State) : lcpHostCount s ≤ s.srcLen ∧ lcpHostCount s ≤ s.dstLen := by
  have := lcpCount_le s.mem (p := s.srcPtr) (lim := s.srcPtr + min s.srcLen s.dstLen) s.dstPtr (by omega)
  unfold lcpHostCount
  omega

/-- The host's scan gives the `k` of the definition, whenever the bytes it needs are available (R95, R96). -/
theorem lcpHostCount_eq {s : State} {k : Nat} (hk : k ≤ s.srcLen)
    (ha : ∀ i < k, memRead s.mem (s.srcPtr + i) = memRead s.mem (s.dstPtr + i))
    (hs : k < s.srcLen → memRead s.mem (s.srcPtr + k) ≠ memRead s.mem (s.dstPtr + k))
    (hroom : min (k + 1) s.srcLen ≤ s.dstLen) : lcpHostCount s = k ∧ ¬ lcpOutruns s := by
  have he : lcpHostCount s = k := lcpCount_eq (by omega) ha fun h => hs (by omega)
  exact ⟨he, fun h => by have := h.1; have := h.2; omega⟩

theorem lcpRefusal_none {s : State} (h : lcpRefusal s = none) : ¬ lcpOutruns s := by
  unfold lcpRefusal at h
  repeat' split at h
  all_goals first | assumption | cases h

/-! ### The backward extension (R138) -/

theorem backwardCount_spec (m : Memory) (src ls : Nat) (off sp : Nat) :
    backwardCount m src ls off sp ≤ off ∧
    (ls ≤ sp → ls + backwardCount m src ls off sp ≤ sp) ∧
    (∀ i < backwardCount m src ls off sp,
      memRead m (src + (sp - 1 - i)) = memRead m (src + (off - 1 - i))) := by
  induction off generalizing sp with
  | zero => exact ⟨Nat.le_refl _, fun h => h, fun i h => absurd h (by simp [backwardCount])⟩
  | succ off ih =>
    simp only [backwardCount]
    split
    case isFalse => exact ⟨Nat.zero_le _, fun h => h, fun i h => absurd h (by omega)⟩
    case isTrue h =>
      obtain ⟨i1, i2, i3⟩ := ih (sp - 1)
      refine ⟨by omega, fun _ => ?_, fun i hi => ?_⟩
      · have := i2 (by omega); omega
      · cases i with
        | zero => simpa using h.2
        | succ i =>
          have := i3 i (by omega)
          rwa [show sp - 1 - 1 - i = sp - 1 - (i + 1) by omega,
            show off - 1 - i = off + 1 - 1 - (i + 1) by omega] at this

/-- The extension stops only where it must. -/
theorem backwardCount_stops (m : Memory) (src ls : Nat) (off sp : Nat) (h : ls ≤ sp) :
    backwardCount m src ls off sp = off ∨ ls + backwardCount m src ls off sp = sp ∨
    memRead m (src + (sp - 1 - backwardCount m src ls off sp)) ≠
      memRead m (src + (off - 1 - backwardCount m src ls off sp)) := by
  induction off generalizing sp with
  | zero => exact .inl rfl
  | succ off ih =>
    simp only [backwardCount]
    split
    case isFalse hn =>
      by_cases hl : ls < sp
      · exact .inr (.inr fun h => hn ⟨hl, by simpa using h⟩)
      · exact .inr (.inl (by omega))
    case isTrue hy =>
      rcases ih (sp - 1) (by omega) with h1 | h1 | h1
      · exact .inl (by omega)
      · exact .inr (.inl (by omega))
      · refine .inr (.inr ?_)
        rwa [show sp - 1 - (backwardCount m src ls off (sp - 1) + 1) =
            sp - 1 - 1 - backwardCount m src ls off (sp - 1) by omega,
          show off + 1 - 1 - (backwardCount m src ls off (sp - 1) + 1) =
            off - 1 - backwardCount m src ls off (sp - 1) by omega]

/-- The extension depends on the bytes only. -/
theorem backwardCount_congr {m m' : Memory} {src src' ls n : Nat} (off sp : Nat)
    (h : ∀ i < n, memRead m (src + i) = memRead m' (src' + i)) (ho : off ≤ n) (hs : sp ≤ n) :
    backwardCount m src ls off sp = backwardCount m' src' ls off sp := by
  induction off generalizing sp with
  | zero => rfl
  | succ off ih =>
    simp only [backwardCount, ih (sp - 1) (by omega) (by omega)]
    by_cases hl : ls < sp
    · rw [h (sp - 1) (by omega), h off (by omega)]
    · simp [hl]

/-! ### Lengths and tokens (R61 to R67, R139, R140) -/

@[simp] theorem extBytes_length (n : Nat) : (extBytes n).length = n / 255 + 1 := by
  simp [extBytes]

theorem lengthBytes_length (n : Nat) :
    (lengthBytes n).length = if n < 15 then 0 else (n - 15) / 255 + 1 := by
  unfold lengthBytes
  split <;> simp

/-- The extension bytes of a length are at most the length divided by 255, and one (R150 item 3). -/
theorem lengthBytes_length_le (n : Nat) : (lengthBytes n).length ≤ n / 255 + 1 := by
  rw [lengthBytes_length]
  split
  · omega
  · have := Nat.div_le_div_right (c := 255) (show n - 15 ≤ n by omega)
    omega

/-- The extension bytes of a length are never more than the length. -/
theorem lengthBytes_length_le_self (n : Nat) : (lengthBytes n).length ≤ n := by
  rw [lengthBytes_length]
  split
  · omega
  · have := Nat.div_le_self (n - 15) 255
    omega

theorem worstCaseSize_mono {a b : Nat} (h : a ≤ b) : worstCaseSize a ≤ worstCaseSize b := by
  have := Nat.div_le_div_right (c := 255) h
  unfold worstCaseSize wcDiv wcAdd
  omega

/-! ### The hash -/

/-- The hash's bits of a product, as arithmetic on naturals (R133). -/
theorem productBits_toNat (x c : Word) :
    (((x * c) >>> 20).setWidth 12 : BitVec 12).toNat = x.toNat * c.toNat % 2 ^ 32 / 2 ^ 20 % 4096 := by
  rw [BitVec.toNat_setWidth, BitVec.toNat_ushiftRight, BitVec.toNat_mul, Nat.shiftRight_eq_div_pow]

/-- Bits 31 to 20 of a number are the same before and after it is cut to 32 bits. -/
theorem topBits_of_cut (y : Nat) :
    y % 2 ^ 32 / 2 ^ 20 % 4096 = y % 2 ^ 32 / 2 ^ 20 ∧
      y % 2 ^ 32 / 2 ^ 20 % 4096 = y / 2 ^ 20 % 4096 := by
  omega

end Sys2Proof.Machine
end

