-- ==== Sys2Proof/Laws/Format.lean ====
section
/-! SUPPORT. The small laws of the block format: lengths, appending a sequence, the match as a periodic
extension, the token's nibbles. -/

namespace Sys2Proof.Machine

@[simp] theorem offsetBytes_length (off : Nat) : (offsetBytes off).length = 2 := rfl

theorem highNibble_tokenByte (a b : Nat) : (highNibble (tokenByte a b)).toNat = min a 15 := by
  rw [tokenByte, highNibble_append, BitVec.toNat_ofNat]
  omega

theorem lowNibble_tokenByte (a b : Nat) : (lowNibble (tokenByte a b)).toNat = min b 15 := by
  rw [tokenByte, lowNibble_append, BitVec.toNat_ofNat]
  omega

theorem copyMatch_length (out : List Byte) (off n : Nat) :
    (copyMatch out off n).length = out.length + n := by
  induction n generalizing out with
  | zero => rfl
  | succ n ih => rw [copyMatch, ih]; simp; omega

/-- One more byte of a match at its end. -/
theorem copyMatch_succ (out : List Byte) (off n : Nat) :
    copyMatch out off (n + 1) =
      copyMatch out off n ++ [(copyMatch out off n).getD ((copyMatch out off n).length - off) 0#8] := by
  induction n generalizing out with
  | zero => rfl
  | succ n ih => rw [copyMatch, ih, copyMatch]

/-- A match in two parts. -/
theorem copyMatch_add (out : List Byte) (off n k : Nat) :
    copyMatch out off (n + k) = copyMatch (copyMatch out off n) off k := by
  induction n generalizing out with
  | zero => simp [copyMatch]
  | succ n ih => rw [show n + 1 + k = (n + k) + 1 by omega, copyMatch, ih, copyMatch]

/-- A match leaves what was there. -/
theorem copyMatch_getElem?_old (out : List Byte) (off n i : Nat) (h : i < out.length) :
    (copyMatch out off n)[i]? = out[i]? := by
  induction n generalizing out with
  | zero => rfl
  | succ n ih => rw [copyMatch, ih _ (by simp; omega), List.getElem?_append_left h]

theorem expandSeqs_concat (qs : List LzSeq) (q : LzSeq) :
    expandSeqs (qs ++ [q]) = q.apply (expandSeqs qs) := by
  simp [expandSeqs]

theorem LzSeq.apply_length (out : List Byte) (q : LzSeq) :
    (q.apply out).length = out.length + q.lits.length + q.len := by
  simp [LzSeq.apply, copyMatch_length]

/-- The number of bytes a list of sequences decodes to. -/
def producedBy : List LzSeq → Nat
  | [] => 0
  | q :: rest => q.lits.length + q.len + producedBy rest

theorem foldl_apply_length (qs : List LzSeq) (out : List Byte) :
    (qs.foldl LzSeq.apply out).length = out.length + producedBy qs := by
  induction qs generalizing out with
  | nil => rfl
  | cons q rest ih => rw [List.foldl_cons, ih, LzSeq.apply_length, producedBy]; omega

theorem expandSeqs_length (qs : List LzSeq) : (expandSeqs qs).length = producedBy qs := by
  simp [expandSeqs, foldl_apply_length]

theorem producedBy_append (a b : List LzSeq) : producedBy (a ++ b) = producedBy a + producedBy b := by
  induction a with
  | nil => simp [producedBy]
  | cons q rest ih => simp [producedBy, ih]; omega

theorem seqsValid_append (n : Nat) (a b : List LzSeq) :
    seqsValid n (a ++ b) = (seqsValid n a && seqsValid (n + producedBy a) b) := by
  induction a generalizing n with
  | nil => simp [seqsValid, producedBy]
  | cons q rest ih =>
    simp only [List.cons_append, seqsValid, ih, producedBy, Bool.and_assoc]
    rw [show n + q.lits.length + q.len + producedBy rest = n + (q.lits.length + q.len + producedBy rest)
      by omega]

theorem seqsValid_concat (qs : List LzSeq) (q : LzSeq) :
    seqsValid 0 (qs ++ [q]) = true ↔ seqsValid 0 qs = true ∧ 4 ≤ q.len ∧ 1 ≤ q.off ∧ q.off ≤ 65535 ∧
      q.off ≤ producedBy qs + q.lits.length := by
  rw [seqsValid_append]
  simp [seqsValid]
  tauto

theorem matchStarts_append (n : Nat) (a b : List LzSeq) :
    matchStarts n (a ++ b) = matchStarts n a ++ matchStarts (n + producedBy a) b := by
  induction a generalizing n with
  | nil => simp [matchStarts, producedBy]
  | cons q rest ih =>
    simp only [List.cons_append, matchStarts, ih, producedBy]
    rw [show n + q.lits.length + q.len + producedBy rest = n + (q.lits.length + q.len + producedBy rest)
      by omega]

/-- A match over bytes that agree with those `off` before them reproduces them (R110, R141). -/
theorem copyMatch_of_agrees (src : List Byte) (sp off n : Nat) (h1 : 1 ≤ off) (h2 : off ≤ sp)
    (h3 : sp + n ≤ src.length) (ha : ∀ x < n, src[sp + x]? = src[sp - off + x]?) :
    copyMatch (src.take sp) off n = src.take (sp + n) := by
  induction n with
  | zero => rfl
  | succ n ih =>
    rw [copyMatch_succ, ih (by omega) (fun x hx => ha x (by omega))]
    have hl : (src.take (sp + n)).length = sp + n := by rw [List.length_take]; omega
    rw [hl, ← Nat.add_assoc, List.take_add_one, ha n (by omega), List.getD_eq_getElem?_getD,
      List.getElem?_take, if_pos (by omega), show sp + n - off = sp - off + n by omega]
    rw [List.getElem?_eq_getElem (by omega)]
    rfl

theorem lengthBytes_ext (k r : Nat) (h : r < 255) :
    List.replicate k 0xFF#8 ++ [BitVec.ofNat 8 r] = lengthBytes (15 + 255 * k + r) := by
  rw [lengthBytes, if_neg (by omega), extBytes, show 15 + 255 * k + r - 15 = 255 * k + r by omega,
    show (255 * k + r) / 255 = k by omega, show (255 * k + r) % 255 = r by omega]

end Sys2Proof.Machine
end

