-- ==== Sys2Proof/Laws/DecoderRun.lean ====
section
/-! SUPPORT. What the decoder's loops and a whole sequence do (42_decoder.md R104, R105, R108, R110): the
visits lead to an explicit state. -/

namespace Sys2Proof.Machine

open Sys2Proof.Config

/-! ### What visits leave unchanged -/

/-- What visits of a decode leave unchanged. -/
structure DecStable (s t : State) : Prop where
  params : t.params = s.params
  op : t.op = s.op
  dstPtr : t.dstPtr = s.dstPtr
  dstLen : t.dstLen = s.dstLen
  srcPtr : t.srcPtr = s.srcPtr
  srcLen : t.srcLen = s.srcLen
  enc : t.enc = s.enc
  ht : t.ht = s.ht
  peek : t.peek = s.peek
  lcp : t.lcp = s.lcp
  wf : s.mem.wf → t.mem.wf
  mem : ∀ a, a < s.dstPtr ∨ s.dstPtr + s.dstLen ≤ a → memRead t.mem a = memRead s.mem a

theorem DecStable.refl (s : State) : DecStable s s :=
  ⟨rfl, rfl, rfl, rfl, rfl, rfl, rfl, rfl, rfl, rfl, id, fun _ _ => rfl⟩

theorem DecFrame.stable {s t : State} (h : DecFrame s t) : DecStable s t :=
  ⟨h.params, h.op, h.dstPtr, h.dstLen, h.srcPtr, h.srcLen, h.enc, h.ht, h.peek, h.lcp, h.wf, h.mem⟩

theorem DecStable.trans {s u t : State} (h1 : DecStable s u) (h2 : DecStable u t) : DecStable s t :=
  ⟨h2.params.trans h1.params, h2.op.trans h1.op, h2.dstPtr.trans h1.dstPtr, h2.dstLen.trans h1.dstLen,
    h2.srcPtr.trans h1.srcPtr, h2.srcLen.trans h1.srcLen, h2.enc.trans h1.enc, h2.ht.trans h1.ht,
    h2.peek.trans h1.peek, h2.lcp.trans h1.lcp, fun h => h2.wf (h1.wf h), fun a ha => by
      rw [h2.mem a (by rw [h1.dstPtr, h1.dstLen]; exact ha), h1.mem a ha]⟩

theorem Runs.decStable {s t : State} (h : Runs decoderVisit s t) : DecStable s t := by
  induction h with
  | refl s => exact .refl s
  | head hb hv _ ih => exact (decoderVisit_frame hb hv).stable.trans ih

/-- Two disjoint ranges: a byte of the first is outside the second (R52). -/
theorem disjointRanges_outside {p lp q lq : Nat} (h : disjointRanges p lp q lq = true) {i : Nat}
    (hi : i < lp) : p + i < q ∨ q + lq ≤ p + i := by
  simp only [disjointRanges, Bool.or_eq_true, beq_iff_eq, decide_eq_true_eq] at h
  omega

theorem DecStable.sourceBytes_eq {s t : State} (h : DecStable s t)
    (hd : disjointRanges s.srcPtr s.srcLen s.dstPtr s.dstLen = true) :
    sourceBytes t = sourceBytes s := by
  rw [sourceBytes, h.srcPtr, h.srcLen, sourceBytes]
  exact bytesFrom_congr fun i hi => h.mem _ (disjointRanges_outside hd hi)

@[simp] theorem sourceBytes_length (s : State) : (sourceBytes s).length = s.srcLen := by
  simp [sourceBytes]

/-! ### The front of the remaining source -/

theorem drop_append_of_drop {α : Type} {l xs r : List α} {i : Nat} (h : l.drop i = xs ++ r) :
    l.drop (i + xs.length) = r := by
  rw [← List.drop_drop, h, List.drop_left]

theorem drop_cons_of_drop {α : Type} {l r : List α} {x : α} {i : Nat} (h : l.drop i = x :: r) :
    l.drop (i + 1) = r := drop_append_of_drop (xs := [x]) h

/-- The next source byte, from the remaining source. -/
theorem decByte_of_drop {s : State} {x : Byte} {r : List Byte}
    (h : (sourceBytes s).drop s.dec.sp = x :: r) : s.dec.sp < s.srcLen ∧ decByte s = x := by
  have hl : s.dec.sp < (sourceBytes s).length := by
    by_contra hc
    rw [List.drop_eq_nil_of_le (by omega)] at h
    simp at h
  rw [sourceBytes_length] at hl
  refine ⟨hl, ?_⟩
  have h0 : (sourceBytes s)[s.dec.sp]? = some x := by
    have := congrArg (fun l => l[0]?) h
    simpa using this
  rw [sourceBytes, bytesFrom_getElem? _ _ _ _ hl] at h0
  exact Option.some.inj h0

/-- Writing the byte at `dp` of a disjoint destination leaves the source. -/
theorem sourceBytes_of_dstWrite {s t : State} (hp : t.srcPtr = s.srcPtr) (hl : t.srcLen = s.srcLen)
    {b : Byte} {j : Nat} (hj : j < s.dstLen) (hm : t.mem = memWrite s.mem (s.dstPtr + j) b)
    (hd : disjointRanges s.srcPtr s.srcLen s.dstPtr s.dstLen = true) :
    sourceBytes t = sourceBytes s := by
  rw [sourceBytes, hp, hl, hm, sourceBytes]
  refine bytesFrom_congr fun i hi => memRead_write_of_ne _ _ ?_
  have := disjointRanges_outside hd hi
  omega

/-! ### The loops -/

/-- The literal-length run of `k` bytes of 255 and a byte `r` below it (R63, R104). -/
theorem runs_litExt (k r : Nat) (hr : r < 255) {s : State} {rest : List Byte}
    (hb : s.phase = .busy) (hd : s.dec.dstate = .dLitExt)
    (hs : (sourceBytes s).drop s.dec.sp = List.replicate k 0xFF#8 ++ BitVec.ofNat 8 r :: rest) :
    Runs decoderVisit s { s with dec := { s.dec with
      sp := s.dec.sp + (k + 1)
      literalLen := s.dec.literalLen + BitVec.ofNat 32 (255 * k + r)
      dstate := .dLitCheck } } := by
  have hrb : BitVec.ofNat 8 r ≠ 255#8 := by
    intro h
    have := congrArg BitVec.toNat h
    simp only [BitVec.toNat_ofNat] at this
    omega
  induction k generalizing s with
  | zero =>
    obtain ⟨hlt, hx⟩ := decByte_of_drop hs
    have hv := decoderVisit_dLitExt hb hd
    rw [if_neg (by omega), hx, if_neg hrb] at hv
    refine .one hb (hv.trans ?_)
    congr 4
    rw [BitVec.setWidth_ofNat_of_le_of_lt (by omega) (by omega)]
    simp
  | succ k ih =>
    rw [List.replicate_succ, List.cons_append] at hs
    obtain ⟨hlt, hx⟩ := decByte_of_drop hs
    have hv := decoderVisit_dLitExt hb hd
    rw [if_neg (by omega), hx, if_pos rfl] at hv
    refine .head hb hv ?_
    have := @ih { s with dec := { s.dec with
      sp := s.dec.sp + 1
      literalLen := s.dec.literalLen + (0xFF#8).setWidth 32
      dstate := .dLitExt } } hb rfl (drop_cons_of_drop hs)
    have e1 : s.dec.sp + 1 + (k + 1) = s.dec.sp + (k + 1 + 1) := by omega
    have e2 : s.dec.literalLen + (0xFF#8).setWidth 32 + BitVec.ofNat 32 (255 * k + r) =
        s.dec.literalLen + BitVec.ofNat 32 (255 * (k + 1) + r) := by
      rw [BitVec.add_assoc]
      congr 1
      apply BitVec.eq_of_toNat_eq
      simp only [BitVec.toNat_add, BitVec.toNat_ofNat, BitVec.toNat_setWidth]
      omega
    simp only [e1, e2] at this
    exact this

/-- The match-length run (R63, R108). -/
theorem runs_matchExt (k r : Nat) (hr : r < 255) {s : State} {rest : List Byte}
    (hb : s.phase = .busy) (hd : s.dec.dstate = .dMatchExt)
    (hs : (sourceBytes s).drop s.dec.sp = List.replicate k 0xFF#8 ++ BitVec.ofNat 8 r :: rest) :
    Runs decoderVisit s { s with dec := { s.dec with
      sp := s.dec.sp + (k + 1)
      copyLen := s.dec.copyLen + BitVec.ofNat 32 (255 * k + r)
      dstate := .dMatchCheck } } := by
  have hrb : BitVec.ofNat 8 r ≠ 255#8 := by
    intro h
    have := congrArg BitVec.toNat h
    simp only [BitVec.toNat_ofNat] at this
    omega
  induction k generalizing s with
  | zero =>
    obtain ⟨hlt, hx⟩ := decByte_of_drop hs
    have hv := decoderVisit_dMatchExt hb hd
    rw [if_neg (by omega), hx, if_neg hrb] at hv
    refine .one hb (hv.trans ?_)
    congr 4
    rw [BitVec.setWidth_ofNat_of_le_of_lt (by omega) (by omega)]
    simp
  | succ k ih =>
    rw [List.replicate_succ, List.cons_append] at hs
    obtain ⟨hlt, hx⟩ := decByte_of_drop hs
    have hv := decoderVisit_dMatchExt hb hd
    rw [if_neg (by omega), hx, if_pos rfl] at hv
    refine .head hb hv ?_
    have := @ih { s with dec := { s.dec with
      sp := s.dec.sp + 1
      copyLen := s.dec.copyLen + (0xFF#8).setWidth 32
      dstate := .dMatchExt } } hb rfl (drop_cons_of_drop hs)
    have e1 : s.dec.sp + 1 + (k + 1) = s.dec.sp + (k + 1 + 1) := by omega
    have e2 : s.dec.copyLen + (0xFF#8).setWidth 32 + BitVec.ofNat 32 (255 * k + r) =
        s.dec.copyLen + BitVec.ofNat 32 (255 * (k + 1) + r) := by
      rw [BitVec.add_assoc]
      congr 1
      apply BitVec.eq_of_toNat_eq
      simp only [BitVec.toNat_add, BitVec.toNat_ofNat, BitVec.toNat_setWidth]
      omega
    simp only [e1, e2] at this
    exact this

/-- The literal copy (R105): the `n` bytes at `sp` are written at `dp`. -/
theorem runs_litCopy (lits : List Byte) {s : State} {rest : List Byte}
    (hb : s.phase = .busy) (hd : s.dec.dstate = .dLitCopy)
    (hdis : disjointRanges s.srcPtr s.srcLen s.dstPtr s.dstLen = true)
    (hn : s.dec.n.toNat = lits.length) (hroom : s.dec.dp + lits.length ≤ s.dstLen)
    (hs : (sourceBytes s).drop s.dec.sp = lits ++ rest) :
    Runs decoderVisit s { s with
      mem := writeBytes s.mem (s.dstPtr + s.dec.dp) lits
      dec := { s.dec with
        sp := s.dec.sp + lits.length
        dp := s.dec.dp + lits.length
        n := 0#32
        dstate := .dEndCheck } } := by
  induction lits generalizing s with
  | nil =>
    have h0 : s.dec.n = 0#32 := BitVec.eq_of_toNat_eq hn
    have hv := decoderVisit_dLitCopy_done hd h0
    rw [← h0]
    exact .one hb hv
  | cons b lits ih =>
    have h0 : s.dec.n ≠ 0#32 := by intro h; rw [h] at hn; simp at hn
    simp only [List.length_cons] at hn hroom ⊢
    obtain ⟨hlt, hx⟩ := decByte_of_drop (r := lits ++ rest) hs
    have hv := decoderVisit_dLitCopy hb hd h0
    rw [if_neg (by omega), if_neg (by omega), hx] at hv
    refine .head hb hv ?_
    have hsrc := sourceBytes_of_dstWrite (s := s) (t := { s with
      mem := memWrite s.mem (s.dstPtr + s.dec.dp) b
      dec := { s.dec with sp := s.dec.sp + 1, dp := s.dec.dp + 1, n := s.dec.n - 1#32 } })
      rfl rfl (j := s.dec.dp) (by omega) rfl hdis
    have := @ih { s with
      mem := memWrite s.mem (s.dstPtr + s.dec.dp) b
      dec := { s.dec with sp := s.dec.sp + 1, dp := s.dec.dp + 1, n := s.dec.n - 1#32 } }
      hb hd hdis (by simp only [word_pred h0]; omega) (by simp only; omega)
      (by rw [hsrc]; exact drop_cons_of_drop hs)
    have e1 : s.dec.sp + 1 + lits.length = s.dec.sp + (lits.length + 1) := by omega
    have e2 : s.dec.dp + 1 + lits.length = s.dec.dp + (lits.length + 1) := by omega
    simp only [e1, e2] at this
    exact this

/-- The bytes a match appends. -/
def matchBytes (out : List Byte) (off : Nat) : Nat → List Byte
  | 0 => []
  | n + 1 =>
    out.getD (out.length - off) 0#8 :: matchBytes (out ++ [out.getD (out.length - off) 0#8]) off n

theorem copyMatch_eq (out : List Byte) (off n : Nat) :
    copyMatch out off n = out ++ matchBytes out off n := by
  induction n generalizing out with
  | zero => simp [copyMatch, matchBytes]
  | succ n ih => rw [copyMatch, ih, matchBytes, List.append_assoc]; rfl

@[simp] theorem matchBytes_length (out : List Byte) (off n : Nat) : (matchBytes out off n).length = n := by
  induction n generalizing out with
  | zero => rfl
  | succ n ih => simp [matchBytes, ih]

/-- The match copy (R110): byte by byte, each read before it is written. -/
theorem runs_matchCopy (n : Nat) {s : State}
    (hb : s.phase = .busy) (hd : s.dec.dstate = .dMatchCopy) (hw : s.mem.wf)
    (hn : s.dec.copyLen.toNat = n) (off : Nat) (hoff : 1 ≤ off)
    (hfrom : s.dec.fromOff + off = s.dec.dp) (hroom : s.dec.dp + n ≤ s.dstLen) :
    Runs decoderVisit s { s with
      mem := writeBytes s.mem (s.dstPtr + s.dec.dp) (matchBytes (destinationBytes s s.dec.dp) off n)
      dec := { s.dec with
        dp := s.dec.dp + n
        fromOff := s.dec.fromOff + n
        copyLen := 0#32
        dstate := .dToken } } := by
  induction n generalizing s with
  | zero =>
    have h0 : s.dec.copyLen = 0#32 := BitVec.eq_of_toNat_eq hn
    have hv := decoderVisit_dMatchCopy hd
    rw [if_pos h0] at hv
    rw [← h0]
    exact .one hb hv
  | succ n ih =>
    have h0 : s.dec.copyLen ≠ 0#32 := by intro h; rw [h] at hn; simp at hn
    have hv := decoderVisit_dMatchCopy hd
    rw [if_neg h0, if_neg (by omega)] at hv
    refine .head hb hv ?_
    have hbyte : (destinationBytes s s.dec.dp).getD ((destinationBytes s s.dec.dp).length - off) 0#8 =
        memRead s.mem (s.dstPtr + s.dec.fromOff) := by
      rw [destinationBytes, bytesFrom_length, List.getD_eq_getElem?_getD,
        bytesFrom_getElem? _ _ _ _ (by omega), Option.getD_some]
      congr 2
      omega
    have := @ih { s with
      mem := memWrite s.mem (s.dstPtr + s.dec.dp) (memRead s.mem (s.dstPtr + s.dec.fromOff))
      dec := { s.dec with
        fromOff := s.dec.fromOff + 1, dp := s.dec.dp + 1, copyLen := s.dec.copyLen - 1#32 } }
      hb hd (memWrite_wf _ _ _ hw) (by simp only [word_pred h0]; omega) (by simp only; omega)
      (by simp only; omega)
    have e1 : s.dec.dp + 1 + n = s.dec.dp + (n + 1) := by omega
    have e2 : s.dec.fromOff + 1 + n = s.dec.fromOff + (n + 1) := by omega
    simp only [destinationBytes, bytesFrom_memWrite_extend _ _ _ _ hw, e1, e2] at this
    rw [matchBytes, hbyte]
    exact this

end Sys2Proof.Machine
end

