-- ==== Sys2Proof/Laws/DecoderBlock.lean ====
section
/-! SUPPORT. A whole sequence, and a whole legal block, through the decoder: the visits lead to the end with
`ok` and the block's decoded bytes (30_encoding.md R60 to R67, 42_decoder.md R112). -/

namespace Sys2Proof.Machine

open Sys2Proof.Config

theorem word_ofNat_toNat {n : Nat} (h : n < 2 ^ 32) : (BitVec.ofNat 32 n).toNat = n := by
  rw [BitVec.toNat_ofNat, Nat.mod_eq_of_lt h]

/-- The literals part: token, run and literals, from `D_TOKEN` to `D_ENDCHECK` (R103 to R105). -/
theorem runs_literals {s : State} {tok : Byte} {lits rest : List Byte}
    (hb : s.phase = .busy) (hd : s.dec.dstate = .dToken)
    (hdis : disjointRanges s.srcPtr s.srcLen s.dstPtr s.dstLen = true)
    (hlim : s.srcLen ≤ decMaxSrcLen) (hdp : s.dec.dp + lits.length ≤ s.dstLen)
    (htok : (highNibble tok).toNat = min lits.length 15)
    (hs : (sourceBytes s).drop s.dec.sp = tok :: (lengthBytes lits.length ++ (lits ++ rest))) :
    Runs decoderVisit s { s with
      mem := writeBytes s.mem (s.dstPtr + s.dec.dp) lits
      dec := { s.dec with
        sp := s.dec.sp + (1 + (lengthBytes lits.length).length + lits.length)
        dp := s.dec.dp + lits.length
        token := tok
        literalLen := BitVec.ofNat 32 lits.length
        n := 0#32
        dstate := .dEndCheck } } := by
  obtain ⟨hlt, hx⟩ := decByte_of_drop hs
  have hlim' : s.srcLen ≤ 0x00FFFFFF := hlim
  have hL : s.dec.sp + (1 + (lengthBytes lits.length).length + lits.length) ≤ s.srcLen := by
    have := congrArg List.length hs
    simp only [List.length_drop, sourceBytes_length, List.length_cons, List.length_append] at this
    omega
  have hw := word_ofNat_toNat (n := lits.length) (by omega)
  have hv := decoderVisit_dToken hb hd
  rw [if_neg (by omega), hx] at hv
  -- up to the literal check
  have toCheck : Runs decoderVisit s { s with dec := { s.dec with
      sp := s.dec.sp + (1 + (lengthBytes lits.length).length)
      token := tok
      literalLen := BitVec.ofNat 32 lits.length
      dstate := .dLitCheck } } := by
    by_cases h15 : lits.length < 15
    · have hh : highNibble tok ≠ 15#4 := by
        intro h; rw [h] at htok; simp at htok; omega
      rw [if_neg hh] at hv
      refine .one hb (hv.trans ?_)
      have e1 : (lengthBytes lits.length).length = 0 := by rw [lengthBytes_length, if_pos h15]
      have e2 : ((highNibble tok).setWidth 32 : Word) = BitVec.ofNat 32 lits.length := by
        apply BitVec.eq_of_toNat_eq
        rw [nibble_word, htok, hw]; omega
      rw [e1, e2]
    · have hh : highNibble tok = 15#4 := BitVec.eq_of_toNat_eq (by rw [htok]; simp; omega)
      rw [if_pos hh, hh] at hv
      refine .head hb hv ?_
      rw [lengthBytes, if_neg h15] at hs
      have hrest := drop_cons_of_drop hs
      have := runs_litExt ((lits.length - 15) / 255) ((lits.length - 15) % 255)
        (Nat.mod_lt _ (by omega)) (s := { s with dec := { s.dec with
          sp := s.dec.sp + 1, token := tok, literalLen := (15#4).setWidth 32, dstate := .dLitExt } })
        (rest := lits ++ rest) hb rfl
        (by simpa [extBytes, sourceBytes] using hrest)
      have e1 : s.dec.sp + 1 + ((lits.length - 15) / 255 + 1) =
          s.dec.sp + (1 + (lengthBytes lits.length).length) := by
        rw [lengthBytes_length, if_neg h15]; omega
      have e2 : ((15#4).setWidth 32 : Word) +
          BitVec.ofNat 32 (255 * ((lits.length - 15) / 255) + (lits.length - 15) % 255) =
          BitVec.ofNat 32 lits.length := by
        rw [Nat.div_add_mod]
        apply BitVec.eq_of_toNat_eq
        rw [BitVec.toNat_add, word_ofNat_toNat (by omega), hw, nibble_word]
        simp
        omega
      simp only [e1, e2] at this
      exact this
  refine toCheck.trans ?_
  have hdrop : (sourceBytes s).drop (s.dec.sp + (1 + (lengthBytes lits.length).length)) =
      lits ++ rest := by
    have := drop_append_of_drop (drop_cons_of_drop hs)
    rwa [Nat.add_assoc] at this
  have hv2 := decoderVisit_dLitCheck (s := { s with dec := { s.dec with
      sp := s.dec.sp + (1 + (lengthBytes lits.length).length)
      token := tok
      literalLen := BitVec.ofNat 32 lits.length
      dstate := .dLitCheck } }) rfl
  simp only [hw] at hv2
  rw [if_neg (by omega), if_neg (by omega)] at hv2
  refine .head hb hv2 ?_
  have := runs_litCopy lits (s := { s with dec := { s.dec with
      sp := s.dec.sp + (1 + (lengthBytes lits.length).length)
      token := tok
      literalLen := BitVec.ofNat 32 lits.length
      n := BitVec.ofNat 32 lits.length
      dstate := .dLitCopy } }) (rest := rest) hb rfl hdis hw hdp hdrop
  have e1 : s.dec.sp + (1 + (lengthBytes lits.length).length) + lits.length =
      s.dec.sp + (1 + (lengthBytes lits.length).length + lits.length) := by omega
  simp only [e1] at this
  exact this

/-- Writing at `dp` extends the decoded bytes. -/
theorem destinationBytes_write {s t : State} (hp : t.dstPtr = s.dstPtr) {bs : List Byte} {n : Nat}
    (hm : t.mem = writeBytes s.mem (s.dstPtr + n) bs) (hw : s.mem.wf) :
    destinationBytes t (n + bs.length) = destinationBytes s n ++ bs := by
  rw [destinationBytes, hp, hm, bytesFrom_writeBytes_extend _ _ _ _ hw, destinationBytes]

/-- The remaining source after writing the destination. -/
theorem sourceBytes_of_dstWrites {s t : State} (hp : t.srcPtr = s.srcPtr) (hl : t.srcLen = s.srcLen)
    {bs : List Byte} {j : Nat} (hj : j + bs.length ≤ s.dstLen)
    (hm : t.mem = writeBytes s.mem (s.dstPtr + j) bs)
    (hd : disjointRanges s.srcPtr s.srcLen s.dstPtr s.dstLen = true) :
    sourceBytes t = sourceBytes s := by
  rw [sourceBytes, hp, hl, hm, sourceBytes]
  refine bytesFrom_congr fun i hi => memRead_writeBytes_of_outside _ _ _ _ ?_
  have := disjointRanges_outside hd hi
  omega

/-- A sequence with a match part (R103 to R110): from `D_TOKEN` to `D_TOKEN`. -/
theorem runs_seq (q : LzSeq) {s : State} {tail : List Byte}
    (hb : s.phase = .busy) (hd : s.dec.dstate = .dToken) (hw : s.mem.wf)
    (hdis : disjointRanges s.srcPtr s.srcLen s.dstPtr s.dstLen = true)
    (hlim : s.srcLen ≤ decMaxSrcLen) (htail : tail ≠ [])
    (hlen : 4 ≤ q.len) (hoff1 : 1 ≤ q.off) (hoff2 : q.off ≤ 65535)
    (hoff3 : q.off ≤ s.dec.dp + q.lits.length)
    (hroom : s.dec.dp + q.lits.length + q.len ≤ s.dstLen)
    (hs : (sourceBytes s).drop s.dec.sp = q.bytes ++ tail) :
    ∃ t, Runs decoderVisit s t ∧ t.phase = .busy ∧ t.dec.dstate = .dToken ∧ t.mem.wf ∧
      t.dec.sp = s.dec.sp + q.bytes.length ∧ t.dec.dp = s.dec.dp + q.lits.length + q.len ∧
      destinationBytes t t.dec.dp = q.apply (destinationBytes s s.dec.dp) ∧
      sourceBytes t = sourceBytes s := by
  have hlim' : s.srcLen ≤ 0x00FFFFFF := hlim
  have hs' : (sourceBytes s).drop s.dec.sp = tokenByte q.lits.length (q.len - 4) ::
      (lengthBytes q.lits.length ++
        (q.lits ++ (offsetBytes q.off ++ (lengthBytes (q.len - 4) ++ tail)))) := by
    rw [hs, LzSeq.bytes]; simp
  have hL : s.dec.sp + (1 + (lengthBytes q.lits.length).length + q.lits.length) + 2 +
      (lengthBytes (q.len - 4)).length + tail.length = s.srcLen := by
    have := congrArg List.length hs'
    simp only [List.length_drop, sourceBytes_length, List.length_cons, List.length_append,
      offsetBytes_length] at this
    have h1 := (decByte_of_drop hs').1
    omega
  have htl : 1 ≤ tail.length := List.length_pos_iff.2 htail
  have r1 := runs_literals (rest := offsetBytes q.off ++ (lengthBytes (q.len - 4) ++ tail)) hb hd hdis
    hlim (by omega) (highNibble_tokenByte _ _) hs'
  have hd1 : (sourceBytes s).drop (s.dec.sp + (1 + (lengthBytes q.lits.length).length +
      q.lits.length)) = offsetBytes q.off ++ (lengthBytes (q.len - 4) ++ tail) := by
    have := drop_append_of_drop (drop_append_of_drop (drop_cons_of_drop hs'))
    rwa [show s.dec.sp + 1 + (lengthBytes q.lits.length).length + q.lits.length =
      s.dec.sp + (1 + (lengthBytes q.lits.length).length + q.lits.length) by omega] at this
  -- name the state after the literals
  generalize hu : ({ s with
      mem := writeBytes s.mem (s.dstPtr + s.dec.dp) q.lits
      dec := { s.dec with
        sp := s.dec.sp + (1 + (lengthBytes q.lits.length).length + q.lits.length)
        dp := s.dec.dp + q.lits.length
        token := tokenByte q.lits.length (q.len - 4)
        literalLen := BitVec.ofNat 32 q.lits.length
        n := 0#32
        dstate := .dEndCheck } } : State) = u at r1
  have ub : u.phase = .busy := by rw [← hu]; exact hb
  have ud : u.dec.dstate = .dEndCheck := by rw [← hu]
  have usp : u.dec.sp = s.dec.sp + (1 + (lengthBytes q.lits.length).length + q.lits.length) := by
    rw [← hu]
  have udp : u.dec.dp = s.dec.dp + q.lits.length := by rw [← hu]
  have utok : u.dec.token = tokenByte q.lits.length (q.len - 4) := by rw [← hu]
  have usl : u.srcLen = s.srcLen := by rw [← hu]
  have udl : u.dstLen = s.dstLen := by rw [← hu]
  have uw : u.mem.wf := by rw [← hu]; exact writeBytes_wf _ _ _ hw
  have usrc : sourceBytes u = sourceBytes s := by
    rw [← hu]; exact sourceBytes_of_dstWrites rfl rfl (j := s.dec.dp) (by omega) rfl hdis
  have udst : destinationBytes u u.dec.dp = destinationBytes s s.dec.dp ++ q.lits := by
    rw [udp, ← hu]
    exact destinationBytes_write (s := s)
      (t := { s with mem := writeBytes s.mem (s.dstPtr + s.dec.dp) q.lits }) rfl rfl hw
  clear hu
  -- end check
  have v1 := decoderVisit_dEndCheck ud
  rw [if_neg (by omega)] at v1
  -- offset
  have hbytes : decOffset { u with dec := { u.dec with dstate := .dOffset } } =
      BitVec.ofNat 16 q.off := by
    rw [← usrc, ← usp] at hd1
    have h0 := congrArg (fun l => l[0]?) hd1
    have h1 := congrArg (fun l => l[1]?) hd1
    simp only [List.getElem?_drop, offsetBytes, List.cons_append, List.getElem?_cons_zero,
      List.getElem?_cons_succ, Nat.add_zero] at h0 h1
    rw [sourceBytes, bytesFrom_getElem? _ _ _ _ (by omega)] at h0 h1
    show halfLE (memRead u.mem (u.srcPtr + u.dec.sp)) (memRead u.mem (u.srcPtr + u.dec.sp + 1)) = _
    rw [Option.some.inj h0, show u.srcPtr + u.dec.sp + 1 = u.srcPtr + (u.dec.sp + 1) by omega,
      Option.some.inj h1, halfLE_bytes]
  have hoffn : (BitVec.ofNat 16 q.off).toNat = q.off := by
    rw [BitVec.toNat_ofNat, Nat.mod_eq_of_lt (by omega)]
  have v2 := decoderVisit_dOffset (s := { u with dec := { u.dec with dstate := .dOffset } }) ub rfl
  rw [hbytes] at v2
  simp only at v2
  rw [if_neg (by omega), if_neg (by
    rintro (h | h)
    · rw [h] at hoffn; simp at hoffn; omega
    · omega)] at v2
  have hlow := lowNibble_tokenByte q.lits.length (q.len - 4)
  rw [← utok] at hlow
  have hext : (lengthBytes (q.len - 4)).length ≤ s.srcLen := by omega
  have hlen32 : q.len < 2 ^ 32 := by
    rw [lengthBytes_length] at hext
    split at hext <;> omega
  have hcw := word_ofNat_toNat (n := q.len) hlen32
  have hd2 : (sourceBytes u).drop (u.dec.sp + 2) = lengthBytes (q.len - 4) ++ tail := by
    rw [← usrc, ← usp] at hd1
    exact drop_append_of_drop hd1
  -- the match length
  have toCheck : Runs decoderVisit { u with dec := { u.dec with dstate := .dOffset } }
      { u with dec := { u.dec with
        copyOff := BitVec.ofNat 16 q.off
        sp := u.dec.sp + (2 + (lengthBytes (q.len - 4)).length)
        copyLen := BitVec.ofNat 32 q.len
        dstate := .dMatchCheck } } := by
    by_cases h15 : q.len - 4 < 15
    · have hh : lowNibble u.dec.token ≠ 15#4 := by
        intro h; rw [h] at hlow; simp at hlow; omega
      rw [if_neg hh] at v2
      refine .one ub (v2.trans ?_)
      have e1 : (lengthBytes (q.len - 4)).length = 0 := by rw [lengthBytes_length, if_pos h15]
      have e2 : ((lowNibble u.dec.token).setWidth 32 + 4#32 : Word) = BitVec.ofNat 32 q.len := by
        apply BitVec.eq_of_toNat_eq
        rw [nibble_word_add_four, hlow, hcw]; omega
      rw [e1, e2]
    · have hh : lowNibble u.dec.token = 15#4 := BitVec.eq_of_toNat_eq (by rw [hlow]; simp; omega)
      rw [if_pos hh, hh] at v2
      refine .head ub v2 ?_
      rw [lengthBytes, if_neg h15] at hd2
      have := runs_matchExt ((q.len - 4 - 15) / 255) ((q.len - 4 - 15) % 255)
        (Nat.mod_lt _ (by omega)) (s := { u with dec := { u.dec with
          copyOff := BitVec.ofNat 16 q.off
          sp := u.dec.sp + 2
          copyLen := (15#4).setWidth 32 + 4#32
          dstate := .dMatchExt } })
        (rest := tail) ub rfl (by simpa [extBytes, sourceBytes] using hd2)
      have e1 : u.dec.sp + 2 + ((q.len - 4 - 15) / 255 + 1) =
          u.dec.sp + (2 + (lengthBytes (q.len - 4)).length) := by
        rw [lengthBytes_length, if_neg h15]; omega
      have e2 : ((15#4).setWidth 32 + 4#32 : Word) +
          BitVec.ofNat 32 (255 * ((q.len - 4 - 15) / 255) + (q.len - 4 - 15) % 255) =
          BitVec.ofNat 32 q.len := by
        rw [Nat.div_add_mod]
        apply BitVec.eq_of_toNat_eq
        rw [BitVec.toNat_add, word_ofNat_toNat (by omega), hcw, nibble_word_add_four]
        simp
        omega
      simp only [e1, e2] at this
      exact this
  -- the capacity check and the copy
  have v3 := decoderVisit_dMatchCheck (s := { u with dec := { u.dec with
        copyOff := BitVec.ofNat 16 q.off
        sp := u.dec.sp + (2 + (lengthBytes (q.len - 4)).length)
        copyLen := BitVec.ofNat 32 q.len
        dstate := .dMatchCheck } }) rfl
  simp only [hcw, hoffn] at v3
  rw [if_neg (by omega)] at v3
  have r3 := runs_matchCopy q.len (s := { u with dec := { u.dec with
        copyOff := BitVec.ofNat 16 q.off
        sp := u.dec.sp + (2 + (lengthBytes (q.len - 4)).length)
        copyLen := BitVec.ofNat 32 q.len
        fromOff := u.dec.dp - q.off
        dstate := .dMatchCopy } }) ub rfl uw hcw q.off hoff1 (by simp only; omega) (by simp only; omega)
  refine ⟨_, r1.trans (.head ub v1 (toCheck.trans (.head ub v3 r3))), ub, rfl, writeBytes_wf _ _ _ uw,
    ?_, ?_, ?_, ?_⟩
  · simp only [usp, LzSeq.bytes, List.length_cons, List.length_append, offsetBytes_length]
    omega
  · simp only [udp]
  · have := destinationBytes_write (s := u) (t := { u with
      mem := writeBytes u.mem (u.dstPtr + u.dec.dp) (matchBytes (destinationBytes u u.dec.dp) q.off q.len)
      dec := { u.dec with dp := u.dec.dp + q.len } }) rfl rfl uw
    rw [matchBytes_length, ← copyMatch_eq, udst] at this
    rw [LzSeq.apply, ← this, ← udst]
    rfl
  · rw [← usrc]
    refine sourceBytes_of_dstWrites rfl rfl (j := u.dec.dp)
      (by simp only [matchBytes_length]; omega) rfl ?_
    rw [r1.decStable.srcPtr, r1.decStable.srcLen, r1.decStable.dstPtr, r1.decStable.dstLen]
    exact hdis

/-- The sequences of a legal block, one after the other. -/
theorem runs_seqs (qs : List LzSeq) {s : State} {tail : List Byte}
    (hb : s.phase = .busy) (hd : s.dec.dstate = .dToken) (hw : s.mem.wf)
    (hdis : disjointRanges s.srcPtr s.srcLen s.dstPtr s.dstLen = true)
    (hlim : s.srcLen ≤ decMaxSrcLen) (htail : tail ≠ [])
    (hval : seqsValid s.dec.dp qs = true)
    (hroom : s.dec.dp + producedBy qs ≤ s.dstLen)
    (hs : (sourceBytes s).drop s.dec.sp = qs.flatMap LzSeq.bytes ++ tail) :
    ∃ t, Runs decoderVisit s t ∧ t.phase = .busy ∧ t.dec.dstate = .dToken ∧ t.mem.wf ∧
      t.dec.sp = s.dec.sp + (qs.flatMap LzSeq.bytes).length ∧
      t.dec.dp = s.dec.dp + producedBy qs ∧
      destinationBytes t t.dec.dp = qs.foldl LzSeq.apply (destinationBytes s s.dec.dp) ∧
      sourceBytes t = sourceBytes s := by
  induction qs generalizing s with
  | nil => exact ⟨s, .refl s, hb, hd, hw, by simp, by simp [producedBy], rfl, rfl⟩
  | cons q qs ih =>
    simp only [seqsValid, Bool.and_eq_true, decide_eq_true_eq] at hval
    obtain ⟨⟨⟨⟨h1, h2⟩, h3⟩, h4⟩, h5⟩ := hval
    simp only [producedBy] at hroom
    rw [List.flatMap_cons, List.append_assoc] at hs
    obtain ⟨u, r1, ub, ud, uw, usp, udp, udst, usrc⟩ := runs_seq q hb hd hw hdis hlim
      (by intro h; exact htail (List.append_eq_nil_iff.1 h).2) h1 h2 h3 h4 (by omega) hs
    have st := r1.decStable
    obtain ⟨t, r2, tb, td, tw, tsp, tdp, tdst, tsrc⟩ := ih (s := u) ub ud uw
      (by rw [st.srcPtr, st.srcLen, st.dstPtr, st.dstLen]; exact hdis) (by rw [st.srcLen]; exact hlim)
      (by rw [udp]; exact h5) (by rw [st.dstLen, udp]; omega)
      (by rw [usrc, usp]; exact drop_append_of_drop hs)
    refine ⟨t, r1.trans r2, tb, td, tw, ?_, ?_, ?_, tsrc.trans usrc⟩
    · rw [tsp, usp, List.flatMap_cons, List.length_append]; omega
    · rw [tdp, udp, producedBy]; omega
    · rw [tdst, udst, List.foldl_cons]

/-- The final sequence (R106): the decode ends with `ok` and the number of bytes decoded. -/
theorem runs_last {s : State} {last : List Byte} {low : Nibble}
    (hb : s.phase = .busy) (hd : s.dec.dstate = .dToken) (hw : s.mem.wf)
    (hdis : disjointRanges s.srcPtr s.srcLen s.dstPtr s.dstLen = true)
    (hlim : s.srcLen ≤ decMaxSrcLen) (hroom : s.dec.dp + last.length ≤ s.dstLen)
    (hs : (sourceBytes s).drop s.dec.sp = lastBytes last low) :
    ∃ t, Runs decoderVisit s t ∧ t.phase = .idle ∧ t.status = .ok ∧ t.mem.wf ∧
      t.value = s.dec.dp + last.length ∧
      destinationBytes t t.value = destinationBytes s s.dec.dp ++ last := by
  have hs' : (sourceBytes s).drop s.dec.sp =
      (BitVec.ofNat 4 (min last.length 15) ++ low) :: (lengthBytes last.length ++ (last ++ [])) := by
    rw [hs, lastBytes]; simp
  have hh : (highNibble (BitVec.ofNat 4 (min last.length 15) ++ low)).toNat = min last.length 15 := by
    rw [highNibble_append, BitVec.toNat_ofNat]; omega
  have r1 := runs_literals (rest := []) hb hd hdis hlim hroom hh hs'
  have hL : s.dec.sp + (1 + (lengthBytes last.length).length + last.length) = s.srcLen := by
    have := congrArg List.length hs'
    simp only [List.length_drop, sourceBytes_length, List.length_cons, List.length_append,
      List.append_nil] at this
    have h1 := (decByte_of_drop hs').1
    omega
  have v1 := decoderVisit_dEndCheck (s := { s with
      mem := writeBytes s.mem (s.dstPtr + s.dec.dp) last
      dec := { s.dec with
        sp := s.dec.sp + (1 + (lengthBytes last.length).length + last.length)
        dp := s.dec.dp + last.length
        token := BitVec.ofNat 4 (min last.length 15) ++ low
        literalLen := BitVec.ofNat 32 last.length
        n := 0#32
        dstate := .dEndCheck } }) rfl
  rw [if_pos (by simp only; omega)] at v1
  refine ⟨_, r1.trans (.one hb v1), rfl, rfl, writeBytes_wf _ _ _ hw, rfl, ?_⟩
  exact destinationBytes_write (s := s)
    (t := { s with mem := writeBytes s.mem (s.dstPtr + s.dec.dp) last }) rfl rfl hw

/-- A legal block decodes: from the start of the command to its end (R121 item 3). -/
theorem runs_block (b : LzBlock) {s : State}
    (hb : s.phase = .busy) (hw : s.mem.wf)
    (hdis : disjointRanges s.srcPtr s.srcLen s.dstPtr s.dstLen = true)
    (hlim : s.srcLen ≤ decMaxSrcLen) (hval : b.valid = true)
    (hroom : b.expand.length ≤ s.dstLen) (hs : sourceBytes s = b.bytes) :
    ∃ t, Runs decoderVisit (beginDecode s) t ∧ t.phase = .idle ∧ t.status = .ok ∧ t.mem.wf ∧
      t.value = b.expand.length ∧ destinationBytes t t.value = b.expand := by
  have hv := decoderVisit_dPrecheck (s := beginDecode s) rfl
  rw [if_neg (by simp only [beginDecode_srcLen]; omega)] at hv
  have hexp : b.expand.length = producedBy b.seqs + b.last.length := by
    rw [LzBlock.expand, List.length_append, expandSeqs_length]
  obtain ⟨u, r1, ub, ud, uw, usp, udp, udst, usrc⟩ := runs_seqs b.seqs
    (s := { beginDecode s with dec := { (beginDecode s).dec with sp := 0, dp := 0, dstate := .dToken } })
    (tail := lastBytes b.last b.lastLow) hb rfl hw hdis hlim (by simp [lastBytes]) hval
    (by simp only [beginDecode_dstLen]; omega) hs
  have st := r1.decStable
  simp only [Nat.zero_add] at usp udp
  obtain ⟨t, r2, ti, tok, tw, tval, tdst⟩ := runs_last (s := u) (last := b.last) (low := b.lastLow) ub ud uw
    (by rw [st.srcPtr, st.srcLen, st.dstPtr, st.dstLen]; exact hdis)
    (by rw [st.srcLen]; exact hlim)
    (by rw [st.dstLen, udp]; simp only [beginDecode_dstLen]; omega)
    (by
      rw [usrc, usp]
      show (sourceBytes s).drop _ = _
      rw [hs, LzBlock.bytes]
      exact List.drop_left)
  refine ⟨t, .head hb hv (r1.trans r2), ti, tok, tw, ?_, ?_⟩
  · rw [tval, udp, hexp]
  · rw [tdst, udst, LzBlock.expand, expandSeqs]
    rfl

end Sys2Proof.Machine
end

