-- ==== Sys2Proof/Laws/DecoderSound.lean ====
section
/-! SUPPORT. A decode that ends with `ok` has read a legal block and written its decoded bytes
(42_decoder.md R120, R121 item 1): at every label the source read so far is the bytes of the sequences
decoded so far and of the part of the current one. -/

namespace Sys2Proof.Machine

open Sys2Proof.Config

/-- What the part of the current sequence read so far is, by label: `fed` is the source before `sp` after
the complete sequences `qs`, `made` the destination before `dp`, `out` what `qs` decode to. -/
def PartRead (s : State) (fed made out : List Byte) : Prop :=
  match s.dec.dstate with
  | .dPrecheck => True
  | .dToken => fed = [] ∧ made = out
  | .dLitExt => ∃ k, fed = s.dec.token :: List.replicate k 0xFF#8 ∧
      (highNibble s.dec.token).toNat = 15 ∧ s.dec.literalLen.toNat = 15 + 255 * k ∧ made = out
  | .dLitCheck => fed = s.dec.token :: lengthBytes s.dec.literalLen.toNat ∧
      (highNibble s.dec.token).toNat = min s.dec.literalLen.toNat 15 ∧ made = out
  | .dLitCopy => ∃ lits : List Byte,
      fed = s.dec.token :: (lengthBytes (lits.length + s.dec.n.toNat) ++ lits) ∧
      (highNibble s.dec.token).toNat = min (lits.length + s.dec.n.toNat) 15 ∧ made = out ++ lits
  | .dEndCheck | .dOffset => ∃ lits : List Byte,
      fed = s.dec.token :: (lengthBytes lits.length ++ lits) ∧
      (highNibble s.dec.token).toNat = min lits.length 15 ∧ made = out ++ lits
  | .dMatchExt => ∃ (lits : List Byte) (k : Nat),
      fed = s.dec.token :: (lengthBytes lits.length ++ lits ++ offsetBytes s.dec.copyOff.toNat ++
        List.replicate k 0xFF#8) ∧
      (highNibble s.dec.token).toNat = min lits.length 15 ∧ made = out ++ lits ∧
      (lowNibble s.dec.token).toNat = 15 ∧ s.dec.copyLen.toNat = 19 + 255 * k
  | .dMatchCheck => ∃ lits : List Byte,
      fed = s.dec.token :: (lengthBytes lits.length ++ lits ++ offsetBytes s.dec.copyOff.toNat ++
        lengthBytes (s.dec.copyLen.toNat - 4)) ∧
      (highNibble s.dec.token).toNat = min lits.length 15 ∧ made = out ++ lits ∧
      (lowNibble s.dec.token).toNat = min (s.dec.copyLen.toNat - 4) 15 ∧ 4 ≤ s.dec.copyLen.toNat
  | .dMatchCopy => ∃ (lits : List Byte) (c : Nat),
      fed = s.dec.token :: (lengthBytes lits.length ++ lits ++ offsetBytes s.dec.copyOff.toNat ++
        lengthBytes (c + s.dec.copyLen.toNat - 4)) ∧
      (highNibble s.dec.token).toNat = min lits.length 15 ∧
      made = copyMatch (out ++ lits) s.dec.copyOff.toNat c ∧
      (lowNibble s.dec.token).toNat = min (c + s.dec.copyLen.toNat - 4) 15 ∧
      4 ≤ c + s.dec.copyLen.toNat ∧ s.dec.fromOff + s.dec.copyOff.toNat = s.dec.dp ∧
      s.dec.copyOff.toNat ≤ out.length + lits.length

/-- The source read so far is the bytes of legal sequences and of a part of the next one. -/
def ParsedSoFar (s : State) : Prop :=
  s.dec.dstate = .dPrecheck ∨
  ∃ (qs : List LzSeq) (fed : List Byte), seqsValid 0 qs = true ∧
    (sourceBytes s).take s.dec.sp = qs.flatMap LzSeq.bytes ++ fed ∧
    PartRead s fed (destinationBytes s s.dec.dp) (expandSeqs qs)

/-- The result of a decode that ended: with `ok`, the source is a legal block and the destination holds
what it decodes to. -/
def DecodedBlock (s : State) : Prop :=
  s.status = .ok → ∃ b : LzBlock, b.valid = true ∧ sourceBytes s = b.bytes ∧
    s.value = b.expand.length ∧ destinationBytes s s.value = b.expand

theorem token_of_nibbles {tok : Byte} {a : Nat} (h : (highNibble tok).toNat = min a 15) :
    BitVec.ofNat 4 (min a 15) ++ lowNibble tok = tok := by
  rw [← h, BitVec.ofNat_toNat, BitVec.setWidth_eq]
  exact nibbles_append tok

theorem tokenByte_of_nibbles {tok : Byte} {a b : Nat} (h : (highNibble tok).toNat = min a 15)
    (h' : (lowNibble tok).toNat = min b 15) : tokenByte a b = tok := by
  rw [tokenByte, ← h, ← h', BitVec.ofNat_toNat, BitVec.ofNat_toNat, BitVec.setWidth_eq,
    BitVec.setWidth_eq]
  exact nibbles_append tok

theorem take_source_succ {s : State} (h : s.dec.sp < s.srcLen) :
    (sourceBytes s).take (s.dec.sp + 1) = (sourceBytes s).take s.dec.sp ++ [decByte s] := by
  rw [sourceBytes, bytesFrom_take _ _ _ _ (by omega), bytesFrom_take _ _ _ _ (by omega),
    bytesFrom_succ_last]
  rfl

theorem take_source_two {s : State} (h : s.dec.sp + 2 ≤ s.srcLen) :
    (sourceBytes s).take (s.dec.sp + 2) =
      (sourceBytes s).take s.dec.sp ++ offsetBytes (decOffset s).toNat := by
  rw [sourceBytes, bytesFrom_take _ _ _ _ (by omega), bytesFrom_take _ _ _ _ (by omega),
    bytesFrom_add, offsetBytes, BitVec.ofNat_toNat, BitVec.setWidth_eq, decOffset,
    lowByte_halfLE, highByte_halfLE]
  rfl

theorem byte_ofNat_toNat (b : Byte) : BitVec.ofNat 8 b.toNat = b := by
  rw [BitVec.ofNat_toNat, BitVec.setWidth_eq]

theorem byte_lt_of_ne {b : Byte} (h : b ≠ 255#8) : b.toNat < 255 := by
  have := b.isLt
  rcases Nat.lt_or_ge b.toNat 255 with hl | hl
  · exact hl
  · exact absurd (BitVec.eq_of_toNat_eq (by simp; omega)) h

/-- Every visit keeps the parse, and a visit that ends with `ok` has read a legal block. -/
theorem decoderVisit_parsed {s t : State} (hr : DecodeRunning s) (hw : s.mem.wf)
    (hdis : disjointRanges s.srcPtr s.srcLen s.dstPtr s.dstLen = true) (hp : ParsedSoFar s)
    (hv : decoderVisit s = .next t) :
    (t.phase = .busy → ParsedSoFar t) ∧ (t.phase = .idle → DecodedBlock t) := by
  obtain ⟨hb, hi⟩ := hr
  have stop : ∀ (k : ErrorKind) (u : State), t = raise k u →
      (t.phase = .busy → ParsedSoFar t) ∧ (t.phase = .idle → DecodedBlock t) := by
    rintro k u rfl
    refine ⟨by simp, fun _ hok => ?_⟩
    cases k <;> simp [ErrorKind.status] at hok
  have go : t.phase = .busy → ParsedSoFar t →
      (t.phase = .busy → ParsedSoFar t) ∧ (t.phase = .idle → DecodedBlock t) :=
    fun h1 h2 => ⟨fun _ => h2, fun h3 => by rw [h1] at h3; cases h3⟩
  rcases hi with ⟨hd, -, -⟩ | hi
  · rw [decoderVisit_dPrecheck hd] at hv
    split at hv <;> cases hv
    · exact stop _ _ rfl
    · exact go hb (.inr ⟨[], [], rfl, by simp, rfl, rfl⟩)
  rcases hp with hd | ⟨qs, fed, hval, htake, hpart⟩
  · exact absurd hd hi.past
  have hsp := hi.sp
  have hdp := hi.dp
  have hlim : s.srcLen ≤ 0x00FFFFFF := hi.srcLimit
  have hout : (expandSeqs qs).length = producedBy qs := expandSeqs_length qs
  cases hd : s.dec.dstate with
  | dPrecheck => exact absurd hd hi.past
  | dToken =>
    simp only [PartRead, hd] at hpart
    obtain ⟨rfl, hmade⟩ := hpart
    rw [decoderVisit_dToken hb hd] at hv
    split at hv <;> cases hv
    · exact stop _ _ rfl
    · rename_i hle
      refine go hb (.inr ⟨qs, [decByte s], hval, ?_, ?_⟩)
      · show (sourceBytes s).take (s.dec.sp + 1) = _
        rw [take_source_succ (by omega), htake, List.append_nil]
      · by_cases h15 : highNibble (decByte s) = 15#4
        · simp only [PartRead, h15, if_true]
          exact ⟨0, rfl, rfl, rfl, hmade⟩
        · have hlt : (highNibble (decByte s)).toNat < 15 := by
            have := (highNibble (decByte s)).isLt
            rcases Nat.lt_or_ge (highNibble (decByte s)).toNat 15 with hl | hl
            · exact hl
            · exact absurd (BitVec.eq_of_toNat_eq (by simp; omega)) h15
          simp only [PartRead, h15, if_false, nibble_word]
          refine ⟨by rw [lengthBytes, if_pos hlt], by omega, hmade⟩
  | dLitExt =>
    simp only [PartRead, hd] at hpart
    obtain ⟨k, rfl, hh, hlit, hmade⟩ := hpart
    rw [decoderVisit_dLitExt hb hd] at hv
    have hbound := hi.literalLen (.inl hd)
    have h1 := hi.spent (by simp [hd])
    have hb8 := (decByte s).isLt
    split at hv <;> cases hv
    · exact stop _ _ rfl
    · rename_i hle
      have hwadd : (s.dec.literalLen + (decByte s).setWidth 32).toNat =
          s.dec.literalLen.toNat + (decByte s).toNat := word_add_byte (by omega)
      refine go hb (.inr ⟨qs, s.dec.token :: (List.replicate k 0xFF#8 ++ [decByte s]), hval, ?_, ?_⟩)
      · show (sourceBytes s).take (s.dec.sp + 1) = _
        rw [take_source_succ (by omega), htake]; simp
      · by_cases h255 : decByte s = 255#8
        · simp only [PartRead, h255, if_true]
          rw [h255] at hwadd
          refine ⟨k + 1, by rw [List.replicate_succ'], hh, ?_, hmade⟩
          rw [hwadd, hlit]; simp; omega
        · have hlt := byte_lt_of_ne h255
          simp only [PartRead, h255, if_false]
          refine ⟨?_, ?_, hmade⟩
          · rw [hwadd, hlit, ← lengthBytes_ext k _ hlt, byte_ofNat_toNat]
          · rw [hwadd, hlit, hh]; omega
  | dLitCheck =>
    simp only [PartRead, hd] at hpart
    obtain ⟨rfl, hh, hmade⟩ := hpart
    rw [decoderVisit_dLitCheck hd] at hv
    split at hv
    · cases hv; exact stop _ _ rfl
    · split at hv <;> cases hv
      · exact stop _ _ rfl
      · refine go hb (.inr ⟨qs, _, hval, htake, ?_⟩)
        simp only [PartRead]
        exact ⟨[], by simp, by simpa using hh, by rw [List.append_nil]; exact hmade⟩
  | dLitCopy =>
    simp only [PartRead, hd] at hpart
    obtain ⟨lits, rfl, hh, hmade⟩ := hpart
    have hroom := hi.litCopy hd
    by_cases hn : s.dec.n = 0#32
    · rw [decoderVisit_dLitCopy_done hd hn] at hv
      cases hv
      refine go hb (.inr ⟨qs, _, hval, htake, ?_⟩)
      simp only [PartRead]
      rw [hn] at hh ⊢
      exact ⟨lits, rfl, hh, hmade⟩
    · have hpos := word_pos hn
      have hpred := word_pred hn
      rw [decoderVisit_dLitCopy hb hd hn, if_neg (by omega), if_neg (by omega)] at hv
      cases hv
      refine go hb (.inr ⟨qs, s.dec.token ::
        (lengthBytes (lits.length + s.dec.n.toNat) ++ (lits ++ [decByte s])), hval, ?_, ?_⟩)
      · refine Eq.trans (congrArg (List.take (s.dec.sp + 1)) (a₂ := sourceBytes s) ?_) ?_
        · exact sourceBytes_of_dstWrite rfl rfl (by omega) rfl hdis
        rw [take_source_succ (by omega), htake]; simp
      · simp only [PartRead, hd]
        refine ⟨lits ++ [decByte s], ?_, ?_, ?_⟩
        · rw [hpred, List.length_append, List.length_singleton,
            show lits.length + 1 + (s.dec.n.toNat - 1) = lits.length + s.dec.n.toNat by omega]
        · rw [hpred, hh, List.length_append, List.length_singleton]; omega
        · rw [destinationBytes, bytesFrom_memWrite_extend _ _ _ _ hw]
          rw [destinationBytes] at hmade
          rw [hmade, List.append_assoc]
  | dEndCheck =>
    simp only [PartRead, hd] at hpart
    obtain ⟨lits, rfl, hh, hmade⟩ := hpart
    rw [decoderVisit_dEndCheck hd] at hv
    split at hv <;> cases hv
    · rename_i hle
      refine ⟨by simp, fun _ _ => ⟨⟨qs, lits, lowNibble s.dec.token⟩, hval, ?_, ?_, ?_⟩⟩
      · show sourceBytes s = _
        rw [List.take_of_length_le (by rw [sourceBytes_length]; omega)] at htake
        rw [htake, LzBlock.bytes, lastBytes, token_of_nibbles hh]
      · have := congrArg List.length hmade
        rw [destinationBytes, bytesFrom_length] at this
        exact this
      · exact hmade
    · refine go hb (.inr ⟨qs, _, hval, htake, ?_⟩)
      simp only [PartRead]
      exact ⟨lits, rfl, hh, hmade⟩
  | dOffset =>
    simp only [PartRead, hd] at hpart
    obtain ⟨lits, rfl, hh, hmade⟩ := hpart
    rw [decoderVisit_dOffset hb hd] at hv
    split at hv
    · cases hv; exact stop _ _ rfl
    · rename_i hle
      split at hv <;> cases hv
      · exact stop _ _ rfl
      · have h4 := nibble_word_add_four (lowNibble s.dec.token)
        have hnl := (lowNibble s.dec.token).isLt
        refine go hb (.inr ⟨qs, s.dec.token :: (lengthBytes lits.length ++ lits ++
          offsetBytes (decOffset s).toNat), hval, ?_, ?_⟩)
        · show (sourceBytes s).take (s.dec.sp + 2) = _
          rw [take_source_two (by omega), htake]; simp
        · by_cases h15 : lowNibble s.dec.token = 15#4
          · simp only [PartRead, h15, if_true]
            exact ⟨lits, 0, by simp, hh, hmade, rfl, rfl⟩
          · have hlt : (lowNibble s.dec.token).toNat < 15 := by
              rcases Nat.lt_or_ge (lowNibble s.dec.token).toNat 15 with hl | hl
              · exact hl
              · exact absurd (BitVec.eq_of_toNat_eq (by simp; omega)) h15
            simp only [PartRead, h15, if_false]
            rw [h4]
            refine ⟨lits, ?_, hh, hmade, by omega, by omega⟩
            have hnil : lengthBytes ((lowNibble s.dec.token).toNat + 4 - 4) = [] := by
              rw [lengthBytes, if_pos (by omega)]
            rw [hnil, List.append_nil]
  | dMatchExt =>
    simp only [PartRead, hd] at hpart
    obtain ⟨lits, k, rfl, hh, hmade, hlo, hcl⟩ := hpart
    rw [decoderVisit_dMatchExt hb hd] at hv
    have hbound := hi.copyLen (.inl hd)
    have hb8 := (decByte s).isLt
    split at hv <;> cases hv
    · exact stop _ _ rfl
    · rename_i hle
      have hwadd : (s.dec.copyLen + (decByte s).setWidth 32).toNat =
          s.dec.copyLen.toNat + (decByte s).toNat := word_add_byte (by omega)
      refine go hb (.inr ⟨qs, s.dec.token :: (lengthBytes lits.length ++ lits ++
        offsetBytes s.dec.copyOff.toNat ++ (List.replicate k 0xFF#8 ++ [decByte s])), hval, ?_, ?_⟩)
      · show (sourceBytes s).take (s.dec.sp + 1) = _
        rw [take_source_succ (by omega), htake]; simp
      · by_cases h255 : decByte s = 255#8
        · simp only [PartRead, h255, if_true]
          rw [h255] at hwadd
          refine ⟨lits, k + 1, by rw [List.replicate_succ'], hh, hmade, hlo, ?_⟩
          rw [hwadd, hcl]; simp; omega
        · have hlt := byte_lt_of_ne h255
          simp only [PartRead, h255, if_false]
          rw [hwadd, hcl]
          refine ⟨lits, ?_, hh, hmade, by omega, by omega⟩
          rw [show 19 + 255 * k + (decByte s).toNat - 4 = 15 + 255 * k + (decByte s).toNat by omega,
            ← lengthBytes_ext k _ hlt, byte_ofNat_toNat]
  | dMatchCheck =>
    simp only [PartRead, hd] at hpart
    obtain ⟨lits, rfl, hh, hmade, hlo, h4⟩ := hpart
    have hoff := hi.offset (.inr (.inl hd))
    rw [decoderVisit_dMatchCheck hd] at hv
    split at hv <;> cases hv
    · exact stop _ _ rfl
    · refine go hb (.inr ⟨qs, _, hval, htake, ?_⟩)
      simp only [PartRead]
      have hl := congrArg List.length hmade
      rw [destinationBytes, bytesFrom_length, List.length_append] at hl
      exact ⟨lits, 0, by simp, hh, hmade, by simpa using hlo, by omega, by omega, by omega⟩
  | dMatchCopy =>
    simp only [PartRead, hd] at hpart
    obtain ⟨lits, c, rfl, hh, hmade, hlo, h4, hfrom, hoffl⟩ := hpart
    have hoff := hi.offset (.inr (.inr hd))
    have hroom := hi.matchCopy hd
    rw [decoderVisit_dMatchCopy hd] at hv
    split at hv
    · rename_i h0
      cases hv
      rw [h0] at hlo h4 htake
      have hc : (0#32 : Word).toNat = 0 := rfl
      rw [hc, Nat.add_zero] at hlo h4 htake
      have hltoff := s.dec.copyOff.isLt
      refine go hb (.inr ⟨qs ++ [⟨lits, s.dec.copyOff.toNat, c⟩], [], ?_, ?_, ?_⟩)
      · rw [seqsValid_concat]
        exact ⟨hval, h4, hoff.1, by simp only; omega, by simp only; omega⟩
      · show (sourceBytes s).take s.dec.sp = _
        rw [htake, List.flatMap_append, List.append_nil]
        simp only [List.flatMap_cons, List.flatMap_nil, List.append_nil, LzSeq.bytes,
          tokenByte_of_nibbles hh hlo]
      · simp only [PartRead]
        refine ⟨trivial, ?_⟩
        show destinationBytes s s.dec.dp = _
        rw [hmade, expandSeqs_concat, LzSeq.apply]
    · rename_i h0
      have hpos := word_pos h0
      have hpred := word_pred h0
      rw [if_neg (by omega)] at hv
      cases hv
      refine go hb (.inr ⟨qs, s.dec.token :: (lengthBytes lits.length ++ lits ++
        offsetBytes s.dec.copyOff.toNat ++ lengthBytes (c + s.dec.copyLen.toNat - 4)), hval, ?_, ?_⟩)
      · refine Eq.trans (congrArg (List.take s.dec.sp) (a₂ := sourceBytes s) ?_) htake
        exact sourceBytes_of_dstWrite rfl rfl (by omega) rfl hdis
      · simp only [PartRead, hd]
        rw [hpred]
        refine ⟨lits, c + 1, ?_, hh, ?_, ?_, ?_, ?_, hoffl⟩
        · rw [show c + 1 + (s.dec.copyLen.toNat - 1) = c + s.dec.copyLen.toNat by omega]
        · rw [destinationBytes, bytesFrom_memWrite_extend _ _ _ _ hw]
          have hl := congrArg List.length hmade
          rw [destinationBytes, bytesFrom_length] at hl
          rw [destinationBytes] at hmade
          rw [copyMatch_succ, hmade, ← hl]
          congr 2
          rw [← hmade, List.getD_eq_getElem?_getD, bytesFrom_getElem? _ _ _ _ (by omega),
            Option.getD_some]
          congr 1
          omega
        · rw [hlo]; omega
        · omega
        · omega

/-- A decode that ends with `ok` has read a legal block. -/
theorem decode_sound {fuel : Nat} {s t : State} (hb : s.phase = .busy) (hw : s.mem.wf)
    (hdis : disjointRanges s.srcPtr s.srcLen s.dstPtr s.dstLen = true)
    (h : runToEnd decoderVisit fuel (beginDecode s) = .next t) : DecodedBlock t := by
  have := runToEnd_keeps (P := fun u =>
      u.mem.wf ∧ disjointRanges u.srcPtr u.srcLen u.dstPtr u.dstLen = true ∧
      (u.phase = .busy → DecodeRunning u ∧ ParsedSoFar u) ∧ (u.phase = .idle → DecodedBlock u))
    (visit := decoderVisit)
    (fun u v hb ⟨h1, h2, h3, _⟩ hv => by
      obtain ⟨hrun, hpar⟩ := h3 hb
      have st := (decoderVisit_frame hb hv).stable
      have hpp := decoderVisit_parsed hrun h1 h2 hpar hv
      refine ⟨st.wf h1, by rw [st.srcPtr, st.srcLen, st.dstPtr, st.dstLen]; exact h2, fun hvb => ?_,
        hpp.2⟩
      obtain ⟨v', hv', hd⟩ := decoderVisit_progress hrun
      rw [hv] at hv'
      cases hv'
      rcases hd with hd | hd
      · rw [hvb] at hd; cases hd.1
      · exact ⟨hd.1, hpp.1 hvb⟩)
    (s := beginDecode s)
    ⟨hw, hdis, fun _ => ⟨decodeRunning_begin hb, .inl rfl⟩, fun hi => by
      rw [show (beginDecode s).phase = s.phase from rfl, hb] at hi; cases hi⟩ h
  exact this.1.2.2.2 this.2

end Sys2Proof.Machine
end

