-- ==== Sys2Proof/Laws/DecoderAgree.lean ====
section
/-! SUPPORT. Two decodes side by side (10_state.md R10; 42_decoder.md R119): the encoder's registers, the table
and the units play no part, and two machines with the same source bytes and the same room do the same. -/

namespace Sys2Proof.Machine

/-- The outcome with its next state changed. -/
def outMap (f : State → State) : Out → Out
  | .next t => .next (f t)
  | .fault r => .fault r
  | .refused r => .refused r

/-- Other contents in the state a decode does not use. -/
def withUnits (e : EncRegs) (h : HashTable) (pk : PeekRegs) (lc : LcpRegs) (s : State) : State :=
  { s with enc := e, ht := h, peek := pk, lcp := lc }

theorem decoderVisit_withUnits (s : State) (e : EncRegs) (h : HashTable) (pk : PeekRegs) (lc : LcpRegs)
    (hb : s.phase = .busy) :
    decoderVisit (withUnits e h pk lc s) = outMap (withUnits e h pk lc) (decoderVisit s) := by
  have hb' : (withUnits e h pk lc s).phase = .busy := hb
  have hd' : (withUnits e h pk lc s).dec.dstate = s.dec.dstate := rfl
  cases hd : s.dec.dstate with
  | dPrecheck =>
    rw [decoderVisit_dPrecheck (hd'.trans hd), decoderVisit_dPrecheck hd, apply_ite (outMap _)]; rfl
  | dToken =>
    rw [decoderVisit_dToken hb' (hd'.trans hd), decoderVisit_dToken hb hd, apply_ite (outMap _)]; rfl
  | dLitExt =>
    rw [decoderVisit_dLitExt hb' (hd'.trans hd), decoderVisit_dLitExt hb hd, apply_ite (outMap _)]; rfl
  | dLitCheck =>
    rw [decoderVisit_dLitCheck (hd'.trans hd), decoderVisit_dLitCheck hd, apply_ite (outMap _),
      apply_ite (outMap _)]; rfl
  | dLitCopy =>
    by_cases hn : s.dec.n = 0#32
    · rw [decoderVisit_dLitCopy_done (hd'.trans hd) (by exact hn), decoderVisit_dLitCopy_done hd hn]; rfl
    · rw [decoderVisit_dLitCopy hb' (hd'.trans hd) (by exact hn), decoderVisit_dLitCopy hb hd hn,
        apply_ite (outMap _), apply_ite (outMap _)]; rfl
  | dEndCheck =>
    rw [decoderVisit_dEndCheck (hd'.trans hd), decoderVisit_dEndCheck hd, apply_ite (outMap _)]; rfl
  | dOffset =>
    rw [decoderVisit_dOffset hb' (hd'.trans hd), decoderVisit_dOffset hb hd, apply_ite (outMap _),
      apply_ite (outMap _)]; rfl
  | dMatchExt =>
    rw [decoderVisit_dMatchExt hb' (hd'.trans hd), decoderVisit_dMatchExt hb hd, apply_ite (outMap _)]; rfl
  | dMatchCheck =>
    rw [decoderVisit_dMatchCheck (hd'.trans hd), decoderVisit_dMatchCheck hd, apply_ite (outMap _)]; rfl
  | dMatchCopy =>
    rw [decoderVisit_dMatchCopy (hd'.trans hd), decoderVisit_dMatchCopy hd, apply_ite (outMap _),
      apply_ite (outMap _)]; rfl

/-! ### Two machines -/

/-- Two decodes in step: the same source bytes and room, the same cursors and label, the working registers the
label still uses the same, the same bytes written, and the same result once ended. -/
structure DecAgree (s s' : State) : Prop where
  srcLen : s'.srcLen = s.srcLen
  dstLen : s'.dstLen = s.dstLen
  src : ∀ i < s.srcLen, memRead s'.mem (s'.srcPtr + i) = memRead s.mem (s.srcPtr + i)
  phase : s'.phase = s.phase
  result : s.phase = .idle → s'.status = s.status ∧ s'.value = s.value ∧ s.value ≤ s.dec.dp
  sp : s'.dec.sp = s.dec.sp
  dp : s'.dec.dp = s.dec.dp
  dstate : s'.dec.dstate = s.dec.dstate
  written : ∀ i < s.dec.dp, memRead s'.mem (s'.dstPtr + i) = memRead s.mem (s.dstPtr + i)
  token : s.dec.dstate ≠ .dToken → s'.dec.token = s.dec.token
  literalLen : s.dec.dstate = .dLitExt ∨ s.dec.dstate = .dLitCheck → s'.dec.literalLen = s.dec.literalLen
  n : s.dec.dstate = .dLitCopy → s'.dec.n = s.dec.n
  copyOff : s.dec.dstate = .dMatchExt ∨ s.dec.dstate = .dMatchCheck → s'.dec.copyOff = s.dec.copyOff
  copyLen : s.dec.dstate = .dMatchExt ∨ s.dec.dstate = .dMatchCheck ∨ s.dec.dstate = .dMatchCopy →
    s'.dec.copyLen = s.dec.copyLen
  fromOff : s.dec.dstate = .dMatchCopy → s'.dec.fromOff = s.dec.fromOff

variable {s s' t : State}

/-- Both ended the same way. -/
theorem DecAgree.finish (h : DecAgree s s') (st : Status) {v : Nat} (hv : v ≤ s.dec.dp) :
    DecAgree (s.finish st v) (s'.finish st v) :=
  { h with phase := rfl, result := fun _ => ⟨rfl, rfl, hv⟩ }

/-- Both wrote the same byte at the output cursor and moved past it, the registers as given. -/
theorem DecAgree.push (h : DecAgree s s') (hw : s.mem.wf) (hw' : s'.mem.wf)
    (hd : disjointRanges s.srcPtr s.srcLen s.dstPtr s.dstLen = true)
    (hd' : disjointRanges s'.srcPtr s'.srcLen s'.dstPtr s'.dstLen = true)
    (hroom : s.dec.dp < s.dstLen) (b : Byte) :
    (∀ i < s.srcLen, memRead (memWrite s'.mem (s'.dstPtr + s'.dec.dp) b) (s'.srcPtr + i) =
        memRead (memWrite s.mem (s.dstPtr + s.dec.dp) b) (s.srcPtr + i)) ∧
      ∀ i < s.dec.dp + 1, memRead (memWrite s'.mem (s'.dstPtr + s'.dec.dp) b) (s'.dstPtr + i) =
        memRead (memWrite s.mem (s.dstPtr + s.dec.dp) b) (s.dstPtr + i) := by
  have hdp := h.dp
  have hsl := h.srcLen
  have hdl := h.dstLen
  constructor
  · intro i hi
    have h1 := disjointRanges_outside hd hi
    have h2 := disjointRanges_outside hd' (show i < s'.srcLen by omega)
    rw [memRead_write_of_ne _ _ (by omega), memRead_write_of_ne _ _ (by omega)]
    exact h.src i hi
  · intro i hi
    rw [hdp]
    by_cases he : i = s.dec.dp
    · subst he
      rw [memRead_write_self _ _ _ hw', memRead_write_self _ _ _ hw]
    · rw [memRead_write_of_ne _ _ (by omega), memRead_write_of_ne _ _ (by omega)]
      exact h.written i (by omega)

/-- One visit keeps two decodes in step. -/
theorem decoderVisit_agrees (h : DecAgree s s') (hb : s.phase = .busy) (hp : s.dec.dstate ≠ .dPrecheck)
    (hw : s.mem.wf) (hw' : s'.mem.wf)
    (hd : disjointRanges s.srcPtr s.srcLen s.dstPtr s.dstLen = true)
    (hd' : disjointRanges s'.srcPtr s'.srcLen s'.dstPtr s'.dstLen = true)
    (hi : DecoderInv s) (hv : decoderVisit s = .next t) :
    t.dec.dstate ≠ .dPrecheck ∧ ∃ t', decoderVisit s' = .next t' ∧ DecAgree t t' := by
  have hb' : s'.phase = .busy := h.phase.trans hb
  have e1 := h.srcLen
  have e2 := h.dstLen
  have e3 := h.sp
  have e4 := h.dp
  have busy : ∀ {p : Prop}, s.phase = .idle → p := fun hid => by rw [hb] at hid; cases hid
  have byte : s.dec.sp < s.srcLen → decByte s' = decByte s := fun hl => by
    rw [decByte, decByte, e3]; exact h.src _ hl
  have next1 : s'.dec.sp + 1 = s.dec.sp + 1 := by rw [e3]
  cases hds : s.dec.dstate with
  | dPrecheck => exact absurd hds hp
  | dToken =>
    have hv' := decoderVisit_dToken hb' (h.dstate.trans hds)
    rw [decoderVisit_dToken hb hds] at hv
    split at hv <;> cases hv
    · rw [if_pos (by omega)] at hv'
      exact ⟨by simp [hds], _, hv', h.finish _ (Nat.zero_le _)⟩
    · rw [if_neg (by omega), byte (by omega)] at hv'
      refine ⟨by simp only; split <;> simp, _, hv', ⟨e1, e2, h.src, h.phase, busy, next1, e4, rfl, h.written,
        fun _ => rfl, fun _ => rfl, fun hx => ?_, fun hx => ?_, fun hx => ?_, fun hx => ?_⟩⟩ <;>
        (simp only at hx; split at hx <;> simp at hx)
  | dLitExt =>
    have tk := h.token (by simp [hds])
    have ll := h.literalLen (.inl hds)
    have hv' := decoderVisit_dLitExt hb' (h.dstate.trans hds)
    rw [decoderVisit_dLitExt hb hds] at hv
    split at hv <;> cases hv
    · rw [if_pos (by omega)] at hv'
      exact ⟨by simp [hds], _, hv', h.finish _ (Nat.zero_le _)⟩
    · rw [if_neg (by omega), byte (by omega), ll] at hv'
      refine ⟨by simp only; split <;> simp, _, hv', ⟨e1, e2, h.src, h.phase, busy, next1, e4, rfl, h.written,
        fun _ => tk, fun _ => rfl, fun hx => ?_, fun hx => ?_, fun hx => ?_, fun hx => ?_⟩⟩ <;>
        (simp only at hx; split at hx <;> simp at hx)
  | dLitCheck =>
    have tk := h.token (by simp [hds])
    have ll := h.literalLen (.inr hds)
    have hv' := decoderVisit_dLitCheck (h.dstate.trans hds)
    rw [ll] at hv'
    rw [decoderVisit_dLitCheck hds] at hv
    split at hv <;> [cases hv; (split at hv <;> cases hv)]
    · rw [if_pos (by omega)] at hv'
      exact ⟨by simp [hds], _, hv', h.finish _ (Nat.zero_le _)⟩
    · rw [if_neg (by omega), if_pos (by omega)] at hv'
      exact ⟨by simp [hds], _, hv', h.finish _ (Nat.zero_le _)⟩
    · rw [if_neg (by omega), if_neg (by omega)] at hv'
      exact ⟨by simp, _, hv', ⟨e1, e2, h.src, h.phase, busy, e3, e4, rfl, h.written, fun _ => tk, by simp,
        fun _ => rfl, by simp, by simp, by simp⟩⟩
  | dLitCopy =>
    have tk := h.token (by simp [hds])
    have nn := h.n hds
    by_cases hn : s.dec.n = 0#32
    · have hv' := decoderVisit_dLitCopy_done (h.dstate.trans hds) (nn.trans hn)
      rw [decoderVisit_dLitCopy_done hds hn] at hv
      cases hv
      exact ⟨by simp, _, hv', ⟨e1, e2, h.src, h.phase, busy, e3, e4, rfl, h.written, fun _ => tk, by simp,
        by simp, by simp, by simp, by simp⟩⟩
    · have hv' := decoderVisit_dLitCopy hb' (h.dstate.trans hds) (by rw [nn]; exact hn)
      rw [decoderVisit_dLitCopy hb hds hn] at hv
      split at hv <;> [cases hv; (split at hv <;> cases hv)]
      rw [if_neg (by omega), if_neg (by omega), byte (by omega), nn] at hv'
      obtain ⟨p1, p2⟩ := h.push hw hw' hd hd' (by omega) (decByte s)
      exact ⟨by simp [hds], _, hv', ⟨e1, e2, p1, h.phase, busy, next1, by simp [e4], h.dstate, p2, fun _ => tk,
        by simp [hds], fun _ => rfl, by simp [hds], by simp [hds], by simp [hds]⟩⟩
  | dEndCheck =>
    have tk := h.token (by simp [hds])
    have hv' := decoderVisit_dEndCheck (h.dstate.trans hds)
    rw [decoderVisit_dEndCheck hds] at hv
    split at hv <;> cases hv
    · rw [if_pos (by omega), e4] at hv'
      exact ⟨by simp [hds], _, hv', h.finish _ (Nat.le_refl _)⟩
    · rw [if_neg (by omega)] at hv'
      exact ⟨by simp, _, hv', ⟨e1, e2, h.src, h.phase, busy, e3, e4, rfl, h.written, fun _ => tk, by simp,
        by simp, by simp, by simp, by simp⟩⟩
  | dOffset =>
    have tk := h.token (by simp [hds])
    have hv' := decoderVisit_dOffset hb' (h.dstate.trans hds)
    rw [decoderVisit_dOffset hb hds] at hv
    have off : ¬ s.srcLen - s.dec.sp < 2 → decOffset s' = decOffset s := fun hc => by
      rw [decOffset, decOffset, e3, h.src _ (by omega), Nat.add_assoc, h.src _ (by omega)]
      rfl
    split at hv <;> [cases hv; (rename_i hc; split at hv <;> cases hv)]
    · rw [if_pos (by omega)] at hv'
      exact ⟨by simp [hds], _, hv', h.finish _ (Nat.zero_le _)⟩
    · rename_i hc2
      rw [if_neg (by omega), off hc, if_pos (by rw [e4]; exact hc2)] at hv'
      exact ⟨by simp [hds], _, hv', ⟨e1, e2, h.src, rfl, fun _ => ⟨rfl, rfl, Nat.zero_le _⟩, by simp [e3], e4, h.dstate,
        h.written, fun _ => tk, by simp [hds], by simp [hds], by simp [hds], by simp [hds], by simp [hds]⟩⟩
    · rename_i hc2
      rw [if_neg (by omega), off hc, if_neg (by rw [e4]; exact hc2), tk] at hv'
      refine ⟨by simp only; split <;> simp, _, hv', ⟨e1, e2, h.src, h.phase, busy, by simp [e3], e4, rfl,
        h.written, fun _ => tk, fun hx => ?_, fun hx => ?_, fun _ => rfl, fun _ => rfl, fun hx => ?_⟩⟩ <;>
        (simp only at hx; split at hx <;> simp at hx)
  | dMatchExt =>
    have tk := h.token (by simp [hds])
    have co := h.copyOff (.inl hds)
    have cl := h.copyLen (.inl hds)
    have hv' := decoderVisit_dMatchExt hb' (h.dstate.trans hds)
    rw [decoderVisit_dMatchExt hb hds] at hv
    split at hv <;> cases hv
    · rw [if_pos (by omega)] at hv'
      exact ⟨by simp [hds], _, hv', h.finish _ (Nat.zero_le _)⟩
    · rw [if_neg (by omega), byte (by omega), cl] at hv'
      refine ⟨by simp only; split <;> simp, _, hv', ⟨e1, e2, h.src, h.phase, busy, next1, e4, rfl, h.written,
        fun _ => tk, fun hx => ?_, fun hx => ?_, fun _ => co, fun _ => rfl, fun hx => ?_⟩⟩ <;>
        (simp only at hx; split at hx <;> simp at hx)
  | dMatchCheck =>
    have tk := h.token (by simp [hds])
    have co := h.copyOff (.inr hds)
    have cl := h.copyLen (.inr (.inl hds))
    have hv' := decoderVisit_dMatchCheck (h.dstate.trans hds)
    rw [cl] at hv'
    rw [decoderVisit_dMatchCheck hds] at hv
    split at hv <;> cases hv
    · rw [if_pos (by omega)] at hv'
      exact ⟨by simp [hds], _, hv', h.finish _ (Nat.zero_le _)⟩
    · rw [if_neg (by omega)] at hv'
      exact ⟨by simp, _, hv', ⟨e1, e2, h.src, h.phase, busy, e3, e4, rfl, h.written, fun _ => tk, by simp,
        by simp, by simp, fun _ => cl, fun _ => by simp [e4, co]⟩⟩
  | dMatchCopy =>
    have tk := h.token (by simp [hds])
    have cl := h.copyLen (.inr (.inr hds))
    have fo := h.fromOff hds
    obtain ⟨m1, -⟩ := hi.matchCopy hds
    have hv' := decoderVisit_dMatchCopy (h.dstate.trans hds)
    rw [cl, fo] at hv'
    rw [decoderVisit_dMatchCopy hds] at hv
    split at hv <;> [cases hv; (rename_i hc; split at hv <;> cases hv)]
    · rename_i hc
      rw [if_pos hc] at hv'
      exact ⟨by simp, _, hv', ⟨e1, e2, h.src, h.phase, busy, e3, e4, rfl, h.written, by simp, by simp,
        by simp, by simp, by simp, by simp⟩⟩
    · rw [if_neg hc, if_neg (by omega), h.written _ m1] at hv'
      obtain ⟨p1, p2⟩ := h.push hw hw' hd hd' (by omega) (memRead s.mem (s.dstPtr + s.dec.fromOff))
      exact ⟨by simp [hds], _, hv', ⟨e1, e2, p1, h.phase, busy, e3, by simp [e4], h.dstate, p2, fun _ => tk,
        by simp [hds], by simp [hds], by simp [hds], fun _ => rfl, fun _ => rfl⟩⟩

/-- Visits keep two decodes in step to the end. -/
theorem decoder_runs_agree (hr : Runs decoderVisit s t) :
    ∀ {s' : State}, DecAgree s s' → s.dec.dstate ≠ .dPrecheck → (s.phase = .busy → DecodeRunning s) →
      s.mem.wf → s'.mem.wf → disjointRanges s.srcPtr s.srcLen s.dstPtr s.dstLen = true →
      disjointRanges s'.srcPtr s'.srcLen s'.dstPtr s'.dstLen = true →
      ∃ t', Runs decoderVisit s' t' ∧ DecAgree t t' := by
  induction hr with
  | refl s => intro s' h _ _ _ _ _ _; exact ⟨s', .refl _, h⟩
  | @head s u t hb hv _ ih =>
    intro s' h hp hrun hw hw' hd hd'
    have hi := (hrun hb).inv hp
    obtain ⟨hpu, u', hv', h'⟩ := decoderVisit_agrees h hb hp hw hw' hd hd' hi hv
    have f := decoderVisit_frame hb hv
    have f' := decoderVisit_frame (h.phase.trans hb) hv'
    have hru : u.phase = .busy → DecodeRunning u := fun hx => by
      obtain ⟨u2, hv2, hd2⟩ := decoderVisit_progress (hrun hb)
      rw [hv] at hv2
      cases hv2
      rcases hd2 with hd2 | hd2
      · rw [hx] at hd2; cases hd2.1
      · exact hd2.1
    obtain ⟨t', hr', ht'⟩ := ih h' hpu hru (f.wf hw) (f'.wf hw')
      (by rw [f.srcPtr, f.srcLen, f.dstPtr, f.dstLen]; exact hd)
      (by rw [f'.srcPtr, f'.srcLen, f'.dstPtr, f'.dstLen]; exact hd')
    exact ⟨t', .head (h.phase.trans hb) hv' hr', ht'⟩

end Sys2Proof.Machine
end

