-- ==== Sys2Proof/Laws/EncoderVisit.lean ====
section
/-! SUPPORT. What one visit to each label of 43_encoder.md R146 does while its reads and writes are in
bounds, said once as one explicit next state: later proofs cite these equations. -/

namespace Sys2Proof.Machine

open Sys2Proof.Config

variable {s : State}

/-! ### The shared operations in bounds -/

theorem emit_eq {bs : List Byte} (h : s.enc.dp + bs.length ≤ s.dstLen) :
    emit bs s = .next { s with
      mem := writeBytes s.mem (s.dstPtr + s.enc.dp) bs
      enc := { s.enc with dp := s.enc.dp + bs.length } } := by
  rw [emit, if_pos h]

theorem emitLiterals_eq {off len : Nat} (h : off + len ≤ s.srcLen) (h' : s.enc.dp + len ≤ s.dstLen) :
    emitLiterals off len s = .next { s with
      mem := writeBytes s.mem (s.dstPtr + s.enc.dp) (bytesFrom s.mem (s.srcPtr + off) len)
      enc := { s.enc with dp := s.enc.dp + len } } := by
  rw [emitLiterals, if_pos h, emit_eq (by rw [bytesFrom_length]; exact h'), bytesFrom_length]

theorem emitToken_eq (h : s.enc.tokenPos < s.dstLen) :
    emitToken s = .next { s with
      mem := memWrite s.mem (s.dstPtr + s.enc.tokenPos) s.enc.token } := by
  rw [emitToken, if_pos h]

theorem peekSource_eq {i : Nat} (h : i + 4 ≤ s.srcLen) :
    peekSource i s = .next (peekUnit (s.srcPtr + i) s) := by
  rw [peekSource, if_pos h]

theorem lcpSource_eq {p q lim : Nat} (h1 : p ≤ lim) (h2 : lim ≤ s.srcLen)
    (h3 : q + (lim - p) ≤ s.srcLen) :
    lcpSource p q lim s = .next (lcpUnit s.srcPtr p q lim s) := by
  rw [lcpSource, if_pos ⟨h1, h2, h3⟩]

/-- Source bytes after writing inside a disjoint destination (R52). -/
theorem memRead_source_of_writes {bs : List Byte} {j i : Nat} (hj : j + bs.length ≤ s.dstLen)
    (hd : disjointRanges s.srcPtr s.srcLen s.dstPtr s.dstLen = true) (hi : i < s.srcLen) (m : Memory) :
    memRead (writeBytes m (s.dstPtr + j) bs) (s.srcPtr + i) = memRead m (s.srcPtr + i) := by
  apply memRead_writeBytes_of_outside
  have := disjointRanges_outside hd hi
  omega

theorem bytesFrom_source_of_writes {bs : List Byte} {j i n : Nat} (hj : j + bs.length ≤ s.dstLen)
    (hd : disjointRanges s.srcPtr s.srcLen s.dstPtr s.dstLen = true) (hi : i + n ≤ s.srcLen)
    (m : Memory) :
    bytesFrom (writeBytes m (s.dstPtr + j) bs) (s.srcPtr + i) n = bytesFrom m (s.srcPtr + i) n := by
  apply bytesFrom_congr
  intro x hx
  rw [Nat.add_assoc]
  exact memRead_source_of_writes hj hd (by omega) m

/-! ### The labels -/

theorem encScan_stop (h : s.enc.finalLiteralsLimit ≤ s.enc.sp + s.enc.step) :
    encScan s = .next { s with enc := { s.enc with
      sp := s.enc.sp + s.enc.step, estate := .eFinal } } := by
  simp only [encScan]
  rw [if_pos h]
  rfl

/-- What a probe at `sp` reads: the four bytes, their slot and the candidate in it. -/
def probeWord (s : State) (sp : Nat) : Word := memRead32 s.mem (s.srcPtr + sp)
/-- The candidate of a probe at `sp`. -/
def probeMatch (s : State) (sp : Nat) : Nat := (htRead s.ht (hash (probeWord s sp))).toNat
/-- The table after a probe at `sp`. -/
def probeHt (s : State) (sp : Nat) : HashTable :=
  htWrite s.ht (hash (probeWord s sp)) (BitVec.ofNat 32 sp)
/-- The candidate of a probe at `sp` is valid (R136). -/
def probeValid (s : State) (sp : Nat) : Prop :=
  sp - probeMatch s sp ≤ maxOffset ∧ probeWord s sp = memRead32 s.mem (s.srcPtr + probeMatch s sp)


/-- Candidate validity (R136): which way the visit goes on. -/
theorem tryCandidate_eq (x : Word) (valid invalid : State → State)
    (hm : s.enc.matchOff + 4 ≤ s.srcLen) :
    ∃ pk,
      (s.enc.sp - s.enc.matchOff ≤ maxOffset ∧ x = memRead32 s.mem (s.srcPtr + s.enc.matchOff)) ∧
        tryCandidate x valid invalid s = .next (valid { s with peek := pk }) ∨
      ¬ (s.enc.sp - s.enc.matchOff ≤ maxOffset ∧ x = memRead32 s.mem (s.srcPtr + s.enc.matchOff)) ∧
        tryCandidate x valid invalid s = .next (invalid { s with peek := pk }) := by
  rw [tryCandidate]
  by_cases h1 : s.enc.sp - s.enc.matchOff ≤ maxOffset
  · refine ⟨⟨s.srcPtr + s.enc.matchOff, memRead32 s.mem (s.srcPtr + s.enc.matchOff)⟩, ?_⟩
    rw [if_pos h1, peekSource_eq hm, andThen_next]
    by_cases h2 : x = memRead32 s.mem (s.srcPtr + s.enc.matchOff)
    · exact .inl ⟨⟨h1, h2⟩, congrArg _ (if_pos h2)⟩
    · exact .inr ⟨fun h => h2 h.2, congrArg _ (if_neg h2)⟩
  · refine ⟨s.peek, .inr ⟨fun h => h1 h.1, ?_⟩⟩
    rw [if_neg h1]

/-- A probe of the scan: the slot is replaced, and a valid candidate leaves the scan (R135, R136). -/
theorem encScan_probe (h : ¬ s.enc.finalLiteralsLimit ≤ s.enc.sp + s.enc.step)
    (hin : s.enc.sp + s.enc.step + 4 ≤ s.srcLen)
    (hm : probeMatch s (s.enc.sp + s.enc.step) + 4 ≤ s.srcLen) :
    ∃ pk e, encScan s = .next { s with
      peek := pk
      ht := probeHt s (s.enc.sp + s.enc.step)
      enc := { s.enc with
        sp := s.enc.sp + s.enc.step
        matchOff := probeMatch s (s.enc.sp + s.enc.step)
        step := s.enc.stepCounter >>> stepShift
        stepCounter := s.enc.stepCounter + 1
        estate := e } } ∧
      (e = .eBackward ∧ probeValid s (s.enc.sp + s.enc.step) ∨
        e = .eScan ∧ ¬ probeValid s (s.enc.sp + s.enc.step)) := by
  simp only [encScan]
  rw [if_neg h, peekSource_eq (by exact hin), andThen_next]
  obtain ⟨pk, ⟨hv, hpk⟩ | ⟨hv, hpk⟩⟩ := tryCandidate_eq
    (s := nextStride (probeTable (probeWord s (s.enc.sp + s.enc.step))
      (peekUnit (s.srcPtr + (s.enc.sp + s.enc.step))
        { s with enc := { s.enc with sp := s.enc.sp + s.enc.step } })))
    (probeWord s (s.enc.sp + s.enc.step)) (State.encGoto .eBackward) (State.encGoto .eScan) hm
  · exact ⟨pk, .eBackward, hpk, .inl ⟨rfl, hv⟩⟩
  · exact ⟨pk, .eScan, hpk, .inr ⟨rfl, hv⟩⟩

/-- The immediate-follow check (R144): a match with no literals, or back to the scan. -/
theorem encFollow_eq (hin : s.enc.sp + 4 ≤ s.srcLen) (hm : probeMatch s s.enc.sp + 4 ≤ s.srcLen) :
    ∃ pk,
      probeValid s s.enc.sp ∧ encFollow s = .next { s with
          peek := pk
          ht := probeHt s s.enc.sp
          enc := { s.enc with
            matchOff := probeMatch s s.enc.sp
            tokenPos := s.enc.dp
            dp := s.enc.dp + 1
            token := 0x00#8
            estate := .eMatch } } ∨
      ¬ probeValid s s.enc.sp ∧ encFollow s = .next { s with
          peek := pk
          ht := probeHt s s.enc.sp
          enc := { s.enc with matchOff := probeMatch s s.enc.sp, estate := .eScanInit } } := by
  simp only [encFollow]
  rw [peekSource_eq hin, andThen_next]
  obtain ⟨pk, hpk⟩ := tryCandidate_eq
    (s := probeTable (probeWord s s.enc.sp) (peekUnit (s.srcPtr + s.enc.sp) s))
    (probeWord s s.enc.sp) followMatch (State.encGoto .eScanInit) hm
  exact ⟨pk, hpk⟩

theorem encBackfill_eq (hin : s.enc.sp - 2 + 4 ≤ s.srcLen) :
    ∃ pk, encBackfill s = .next { s with
      peek := pk
      ht := probeHt s (s.enc.sp - 2)
      enc := { s.enc with estate := .eFollow } } := by
  simp only [encBackfill]
  rw [peekSource_eq hin, andThen_next]
  exact ⟨_, rfl⟩

theorem encBackward_eq (h1 : s.enc.sp ≤ s.srcLen) (h2 : s.enc.matchOff ≤ s.srcLen) :
    encBackward s = .next { s with enc := { s.enc with
      sp := s.enc.sp -
        backwardCount s.mem s.srcPtr s.enc.literalStart s.enc.matchOff s.enc.sp
      matchOff := s.enc.matchOff -
        backwardCount s.mem s.srcPtr s.enc.literalStart s.enc.matchOff s.enc.sp
      estate := .eToken } } := by
  simp only [encBackward]
  rw [if_pos ⟨h1, h2⟩]

/-- Token reserved, literal-length run and literals written (R139). -/
theorem encToken_eq (hd : disjointRanges s.srcPtr s.srcLen s.dstPtr s.dstLen = true)
    (hls : s.enc.literalStart ≤ s.enc.sp) (hsp : s.enc.sp ≤ s.srcLen)
    (hroom : s.enc.dp + 1 + (lengthBytes (s.enc.sp - s.enc.literalStart)).length +
      (s.enc.sp - s.enc.literalStart) ≤ s.dstLen) :
    encToken s = .next { s with
      mem := writeBytes s.mem (s.dstPtr + (s.enc.dp + 1))
        (lengthBytes (s.enc.sp - s.enc.literalStart) ++
          bytesFrom s.mem (s.srcPtr + s.enc.literalStart) (s.enc.sp - s.enc.literalStart))
      enc := { s.enc with
        literalLen := s.enc.sp - s.enc.literalStart
        tokenPos := s.enc.dp
        token := literalToken (s.enc.sp - s.enc.literalStart)
        dp := s.enc.dp + 1 + (lengthBytes (s.enc.sp - s.enc.literalStart)).length +
          (s.enc.sp - s.enc.literalStart)
        estate := .eMatch } } := by
  simp only [encToken]
  rw [emit_eq (by simp only [reserveToken]; omega), andThen_next,
    emitLiterals_eq (by simp only [reserveToken]; omega) (by simp only [reserveToken]; omega),
    andThen_next]
  simp only [reserveToken, State.encGoto]
  rw [bytesFrom_source_of_writes (s := s) (by omega) hd (by omega), writeBytes_append, Nat.add_assoc
    s.dstPtr]

/-- The length the scanner finds at `E_MATCH` (R141). -/
def matchExtra (s : State) : Nat :=
  lcpCount s.mem (s.srcPtr + (s.enc.sp + 4)) (s.srcPtr + (s.enc.matchOff + 4))
    (s.srcPtr + s.enc.matchLimit)

/-- The lcp over source offsets after writing inside a disjoint destination. -/
theorem lcpCount_source_of_writes {bs : List Byte} {j p q lim : Nat} (hj : j + bs.length ≤ s.dstLen)
    (hd : disjointRanges s.srcPtr s.srcLen s.dstPtr s.dstLen = true) (h1 : p ≤ lim)
    (h2 : lim ≤ s.srcLen) (h3 : q + (lim - p) ≤ s.srcLen) (m : Memory) :
    lcpCount (writeBytes m (s.dstPtr + j) bs) (s.srcPtr + p) (s.srcPtr + q) (s.srcPtr + lim) =
      lcpCount m (s.srcPtr + p) (s.srcPtr + q) (s.srcPtr + lim) := by
  have e : s.srcPtr + lim = s.srcPtr + p + (lim - p) := by omega
  rw [e]
  apply lcpCount_congr <;>
  · intro i hi
    rw [Nat.add_assoc]
    exact memRead_source_of_writes hj hd (by omega) m

/-- Offset, match-length run and token written, `sp` past the match (R141). -/
theorem encMatch_eq (hd : disjointRanges s.srcPtr s.srcLen s.dstPtr s.dstLen = true)
    (h1 : s.enc.sp + 4 ≤ s.enc.matchLimit) (h2 : s.enc.matchLimit ≤ s.srcLen)
    (h3 : s.enc.matchOff ≤ s.enc.sp)
    (hroom : s.enc.dp + 2 + (lengthBytes (matchExtra s)).length ≤ s.dstLen)
    (htok : s.enc.tokenPos < s.dstLen) :
    encMatch s = .next { s with
      mem := memWrite (writeBytes s.mem (s.dstPtr + s.enc.dp)
        (offsetBytes (s.enc.sp - s.enc.matchOff) ++ lengthBytes (matchExtra s)))
        (s.dstPtr + s.enc.tokenPos) (s.enc.token ||| matchNibble (matchExtra s))
      lcp := { p := s.enc.sp + 4, q := s.enc.matchOff + 4, pLimit := s.enc.matchLimit
               k := matchExtra s }
      enc := { s.enc with
        copyOff := BitVec.ofNat 16 (s.enc.sp - s.enc.matchOff)
        adjCopyLen := matchExtra s
        token := s.enc.token ||| matchNibble (matchExtra s)
        dp := s.enc.dp + 2 + (lengthBytes (matchExtra s)).length
        sp := s.enc.sp + 4 + matchExtra s
        estate := .eAdvance } } := by
  simp only [encMatch]
  rw [emit_eq (by simp only [List.length_cons, List.length_nil]; omega), andThen_next]
  dsimp only
  rw [lcpSource_eq (by exact h1) (by exact h2) (by dsimp only; omega), andThen_next]
  have hk : lcpCount (writeBytes s.mem (s.dstPtr + s.enc.dp)
      (offsetBytes (s.enc.sp - s.enc.matchOff))) (s.srcPtr + (s.enc.sp + 4))
      (s.srcPtr + (s.enc.matchOff + 4)) (s.srcPtr + s.enc.matchLimit) = matchExtra s :=
    lcpCount_source_of_writes (s := s) (by simp; omega) hd h1 h2 (by omega) s.mem
  simp only [offsetBytes] at hk
  simp only [lcpUnit, hk]
  rw [emit_eq (by simp only [List.length_cons, List.length_nil]; omega), andThen_next]
  dsimp only
  rw [emitToken_eq (by simpa using htok), andThen_next]
  rw [writeBytes_append, Nat.add_assoc s.dstPtr]
  rfl

/-- The final literals, and the end of the command (R145). -/
theorem encFinal_eq (hd : disjointRanges s.srcPtr s.srcLen s.dstPtr s.dstLen = true)
    (hls : s.enc.literalStart ≤ s.srcLen)
    (hroom : s.enc.dp + 1 + (lengthBytes (s.srcLen - s.enc.literalStart)).length +
      (s.srcLen - s.enc.literalStart) ≤ s.dstLen) :
    encFinal s = .next (ret
      (s.enc.dp + 1 + (lengthBytes (s.srcLen - s.enc.literalStart)).length +
        (s.srcLen - s.enc.literalStart))
      { s with
        mem := writeBytes s.mem (s.dstPtr + s.enc.dp)
          (literalToken (s.srcLen - s.enc.literalStart) ::
            (lengthBytes (s.srcLen - s.enc.literalStart) ++
              bytesFrom s.mem (s.srcPtr + s.enc.literalStart) (s.srcLen - s.enc.literalStart)))
        enc := { s.enc with
          finalLiteralLen := s.srcLen - s.enc.literalStart
          dp := s.enc.dp + 1 + (lengthBytes (s.srcLen - s.enc.literalStart)).length +
            (s.srcLen - s.enc.literalStart) } }) := by
  simp only [encFinal]
  rw [emit_eq (by simp only [List.length_cons]; omega), andThen_next,
    emitLiterals_eq (by simp only; omega) (by simp only [List.length_cons]; omega), andThen_next]
  simp only
  rw [bytesFrom_source_of_writes (s := s) (by simp only [List.length_cons]; omega) hd (by omega)]
  have e : s.enc.dp + (literalToken (s.srcLen - s.enc.literalStart) ::
      lengthBytes (s.srcLen - s.enc.literalStart)).length =
      s.enc.dp + 1 + (lengthBytes (s.srcLen - s.enc.literalStart)).length := by
    simp only [List.length_cons]; omega
  rw [e, ← List.cons_append, writeBytes_append]
  rw [Nat.add_assoc s.dstPtr, e]

end Sys2Proof.Machine
end

