-- ==== Sys2Proof/Laws/EncoderFrame.lean ====
section
/-! SUPPORT. What a visit of the encoder can change (43_encoder.md R130, R149; 20_memory.md R43): the
destination bytes, the encoder's own registers and table and its two units, and how it may end the command. -/

namespace Sys2Proof.Machine

open Sys2Proof.Config

/-- What no visit of the encoder changes. -/
structure EncStable (s t : State) : Prop where
  params : t.params = s.params
  op : t.op = s.op
  dstPtr : t.dstPtr = s.dstPtr
  dstLen : t.dstLen = s.dstLen
  srcPtr : t.srcPtr = s.srcPtr
  srcLen : t.srcLen = s.srcLen
  dec : t.dec = s.dec
  wf : s.mem.wf → t.mem.wf
  htWf : storeWf s.ht → storeWf t.ht
  mem : ∀ a, a < s.dstPtr ∨ s.dstPtr + s.dstLen ≤ a → memRead t.mem a = memRead s.mem a

/-- The parts of a visit leave the result registers too. -/
structure EncQuiet (s t : State) : Prop extends EncStable s t where
  phase : t.phase = s.phase
  status : t.status = s.status
  value : t.value = s.value
  ended : t.ended = s.ended

/-- A visit that ends the command: with `ok` and the number of bytes written, or with an error kind, 0 and
no byte written. -/
structure EncEnds (s t : State) : Prop where
  phase : t.phase = .idle
  ended : t.ended = true
  result : t.status = .ok ∧ t.value = t.enc.dp ∨ t.status ≠ .ok ∧ t.value = 0 ∧ t.mem = s.mem

theorem EncStable.refl (s : State) : EncStable s s :=
  ⟨rfl, rfl, rfl, rfl, rfl, rfl, rfl, id, id, fun _ _ => rfl⟩

theorem EncStable.trans {s u t : State} (h1 : EncStable s u) (h2 : EncStable u t) : EncStable s t :=
  ⟨h2.params.trans h1.params, h2.op.trans h1.op, h2.dstPtr.trans h1.dstPtr, h2.dstLen.trans h1.dstLen,
    h2.srcPtr.trans h1.srcPtr, h2.srcLen.trans h1.srcLen, h2.dec.trans h1.dec, fun h => h2.wf (h1.wf h),
    fun h => h2.htWf (h1.htWf h), fun a ha => by
      rw [h2.mem a (by rw [h1.dstPtr, h1.dstLen]; exact ha), h1.mem a ha]⟩

theorem EncQuiet.trans {s u t : State} (h1 : EncQuiet s u) (h2 : EncQuiet u t) : EncQuiet s t :=
  ⟨h1.toEncStable.trans h2.toEncStable, h2.phase.trans h1.phase, h2.status.trans h1.status,
    h2.value.trans h1.value, h2.ended.trans h1.ended⟩

/-- An update of the encoder's registers, table and units. -/
theorem EncQuiet.update {s : State} (e : EncRegs) (h : HashTable) (hw : storeWf s.ht → storeWf h)
    (pk : PeekRegs) (lc : LcpRegs) :
    EncQuiet s { s with enc := e, ht := h, peek := pk, lcp := lc } :=
  ⟨⟨rfl, rfl, rfl, rfl, rfl, rfl, rfl, id, hw, fun _ _ => rfl⟩, rfl, rfl, rfl, rfl⟩

theorem emit_quiet {bs : List Byte} {s t : State} (h : emit bs s = .next t) : EncQuiet s t := by
  unfold emit at h
  split at h <;> cases h
  exact ⟨⟨rfl, rfl, rfl, rfl, rfl, rfl, rfl, writeBytes_wf _ _ _, id, fun a ha =>
    memRead_writeBytes_of_outside _ _ _ _ (by omega)⟩, rfl, rfl, rfl, rfl⟩

theorem emitLiterals_quiet {off len : Nat} {s t : State} (h : emitLiterals off len s = .next t) :
    EncQuiet s t := by
  unfold emitLiterals at h
  split at h
  · exact emit_quiet h
  · cases h

theorem emitToken_quiet {s t : State} (h : emitToken s = .next t) : EncQuiet s t := by
  unfold emitToken at h
  split at h <;> cases h
  exact ⟨⟨rfl, rfl, rfl, rfl, rfl, rfl, rfl, memWrite_wf _ _ _, id, fun a ha =>
    memRead_write_of_ne _ _ (by omega)⟩, rfl, rfl, rfl, rfl⟩

theorem peekSource_quiet {i : Nat} {s t : State} (h : peekSource i s = .next t) : EncQuiet s t := by
  unfold peekSource at h
  split at h <;> cases h
  exact .update _ _ id _ _

theorem lcpSource_quiet {p q lim : Nat} {s t : State} (h : lcpSource p q lim s = .next t) :
    EncQuiet s t := by
  unfold lcpSource at h
  split at h <;> cases h
  exact .update _ _ id _ _

theorem probeTable_quiet (x : Word) (s : State) : EncQuiet s (probeTable x s) :=
  .update _ _ (storeWrite_wf _ _ _) _ _

theorem tryCandidate_quiet {x : Word} {valid invalid : State → State}
    (hv : ∀ s, EncQuiet s (valid s)) (hi : ∀ s, EncQuiet s (invalid s)) {s t : State}
    (h : tryCandidate x valid invalid s = .next t) : EncQuiet s t := by
  unfold tryCandidate at h
  split at h
  · obtain ⟨u, hu, h⟩ := andThen_eq_next.1 h
    cases h
    refine (peekSource_quiet hu).trans ?_
    split
    · exact hv _
    · exact hi _
  · cases h
    exact hi _

theorem encGoto_quiet (e : EState) (s : State) : EncQuiet s (s.encGoto e) := .update _ _ id _ _

/-- A visit of the encoder changes nothing else, and either goes on or ends the command. -/
theorem encoderVisit_frame {s t : State} (h : encoderVisit s = .next t) :
    EncStable s t ∧
      (t.phase = s.phase ∧ t.status = s.status ∧ t.value = s.value ∧ t.ended = s.ended ∨
        EncEnds s t) := by
  have quiet : ∀ {t : State}, EncQuiet s t → EncStable s t ∧
      (t.phase = s.phase ∧ t.status = s.status ∧ t.value = s.value ∧ t.ended = s.ended ∨
        EncEnds s t) := fun q => ⟨q.toEncStable, .inl ⟨q.phase, q.status, q.value, q.ended⟩⟩
  have stop : ∀ (k : ErrorKind) (e : EncRegs), EncStable s (raise k { s with enc := e }) ∧
      ((raise k { s with enc := e }).phase = s.phase ∧ (raise k { s with enc := e }).status = s.status ∧
        (raise k { s with enc := e }).value = s.value ∧ (raise k { s with enc := e }).ended = s.ended ∨
        EncEnds s (raise k { s with enc := e })) := fun k e =>
    ⟨⟨rfl, rfl, rfl, rfl, rfl, rfl, rfl, id, id, fun _ _ => rfl⟩,
      .inr ⟨rfl, rfl, .inr ⟨by cases k <;> simp [ErrorKind.status], rfl, rfl⟩⟩⟩
  unfold encoderVisit at h
  split at h
  · simp only [encPrecheck] at h
    split at h
    · cases h; exact stop _ s.enc
    · split at h <;> cases h
      · exact stop _ _
      · exact quiet (.update _ _ id _ _)
  · cases h
    exact quiet (.update _ _ (fun _ => ⟨List.Pairwise.nil, by simp⟩) _ _)
  · cases h
    exact quiet (.update _ _ id _ _)
  · simp only [encScan] at h
    split at h
    · cases h; exact quiet (.update _ _ id _ _)
    · obtain ⟨u, hu, h⟩ := andThen_eq_next.1 h
      refine quiet (.trans (.trans (.update (s := s) { s.enc with sp := s.enc.sp + s.enc.step } s.ht id
        s.peek s.lcp) (peekSource_quiet hu)) (.trans ?_ (tryCandidate_quiet (encGoto_quiet _)
          (encGoto_quiet _) h)))
      exact (probeTable_quiet _ _).trans (.update _ _ id _ _)
  · simp only [encBackward] at h
    split at h <;> cases h
    exact quiet (.update _ _ id _ _)
  · simp only [encToken] at h
    obtain ⟨u, hu, h⟩ := andThen_eq_next.1 h
    obtain ⟨v, hv, h⟩ := andThen_eq_next.1 h
    cases h
    refine quiet (.trans (.trans (.trans ?_ (emit_quiet hu)) (emitLiterals_quiet hv)) (encGoto_quiet _ _))
    exact .update _ _ id _ _
  · simp only [encMatch] at h
    obtain ⟨u, hu, h⟩ := andThen_eq_next.1 h
    obtain ⟨v, hv, h⟩ := andThen_eq_next.1 h
    obtain ⟨w, hw, h⟩ := andThen_eq_next.1 h
    obtain ⟨x, hx, h⟩ := andThen_eq_next.1 h
    cases h
    refine quiet (.trans (.trans (.trans (.trans (.trans (.trans ?_ (emit_quiet hu)) (lcpSource_quiet hv))
      ?_) (emit_quiet hw)) (emitToken_quiet hx)) ?_) <;> exact .update _ _ id _ _
  · cases h
    exact quiet (.update _ _ id _ _)
  · simp only [encBackfill] at h
    obtain ⟨u, hu, h⟩ := andThen_eq_next.1 h
    cases h
    exact quiet ((peekSource_quiet hu).trans (.update _ _ (storeWrite_wf _ _ _) _ _))
  · simp only [encFollow] at h
    obtain ⟨u, hu, h⟩ := andThen_eq_next.1 h
    exact quiet (((peekSource_quiet hu).trans (probeTable_quiet _ _)).trans
      (tryCandidate_quiet (fun _ => .update _ _ id _ _) (encGoto_quiet _) h))
  · simp only [encFinal] at h
    obtain ⟨u, hu, h⟩ := andThen_eq_next.1 h
    obtain ⟨v, hv, h⟩ := andThen_eq_next.1 h
    cases h
    have q : EncQuiet s v := .trans (.trans (.update _ _ id _ _) (emit_quiet hu)) (emitLiterals_quiet hv)
    have st := q.toEncStable
    exact ⟨⟨st.params, st.op, st.dstPtr, st.dstLen, st.srcPtr, st.srcLen, st.dec, st.wf, st.htWf, st.mem⟩,
      .inr ⟨rfl, rfl, .inl ⟨rfl, rfl⟩⟩⟩

theorem EncStable.sourceBytes_eq {s t : State} (h : EncStable s t)
    (hd : disjointRanges s.srcPtr s.srcLen s.dstPtr s.dstLen = true) :
    sourceBytes t = sourceBytes s := by
  rw [sourceBytes, h.srcPtr, h.srcLen, sourceBytes]
  exact bytesFrom_congr fun i hi => h.mem _ (disjointRanges_outside hd hi)

theorem Runs.encStable {s t : State} (h : Runs encoderVisit s t) : EncStable s t := by
  induction h with
  | refl s => exact .refl s
  | head _ hv _ ih => exact (encoderVisit_frame hv).1.trans ih

end Sys2Proof.Machine
end

