-- ==== Sys2Proof/Laws/EncoderInv.lean ====
section
/-! SUPPORT. A visit of the encoder keeps the invariants of 43_encoder.md R147 and the destination bound of
R150 item 3, never stops with a fault, and the command ends (R147 item 7). -/

namespace Sys2Proof.Machine

open Sys2Proof.Config

/-! ### The table -/

theorem TableBelow.mono {t : HashTable} {a b : Nat} (h : TableBelow t a) (hab : a ≤ b) :
    TableBelow t b := fun i => Nat.lt_of_lt_of_le (h i) hab

theorem TableBelow.write {t : HashTable} {b : Nat} (h : TableBelow t b) (hw : storeWf t)
    (i : BitVec 12) {v : Nat} (hv : v < b) (hb : v < 2 ^ 32) :
    TableBelow (htWrite t i (BitVec.ofNat 32 v)) b := by
  intro j
  by_cases hj : j = i.toNat
  · subst hj
    rw [htWrite, storeRead_write_self _ _ _ hw, word_ofNat_toNat hb]
    exact hv
  · rw [htWrite, storeRead_write_of_ne _ _ _ _ hj]
    exact h j

theorem tableBelow_cleared {b : Nat} (h : 0 < b) : TableBelow htCleared b := fun _ => h

/-! ### The invariants, label by label -/

/-- The limits of the matcher are set, for a source of more than 12 bytes (R134). -/
def EncLong (s : State) : Prop :=
  shortInput < s.srcLen ∧ s.enc.matchLimit = s.srcLen - matchLimitTail ∧
    s.enc.finalLiteralsLimit = s.srcLen - finalLimitTail

/-- The destination written so far is no more than the source covered by `n` bytes allows (R150 item 3). -/
def EncRoom (s : State) (n : Nat) : Prop := s.enc.dp ≤ n + n / 255

/-- A match of at least `minMatch` bytes at `sp` (R136, R138). -/
def EncMatched (s : State) : Prop :=
  s.enc.literalStart ≤ s.enc.sp ∧ s.enc.sp < s.enc.finalLiteralsLimit ∧
    s.enc.matchOff < s.enc.sp ∧ s.enc.sp - s.enc.matchOff ≤ maxOffset ∧
    ∃ len, minMatch ≤ len ∧ s.enc.sp + len ≤ s.enc.matchLimit ∧
      SourceAgrees s s.enc.sp s.enc.matchOff len ∧ TableBelow s.ht (s.enc.sp + len)

/-- What the invariants say at the label the command is at. -/
def EncClause (s : State) : Prop :=
  match s.enc.estate with
  | .ePrecheck => False
  | .eSetup => shortInput < s.srcLen ∧ s.enc.sp = 0 ∧ s.enc.literalStart = 0 ∧ s.enc.dp = 0
  | .eScanInit => EncLong s ∧ s.enc.literalStart ≤ s.enc.sp ∧ s.enc.sp < s.enc.finalLiteralsLimit ∧
      TableBelow s.ht (s.enc.sp + 1) ∧ EncRoom s s.enc.literalStart
  | .eScan => EncLong s ∧ s.enc.literalStart ≤ s.enc.sp ∧ s.enc.sp < s.enc.finalLiteralsLimit ∧
      TableBelow s.ht (s.enc.sp + 1) ∧ EncRoom s s.enc.literalStart ∧
      1 ≤ s.enc.step ∧ stepCounterInit ≤ s.enc.stepCounter
  | .eBackward => EncLong s ∧ s.enc.literalStart ≤ s.enc.sp ∧ s.enc.sp < s.enc.finalLiteralsLimit ∧
      s.enc.matchOff < s.enc.sp ∧ s.enc.sp - s.enc.matchOff ≤ maxOffset ∧
      SourceAgrees s s.enc.sp s.enc.matchOff minMatch ∧
      TableBelow s.ht (s.enc.sp + minMatch) ∧ EncRoom s s.enc.literalStart
  | .eToken => EncLong s ∧ EncMatched s ∧ EncRoom s s.enc.literalStart
  | .eMatch => EncLong s ∧ EncMatched s ∧
      s.enc.dp ≤ s.enc.sp + s.enc.sp / 255 + 2 ∧ s.enc.tokenPos < s.enc.dp
  | .eAdvance => EncLong s ∧ s.enc.literalStart + minMatch ≤ s.enc.sp ∧ s.enc.sp ≤ s.enc.matchLimit ∧
      TableBelow s.ht s.enc.sp ∧ EncRoom s s.enc.sp
  | .eBackfill | .eFollow => EncLong s ∧ s.enc.literalStart = s.enc.sp ∧ minMatch ≤ s.enc.sp ∧
      s.enc.sp < s.enc.finalLiteralsLimit ∧ TableBelow s.ht s.enc.sp ∧ EncRoom s s.enc.sp
  | .eFinal => (s.srcLen ≤ shortInput → s.enc.literalStart = 0 ∧ s.enc.dp = 0) ∧
      (shortInput < s.srcLen → EncLong s ∧ s.enc.literalStart + matchLimitTail ≤ s.srcLen) ∧
      EncRoom s s.enc.literalStart

theorem encoderInv_iff (s : State) :
    EncoderInv s ↔ s.srcLen ≤ encMaxSrcLen ∧ worstCaseSize s.srcLen ≤ s.dstLen ∧
      s.enc.literalStart ≤ s.srcLen ∧ EncClause s := by
  constructor
  · intro h
    refine ⟨h.srcLimit, h.room, h.start, ?_⟩
    have hlong : ∀ e, s.enc.estate = e → e ≠ .eFinal → e ≠ .eSetup → EncLong s := by
      intro e he h1 h2
      have hs : shortInput < s.srcLen := by
        by_contra hc
        exact h1 (he ▸ (h.shortPath (by omega)).1)
      exact ⟨hs, h.limits hs (he ▸ h2)⟩
    cases he : s.enc.estate <;> simp only [EncClause, he]
    · exact h.past he
    · refine ⟨?_, h.setup he⟩
      by_contra hc
      have := (h.shortPath (by omega)).1
      rw [he] at this; cases this
    · exact ⟨hlong _ he (by simp) (by simp), h.scanning (.inl he)⟩
    · obtain ⟨a, b, c, d⟩ := h.scanning (.inr he)
      exact ⟨hlong _ he (by simp) (by simp), a, b, c, d, h.stride he⟩
    · exact ⟨hlong _ he (by simp) (by simp), h.backward he⟩
    · exact ⟨hlong _ he (by simp) (by simp), h.matched (.inl he), h.tokenRoom he⟩
    · exact ⟨hlong _ he (by simp) (by simp), h.matched (.inr he), h.matchRoom he⟩
    · exact ⟨hlong _ he (by simp) (by simp), h.advanced he⟩
    · exact ⟨hlong _ he (by simp) (by simp), h.following (.inl he)⟩
    · exact ⟨hlong _ he (by simp) (by simp), h.following (.inr he)⟩
    · refine ⟨fun hs => (h.shortPath hs).2, fun hs => ⟨⟨hs, h.limits hs (by simp [he])⟩, ?_⟩,
        (h.final he).1⟩
      exact (h.final he).2 hs
  · rintro ⟨h1, h2, h3, h⟩
    cases he : s.enc.estate <;> simp only [EncClause, he] at h
    · exact ⟨h1, h2, by simp [he], h3, fun hs => absurd h.1 (by omega), fun _ => h.2,
        fun _ hc => absurd he hc, by simp [he], by simp [he], by simp [he], by simp [he], by simp [he],
        by simp [he], by simp [he], by simp [he], by simp [he]⟩
    · exact ⟨h1, h2, by simp [he], h3, fun hs => absurd h.1.1 (by omega), by simp [he],
        fun _ _ => h.1.2, fun _ => h.2, by simp [he], by simp [he], by simp [he], by simp [he],
        by simp [he], by simp [he], by simp [he], by simp [he]⟩
    · exact ⟨h1, h2, by simp [he], h3, fun hs => absurd h.1.1 (by omega), by simp [he],
        fun _ _ => h.1.2, fun _ => ⟨h.2.1, h.2.2.1, h.2.2.2.1, h.2.2.2.2.1⟩,
        fun _ => h.2.2.2.2.2, by simp [he], by simp [he], by simp [he],
        by simp [he], by simp [he], by simp [he], by simp [he]⟩
    · exact ⟨h1, h2, by simp [he], h3, fun hs => absurd h.1.1 (by omega), by simp [he],
        fun _ _ => h.1.2, by simp [he], by simp [he], fun _ => h.2, by simp [he], by simp [he],
        by simp [he], by simp [he], by simp [he], by simp [he]⟩
    · exact ⟨h1, h2, by simp [he], h3, fun hs => absurd h.1.1 (by omega), by simp [he],
        fun _ _ => h.1.2, by simp [he], by simp [he], by simp [he], fun _ => h.2.1, fun _ => h.2.2,
        by simp [he], by simp [he], by simp [he], by simp [he]⟩
    · exact ⟨h1, h2, by simp [he], h3, fun hs => absurd h.1.1 (by omega), by simp [he],
        fun _ _ => h.1.2, by simp [he], by simp [he], by simp [he], fun _ => h.2.1, by simp [he],
        fun _ => h.2.2, by simp [he], by simp [he], by simp [he]⟩
    · exact ⟨h1, h2, by simp [he], h3, fun hs => absurd h.1.1 (by omega), by simp [he],
        fun _ _ => h.1.2, by simp [he], by simp [he], by simp [he], by simp [he], by simp [he],
        by simp [he], fun _ => h.2, by simp [he], by simp [he]⟩
    · exact ⟨h1, h2, by simp [he], h3, fun hs => absurd h.1.1 (by omega), by simp [he],
        fun _ _ => h.1.2, by simp [he], by simp [he], by simp [he], by simp [he], by simp [he],
        by simp [he], by simp [he], fun _ => h.2, by simp [he]⟩
    · exact ⟨h1, h2, by simp [he], h3, fun hs => absurd h.1.1 (by omega), by simp [he],
        fun _ _ => h.1.2, by simp [he], by simp [he], by simp [he], by simp [he], by simp [he],
        by simp [he], by simp [he], fun _ => h.2, by simp [he]⟩
    · exact ⟨h1, h2, by simp [he], h3, fun hs => ⟨he, h.1 hs⟩, by simp [he],
        fun hs _ => (h.2.1 hs).1.2, by simp [he], by simp [he], by simp [he], by simp [he], by simp [he],
        by simp [he], by simp [he], by simp [he], fun _ => ⟨h.2.2, fun hs => (h.2.1 hs).2⟩⟩

/-- What every visit of the encoder lowers (R147 item 7): the source not yet covered by a sequence, and
within a sequence the cursor and the label. -/
def encMeasure (s : State) : Nat :=
  match s.enc.estate with
  | .ePrecheck => (s.srcLen + 1) * (s.srcLen + 20) + 40
  | .eSetup => s.srcLen * (s.srcLen + 20) + s.srcLen + 16
  | .eScanInit => (s.srcLen - s.enc.literalStart) * (s.srcLen + 20) + (s.srcLen - s.enc.sp) + 12
  | .eScan => (s.srcLen - s.enc.literalStart) * (s.srcLen + 20) + (s.srcLen - s.enc.sp) + 11
  | .eBackward => (s.srcLen - s.enc.literalStart) * (s.srcLen + 20) + 4
  | .eToken => (s.srcLen - s.enc.literalStart) * (s.srcLen + 20) + 3
  | .eMatch => (s.srcLen - s.enc.literalStart) * (s.srcLen + 20) + 2
  | .eAdvance => (s.srcLen - s.enc.literalStart) * (s.srcLen + 20) + 1
  | .eBackfill => (s.srcLen - s.enc.literalStart) * (s.srcLen + 20) + s.srcLen + 15
  | .eFollow => (s.srcLen - s.enc.literalStart) * (s.srcLen + 20) + s.srcLen + 14
  | .eFinal => 0

theorem sourceAgrees_of_valid {s : State} {sp : Nat} (h : probeValid s sp) :
    SourceAgrees s sp (probeMatch s sp) minMatch := by
  intro x hx
  have := (memRead32_eq_iff _ _ _ _).1 h.2 x hx
  rwa [Nat.add_assoc, Nat.add_assoc] at this

/-- An encode that has just been started on disjoint ranges is running (R25). -/
theorem encodeRunning_begin {s : State} (hb : s.phase = .busy)
    (hd : disjointRanges s.srcPtr s.srcLen s.dstPtr s.dstLen = true) : EncodeRunning (beginEncode s) :=
  ⟨hb, hd, .inl ⟨rfl, rfl, rfl, rfl⟩⟩

theorem EncodeRunning.inv {s : State} (hr : EncodeRunning s) (he : s.enc.estate ≠ .ePrecheck) :
    EncoderInv s := hr.2.2.resolve_left fun h => he h.1

/-- From a running encode a visit gives a next state: it ends the command within the
destination, or the invariants hold again and the measure is lower. -/
theorem encoderVisit_progress {s : State} (hr : EncodeRunning s) (hht : storeWf s.ht) :
    ∃ t, encoderVisit s = .next t ∧
      (t.phase = .idle ∧ t.value ≤ worstCaseSize s.srcLen ∧ t.value ≤ s.dstLen ∨
        (EncodeRunning t ∧ encMeasure t < encMeasure s)) := by
  obtain ⟨hb, hdis, hi⟩ := hr
  have mk : ∀ t : State, encoderVisit s = .next t →
      EncClause t → t.enc.literalStart ≤ s.srcLen → s.srcLen ≤ encMaxSrcLen →
      worstCaseSize s.srcLen ≤ s.dstLen → encMeasure t < encMeasure s →
      t.phase = s.phase →
      ∃ t, encoderVisit s = .next t ∧
        (t.phase = .idle ∧ t.value ≤ worstCaseSize s.srcLen ∧ t.value ≤ s.dstLen ∨
        (EncodeRunning t ∧ encMeasure t < encMeasure s)) := by
    intro t ht hc hls h1 h2 hm hp
    have st := (encoderVisit_frame ht).1
    refine ⟨t, ht, .inr ⟨⟨by rw [hp, hb], ?_, .inr ((encoderInv_iff t).2 ⟨?_, ?_, ?_, hc⟩)⟩, hm⟩⟩
    · rw [st.srcPtr, st.srcLen, st.dstPtr, st.dstLen]; exact hdis
    · rw [st.srcLen]; exact h1
    · rw [st.srcLen, st.dstLen]; exact h2
    · rw [st.srcLen]; exact hls
  rcases hi with ⟨he, -, -, -⟩ | hi
  · have hv : encoderVisit s = encPrecheck s := by simp only [encoderVisit, he]
    by_cases h1 : encMaxSrcLen < s.srcLen
    · rw [encPrecheck, if_pos h1] at hv
      exact ⟨_, hv, .inl ⟨rfl, Nat.zero_le _, Nat.zero_le _⟩⟩
    · rw [encPrecheck, if_neg h1] at hv
      by_cases h2 : s.dstLen < worstCaseSize s.srcLen
      · simp only [if_pos h2] at hv
        exact ⟨_, hv, .inl ⟨rfl, Nat.zero_le _, Nat.zero_le _⟩⟩
      · simp only [if_neg h2] at hv
        refine mk _ hv ?_ (by simp) (by omega) (by omega) ?_ rfl
        · by_cases h3 : s.srcLen ≤ shortInput
          · simp only [EncClause, if_pos h3]
            exact ⟨fun _ => by simp, fun h => absurd h3 (by omega), by simp [EncRoom]⟩
          · simp only [EncClause, if_neg h3]
            exact ⟨by omega, by simp⟩
        · have hm : encMeasure s = (s.srcLen + 1) * (s.srcLen + 20) + 40 := by
            simp only [encMeasure, he]
          rw [hm]
          by_cases h3 : s.srcLen ≤ shortInput
          · simp only [encMeasure, if_pos h3]; omega
          · simp only [encMeasure, if_neg h3, Nat.add_mul]; omega
  rw [encoderInv_iff] at hi
  obtain ⟨hlim, hroom, hstart, hc⟩ := hi
  have hlim' : s.srcLen ≤ 0x7E000000 := hlim
  have hwc : s.srcLen + s.srcLen / 255 + 16 ≤ s.dstLen := hroom
  cases he : s.enc.estate with
  | ePrecheck => simp only [EncClause, he] at hc
  | eSetup =>
    simp only [EncClause, he] at hc
    obtain ⟨hs, h0, hl, hd⟩ := hc
    simp only [shortInput] at hs
    have hv : encoderVisit s = encSetup s := by simp only [encoderVisit, he]
    refine mk _ hv ?_ hstart hlim hroom ?_ rfl
    · simp only [EncClause, EncLong, EncRoom]
      refine ⟨⟨hs, by simp⟩, by omega, ?_, tableBelow_cleared (by omega), by omega⟩
      simp only [finalLimitTail]; omega
    · simp only [encMeasure, he, hl, h0, Nat.sub_zero]; omega
  | eScanInit =>
    simp only [EncClause, he] at hc
    obtain ⟨hL, h1, h2, h3, h4⟩ := hc
    have hv : encoderVisit s = encScanInit s := by simp only [encoderVisit, he]
    refine mk _ hv ?_ hstart hlim hroom ?_ rfl
    · simp only [EncClause]
      exact ⟨hL, h1, h2, h3, h4, by omega, by omega⟩
    · simp only [encMeasure, he]; omega
  | eScan =>
    simp only [EncClause, he] at hc
    obtain ⟨hL, h1, h2, h3, h4, h5, h6⟩ := hc
    obtain ⟨hs, hml, hfl⟩ := hL
    have hv : encoderVisit s = encScan s := by simp only [encoderVisit, he]
    simp only [shortInput, matchLimitTail, finalLimitTail, stepCounterInit] at hs hml hfl h6
    by_cases hstop : s.enc.finalLiteralsLimit ≤ s.enc.sp + s.enc.step
    · rw [encScan_stop hstop] at hv
      refine mk _ hv ?_ hstart hlim hroom ?_ rfl
      · simp only [EncClause]
        exact ⟨fun h => absurd h (by simp only [shortInput]; omega),
          fun _ => ⟨⟨hs, hml, hfl⟩, by simp only [matchLimitTail]; omega⟩, h4⟩
      · simp only [encMeasure, he]; omega
    · have hpm : probeMatch s (s.enc.sp + s.enc.step) < s.enc.sp + s.enc.step :=
        Nat.lt_of_lt_of_le (h3 _) (by omega)
      obtain ⟨pk, e, hpk, hcase⟩ := encScan_probe hstop (by omega) (by omega)
      rw [hpk] at hv
      have htab : TableBelow (probeHt s (s.enc.sp + s.enc.step)) (s.enc.sp + s.enc.step + 1) :=
        (h3.mono (by omega)).write hht _ (by omega) (by omega)
      rcases hcase with ⟨rfl, hval⟩ | ⟨rfl, hval⟩
      · refine mk _ hv ?_ hstart hlim hroom ?_ rfl
        · simp only [EncClause]
          exact ⟨⟨hs, hml, hfl⟩, by omega, by omega, hpm, hval.1, sourceAgrees_of_valid hval,
            htab.mono (by simp), h4⟩
        · simp only [encMeasure, he]; omega
      · refine mk _ hv ?_ hstart hlim hroom ?_ rfl
        · simp only [EncClause]
          refine ⟨⟨hs, hml, hfl⟩, by omega, by omega, htab, h4, ?_, by simp only [stepCounterInit]; omega⟩
          rw [Nat.shiftRight_eq_div_pow, Nat.le_div_iff_mul_le (by decide)]
          simp only [stepShift]; omega
        · simp only [encMeasure, he]; omega
  | eBackward =>
    simp only [EncClause, he] at hc
    obtain ⟨⟨hs, hml, hfl⟩, h1, h2, h3, h4, h5, h6, h7⟩ := hc
    simp only [shortInput, matchLimitTail, finalLimitTail, minMatch] at hs hml hfl h6
    have hv : encoderVisit s = encBackward s := by simp only [encoderVisit, he]
    rw [encBackward_eq (by omega) (by omega)] at hv
    obtain ⟨b1, b2, b3⟩ := backwardCount_spec s.mem s.srcPtr s.enc.literalStart s.enc.matchOff s.enc.sp
    replace b2 := b2 h1
    revert hv b1 b2 b3
    generalize backwardCount s.mem s.srcPtr s.enc.literalStart s.enc.matchOff s.enc.sp = b
    intro hv b1 b3 b2
    refine mk _ hv ?_ hstart hlim hroom ?_ rfl
    · simp only [EncClause, EncMatched, EncLong]
      refine ⟨⟨hs, hml, hfl⟩, ⟨by omega, by omega, by omega, by omega, b + 4, by simp, by omega, ?_, ?_⟩,
        h7⟩
      · intro x hx
        show memRead s.mem (s.srcPtr + (s.enc.sp - b + x)) =
          memRead s.mem (s.srcPtr + (s.enc.matchOff - b + x))
        by_cases hxb : x < b
        · have := b3 (b - 1 - x) (by omega)
          rwa [show s.enc.sp - 1 - (b - 1 - x) = s.enc.sp - b + x by omega,
            show s.enc.matchOff - 1 - (b - 1 - x) = s.enc.matchOff - b + x by omega] at this
        · have := h5 (x - b) (by simp only [minMatch]; omega)
          rwa [show s.enc.sp + (x - b) = s.enc.sp - b + x by omega,
            show s.enc.matchOff + (x - b) = s.enc.matchOff - b + x by omega] at this
      · exact h6.mono (by omega)
    · simp only [encMeasure, he]; omega
  | eToken =>
    simp only [EncClause, he] at hc
    obtain ⟨⟨hs, hml, hfl⟩, ⟨h1, h2, h3, h4, len, h5, h6, h7, h8⟩, h9⟩ := hc
    simp only [shortInput, matchLimitTail, finalLimitTail, minMatch] at hs hml hfl h5
    simp only [EncRoom] at h9
    have hlb := lengthBytes_length (s.enc.sp - s.enc.literalStart)
    have hbound : s.enc.dp + 1 + (lengthBytes (s.enc.sp - s.enc.literalStart)).length +
        (s.enc.sp - s.enc.literalStart) ≤ s.enc.sp + s.enc.sp / 255 + 2 := by
      rw [hlb]; split <;> omega
    have hv : encoderVisit s = encToken s := by simp only [encoderVisit, he]
    rw [encToken_eq hdis h1 (by omega) (by omega)] at hv
    refine mk _ hv ?_ hstart hlim hroom ?_ rfl
    · simp only [EncClause, EncMatched, EncLong]
      refine ⟨⟨hs, hml, hfl⟩, ⟨h1, h2, h3, h4, len, by omega, h6, ?_, h8⟩, by omega, by omega⟩
      intro x hx
      have hlen : (lengthBytes (s.enc.sp - s.enc.literalStart) ++
          bytesFrom s.mem (s.srcPtr + s.enc.literalStart) (s.enc.sp - s.enc.literalStart)).length =
          (lengthBytes (s.enc.sp - s.enc.literalStart)).length + (s.enc.sp - s.enc.literalStart) := by
        simp
      have := h7 x hx
      rw [← memRead_source_of_writes (s := s) (j := s.enc.dp + 1) (bs := lengthBytes
          (s.enc.sp - s.enc.literalStart) ++
          bytesFrom s.mem (s.srcPtr + s.enc.literalStart) (s.enc.sp - s.enc.literalStart))
          (by omega) hdis (by omega) s.mem,
        ← memRead_source_of_writes (s := s) (j := s.enc.dp + 1) (bs := lengthBytes
          (s.enc.sp - s.enc.literalStart) ++
          bytesFrom s.mem (s.srcPtr + s.enc.literalStart) (s.enc.sp - s.enc.literalStart))
          (by omega) hdis (by omega) s.mem] at this
      exact this
    · simp only [encMeasure, he]; omega
  | eMatch =>
    simp only [EncClause, he] at hc
    obtain ⟨⟨hs, hml, hfl⟩, ⟨h1, h2, h3, h4, len, h5, h6, h7, h8⟩, h9, h10⟩ := hc
    simp only [shortInput, matchLimitTail, finalLimitTail, minMatch] at hs hml hfl h5
    have hk1 : s.enc.sp + 4 + matchExtra s ≤ s.enc.matchLimit := by
      have := lcpCount_le s.mem (p := s.srcPtr + (s.enc.sp + 4)) (lim := s.srcPtr + s.enc.matchLimit)
        (s.srcPtr + (s.enc.matchOff + 4)) (by omega)
      simp only [matchExtra]; omega
    have hk2 : len - 4 ≤ matchExtra s := by
      refine le_lcpCount _ _ (by omega) fun i hi => ?_
      have := h7 (4 + i) (by omega)
      rwa [show s.srcPtr + (s.enc.sp + 4) + i = s.srcPtr + (s.enc.sp + (4 + i)) by omega,
        show s.srcPtr + (s.enc.matchOff + 4) + i = s.srcPtr + (s.enc.matchOff + (4 + i)) by omega]
    have hlb := lengthBytes_length (matchExtra s)
    have hbound : s.enc.dp + 2 + (lengthBytes (matchExtra s)).length ≤
        (s.enc.sp + 4 + matchExtra s) + (s.enc.sp + 4 + matchExtra s) / 255 := by
      rw [hlb]; split <;> omega
    have hv : encoderVisit s = encMatch s := by simp only [encoderVisit, he]
    rw [encMatch_eq hdis (by omega) (by omega) (by omega) (by omega) (by omega)] at hv
    refine mk _ hv ?_ hstart hlim hroom ?_ rfl
    · simp only [EncClause, EncLong, EncRoom]
      exact ⟨⟨hs, hml, hfl⟩, by simp only [minMatch]; omega, by omega, h8.mono (by omega), hbound⟩
    · simp only [encMeasure, he]; omega
  | eAdvance =>
    simp only [EncClause, he] at hc
    obtain ⟨⟨hs, hml, hfl⟩, h1, h2, h3, h4⟩ := hc
    simp only [shortInput, matchLimitTail, finalLimitTail, minMatch] at hs hml hfl h1
    have hv : encoderVisit s = encAdvance s := by simp only [encoderVisit, he]
    refine mk _ hv ?_ (by simp only; omega) hlim hroom ?_ rfl
    · by_cases hstop : s.enc.finalLiteralsLimit ≤ s.enc.sp
      · simp only [EncClause, if_pos hstop]
        exact ⟨fun h => absurd h (by simp only [shortInput]; omega),
          fun _ => ⟨⟨hs, hml, hfl⟩, by simp only [matchLimitTail]; omega⟩, h4⟩
      · simp only [EncClause, if_neg hstop]
        exact ⟨⟨hs, hml, hfl⟩, by simp, by simp only [minMatch]; omega, by omega, h3, h4⟩
    · have hmul : (s.srcLen - s.enc.sp) * (s.srcLen + 20) + 4 * (s.srcLen + 20) ≤
          (s.srcLen - s.enc.literalStart) * (s.srcLen + 20) := by
        rw [← Nat.add_mul]
        exact Nat.mul_le_mul_right _ (by omega)
      by_cases hstop : s.enc.finalLiteralsLimit ≤ s.enc.sp
      · simp only [encMeasure, he, if_pos hstop]; omega
      · simp only [encMeasure, he, if_neg hstop]; omega
  | eBackfill =>
    simp only [EncClause, he] at hc
    obtain ⟨⟨hs, hml, hfl⟩, h1, h2, h3, h4, h5⟩ := hc
    simp only [shortInput, matchLimitTail, finalLimitTail, minMatch] at hs hml hfl h2
    have hv : encoderVisit s = encBackfill s := by simp only [encoderVisit, he]
    obtain ⟨pk, hpk⟩ := encBackfill_eq (s := s) (by omega)
    rw [hpk] at hv
    refine mk _ hv ?_ hstart hlim hroom ?_ rfl
    · simp only [EncClause, EncLong]
      exact ⟨⟨hs, hml, hfl⟩, h1, by simp only [minMatch]; omega, h3,
        h4.write hht _ (by omega) (by omega), h5⟩
    · simp only [encMeasure, he]; omega
  | eFollow =>
    simp only [EncClause, he] at hc
    obtain ⟨⟨hs, hml, hfl⟩, h1, h2, h3, h4, h5⟩ := hc
    simp only [shortInput, matchLimitTail, finalLimitTail, minMatch] at hs hml hfl h2
    simp only [EncRoom] at h5
    have hv : encoderVisit s = encFollow s := by simp only [encoderVisit, he]
    have hpm : probeMatch s s.enc.sp < s.enc.sp := h4 _
    have htab : TableBelow (probeHt s s.enc.sp) (s.enc.sp + 1) :=
      (h4.mono (by omega)).write hht _ (by omega) (by omega)
    obtain ⟨pk, ⟨hval, hpk⟩ | ⟨hval, hpk⟩⟩ := encFollow_eq (s := s) (by omega) (by omega)
    · rw [hpk] at hv
      refine mk _ hv ?_ hstart hlim hroom ?_ rfl
      · simp only [EncClause, EncMatched, EncLong]
        exact ⟨⟨hs, hml, hfl⟩, ⟨by omega, h3, hpm, hval.1, 4, by simp, by omega,
          sourceAgrees_of_valid hval, htab.mono (by omega)⟩, by omega, by omega⟩
      · simp only [encMeasure, he]; omega
    · rw [hpk] at hv
      refine mk _ hv ?_ hstart hlim hroom ?_ rfl
      · simp only [EncClause, EncLong, EncRoom]
        exact ⟨⟨hs, hml, hfl⟩, by omega, h3, htab, by rw [h1]; exact h5⟩
      · simp only [encMeasure, he]; omega
  | eFinal =>
    simp only [EncClause, he] at hc
    obtain ⟨-, -, h3⟩ := hc
    simp only [EncRoom] at h3
    have hlb := lengthBytes_length (s.srcLen - s.enc.literalStart)
    have hbound : s.enc.dp + 1 + (lengthBytes (s.srcLen - s.enc.literalStart)).length +
        (s.srcLen - s.enc.literalStart) ≤ s.srcLen + s.srcLen / 255 + 2 := by
      rw [hlb]; split <;> omega
    have hv : encoderVisit s = encFinal s := by simp only [encoderVisit, he]
    rw [encFinal_eq hdis hstart (by omega)] at hv
    refine ⟨_, hv, .inl ⟨rfl, ?_, ?_⟩⟩ <;> simp only [ret_value, worstCaseSize, wcDiv, wcAdd] <;> omega

/-- An encode started on any disjoint operands ends (R147 item 7, R204). -/
theorem encode_ends (s : State) (hb : s.phase = .busy) (hht : storeWf s.ht)
    (hd : disjointRanges s.srcPtr s.srcLen s.dstPtr s.dstLen = true) :
    ∃ t, runToEnd encoderVisit (encodeFuel s) (beginEncode s) = .next t := by
  refine runToEnd_total (P := fun s => EncodeRunning s ∧ storeWf s.ht) (μ := encMeasure)
    (fun s _ hr => ?_) ⟨encodeRunning_begin hb hd, hht⟩ ?_
  · obtain ⟨t, ht, h⟩ := encoderVisit_progress hr.1 hr.2
    refine ⟨t, ht, h.imp And.left fun h => ⟨⟨h.1, (encoderVisit_frame ht).1.htWf hr.2⟩, h.2⟩⟩
  · show (s.srcLen + 1) * (s.srcLen + 20) + 40 < (s.srcLen + 2) * (s.srcLen + 20) + 50
    simp only [Nat.add_mul]; omega

end Sys2Proof.Machine
end

