-- ==== Sys2Proof/Laws/EncoderBlock.lean ====
section
/-! SUPPORT. What the encoder writes (43_encoder.md R130, R150 items 1, 2 and 4): at every label the
destination so far is the bytes of legal sequences that decode to the source covered so far, and the command
ends with a legal block that decodes to the source. -/

namespace Sys2Proof.Machine

open Sys2Proof.Config

/-- What the destination holds at a label, `qs` the sequences written so far. -/
def EncWritten (s : State) (qs : List LzSeq) : Prop :=
  match s.enc.estate with
  | .ePrecheck => True
  | .eMatch =>
      expandSeqs qs = (sourceBytes s).take s.enc.literalStart ∧
      destinationBytes s s.enc.tokenPos = qs.flatMap LzSeq.bytes ∧
      s.enc.token = literalToken (s.enc.sp - s.enc.literalStart) ∧
      s.enc.dp = s.enc.tokenPos + 1 + ((lengthBytes (s.enc.sp - s.enc.literalStart)).length +
        (s.enc.sp - s.enc.literalStart)) ∧
      bytesFrom s.mem (s.dstPtr + (s.enc.tokenPos + 1))
        ((lengthBytes (s.enc.sp - s.enc.literalStart)).length + (s.enc.sp - s.enc.literalStart)) =
        lengthBytes (s.enc.sp - s.enc.literalStart) ++
          bytesFrom s.mem (s.srcPtr + s.enc.literalStart) (s.enc.sp - s.enc.literalStart)
  | .eAdvance =>
      expandSeqs qs = (sourceBytes s).take s.enc.sp ∧
      destinationBytes s s.enc.dp = qs.flatMap LzSeq.bytes
  | .eSetup | .eScanInit | .eScan | .eBackward | .eToken | .eBackfill | .eFollow | .eFinal =>
      expandSeqs qs = (sourceBytes s).take s.enc.literalStart ∧
      destinationBytes s s.enc.dp = qs.flatMap LzSeq.bytes

/-- The sequences written so far are legal and every match of theirs starts at least 12 bytes before the end
of the source (R147 items 2 and 6). -/
def EncSeqs (s : State) (qs : List LzSeq) : Prop :=
  seqsValid 0 qs = true ∧ ∀ p ∈ matchStarts 0 qs, p + 12 ≤ s.srcLen

/-- What an encode that ended with `ok` leaves: the destination holds a legal block that decodes to the
source; its final literals are at least 5 bytes unless they are the whole source (R150 item 4), and every
match starts at least 12 bytes before the end of the source. -/
def EncodedBlock (s : State) : Prop :=
  s.status = .ok → ∃ b : LzBlock, b.valid = true ∧ b.lastLow = 0#4 ∧ b.expand = sourceBytes s ∧
    s.value = b.bytes.length ∧ destinationBytes s s.value = b.bytes ∧
    (b.last = sourceBytes s ∧ b.seqs = [] ∨ 5 ≤ b.last.length) ∧
    ∀ p ∈ matchStarts 0 b.seqs, p + 12 ≤ s.srcLen

/-- The token's two halves put together (R61, R139, R141). -/
theorem token_or (a k : Nat) : literalToken a ||| matchNibble k = tokenByte a k := by
  have h : ∀ a < 16, ∀ k < 16, literalToken a ||| matchNibble k = tokenByte a k := by decide
  have ha : literalToken a = literalToken (min a 15) := by
    by_cases h : a < 15
    · rw [Nat.min_eq_left (by omega)]
    · rw [Nat.min_eq_right (by omega), literalToken, if_neg h]; rfl
  have hk : matchNibble k = matchNibble (min k 15) := by
    by_cases h : k < 15
    · rw [Nat.min_eq_left (by omega)]
    · rw [Nat.min_eq_right (by omega), matchNibble, if_neg h]; rfl
  rw [ha, hk, h _ (by omega) _ (by omega), tokenByte, tokenByte, Nat.min_assoc, Nat.min_assoc,
    Nat.min_self]

/-- The final token (R145). -/
theorem literalToken_eq (a : Nat) : literalToken a = BitVec.ofNat 4 (min a 15) ++ 0#4 := by
  have := token_or a 0
  rw [tokenByte] at this
  simpa [matchNibble] using this

theorem source_take {s : State} {n : Nat} (h : n ≤ s.srcLen) :
    (sourceBytes s).take n = bytesFrom s.mem s.srcPtr n := bytesFrom_take _ _ _ _ h

/-- Every visit keeps what is written, and a visit that ends with `ok` leaves a legal block of the source. -/
theorem encoderVisit_written {s t : State} {qs : List LzSeq} (hr : EncodeRunning s) (hw : s.mem.wf)
    (hq : EncSeqs s qs) (hp : EncWritten s qs) (hv : encoderVisit s = .next t) :
    (t.phase = .busy → ∃ qs', EncSeqs t qs' ∧ EncWritten t qs') ∧ (t.phase = .idle → EncodedBlock t) := by
  obtain ⟨hb, hdis, hi⟩ := hr
  have st := (encoderVisit_frame hv).1
  have hsrc := st.sourceBytes_eq hdis
  have go : ∀ qs', t.phase = s.phase → EncSeqs s qs' → EncWritten t qs' →
      (t.phase = .busy → ∃ qs', EncSeqs t qs' ∧ EncWritten t qs') ∧
        (t.phase = .idle → EncodedBlock t) :=
    fun qs' h1 h2 h3 => ⟨fun _ => ⟨qs', by rw [EncSeqs, st.srcLen]; exact h2, h3⟩,
      fun h4 => by rw [h1, hb] at h4; cases h4⟩
  have stop : ∀ (k : ErrorKind) (u : State), t = raise k u →
      (t.phase = .busy → ∃ qs', EncSeqs t qs' ∧ EncWritten t qs') ∧
        (t.phase = .idle → EncodedBlock t) := by
    rintro k u rfl
    refine ⟨by simp, fun _ hok => ?_⟩
    cases k <;> simp [ErrorKind.status] at hok
  -- a visit that leaves the memory, `literal_start` and `dp`
  have same : t.phase = s.phase → s.enc.estate ≠ .ePrecheck → s.enc.estate ≠ .eMatch →
      s.enc.estate ≠ .eAdvance → t.enc.estate ≠ .eMatch → t.enc.estate ≠ .eAdvance →
      t.enc.literalStart = s.enc.literalStart → t.enc.dp = s.enc.dp → t.mem = s.mem →
      (t.phase = .busy → ∃ qs', EncSeqs t qs' ∧ EncWritten t qs') ∧
        (t.phase = .idle → EncodedBlock t) := by
    intro h1 h2 h3 h4 h5 h6 h7 h8 h9
    have hp' : expandSeqs qs = (sourceBytes s).take s.enc.literalStart ∧
        destinationBytes s s.enc.dp = qs.flatMap LzSeq.bytes := by
      cases he : s.enc.estate <;> simp only [EncWritten, he] at hp <;>
        first | exact hp | exact absurd he h2 | exact absurd he h3 | exact absurd he h4
    refine go qs h1 hq ?_
    have ht : expandSeqs qs = (sourceBytes t).take t.enc.literalStart ∧
        destinationBytes t t.enc.dp = qs.flatMap LzSeq.bytes := by
      rw [hsrc, h7, h8, destinationBytes, h9, st.dstPtr]
      exact hp'
    cases he : t.enc.estate <;> simp only [EncWritten, he] <;>
      first | exact ht | exact absurd he h5 | exact absurd he h6
  rcases hi with ⟨he, -, -, -⟩ | hi
  · have hv' : encoderVisit s = encPrecheck s := by simp only [encoderVisit, he]
    rw [hv', encPrecheck] at hv
    split at hv
    · cases hv; exact stop _ _ rfl
    · simp only at hv
      split at hv <;> cases hv
      · exact stop _ _ rfl
      · refine go [] rfl ⟨rfl, by simp [matchStarts]⟩ ?_
        by_cases h3 : s.srcLen ≤ shortInput
        · simp only [EncWritten, if_pos h3]; simp [expandSeqs, destinationBytes, bytesFrom]
        · simp only [EncWritten, if_neg h3]; simp [expandSeqs, destinationBytes, bytesFrom]
  rw [encoderInv_iff] at hi
  obtain ⟨hlim, hroom, hstart, hc⟩ := hi
  have hlim' : s.srcLen ≤ 0x7E000000 := hlim
  have hwc : s.srcLen + s.srcLen / 255 + 16 ≤ s.dstLen := hroom
  cases he : s.enc.estate with
  | ePrecheck => simp only [EncClause, he] at hc
  | eSetup =>
    have hv' : encoderVisit s = encSetup s := by simp only [encoderVisit, he]
    rw [hv', encSetup] at hv
    cases hv
    exact same rfl (by simp [he]) (by simp [he]) (by simp [he]) (by simp) (by simp) rfl rfl rfl
  | eScanInit =>
    have hv' : encoderVisit s = encScanInit s := by simp only [encoderVisit, he]
    rw [hv', encScanInit] at hv
    cases hv
    exact same rfl (by simp [he]) (by simp [he]) (by simp [he]) (by simp) (by simp) rfl rfl rfl
  | eScan =>
    simp only [EncClause, he] at hc
    obtain ⟨hL, h1, h2, h3, h4, h5, h6⟩ := hc
    obtain ⟨hs, hml, hfl⟩ := hL
    simp only [shortInput, matchLimitTail, finalLimitTail, stepCounterInit] at hs hml hfl h6
    have hv' : encoderVisit s = encScan s := by simp only [encoderVisit, he]
    rw [hv'] at hv
    by_cases hstop : s.enc.finalLiteralsLimit ≤ s.enc.sp + s.enc.step
    · rw [encScan_stop hstop] at hv
      cases hv
      exact same rfl (by simp [he]) (by simp [he]) (by simp [he]) (by simp) (by simp) rfl rfl rfl
    · have hpm : probeMatch s (s.enc.sp + s.enc.step) < s.enc.sp + s.enc.step :=
        Nat.lt_of_lt_of_le (h3 _) (by omega)
      obtain ⟨pk, e, hpk, hcase⟩ := encScan_probe hstop (by omega) (by omega)
      rw [hpk] at hv
      cases hv
      rcases hcase with ⟨rfl, -⟩ | ⟨rfl, -⟩ <;>
        exact same rfl (by simp [he]) (by simp [he]) (by simp [he]) (by simp) (by simp) rfl rfl rfl
  | eBackward =>
    have hv' : encoderVisit s = encBackward s := by simp only [encoderVisit, he]
    rw [hv', encBackward] at hv
    split at hv
    · cases hv
      exact same rfl (by simp [he]) (by simp [he]) (by simp [he]) (by simp) (by simp) rfl rfl rfl
    · cases hv
  | eToken =>
    simp only [EncClause, he] at hc
    obtain ⟨⟨hs, hml, hfl⟩, ⟨h1, h2, h3, h4, len, h5, h6, h7, h8⟩, h9⟩ := hc
    simp only [shortInput, matchLimitTail, finalLimitTail, minMatch] at hs hml hfl h5
    simp only [EncRoom] at h9
    simp only [EncWritten, he] at hp
    have hlb := lengthBytes_length (s.enc.sp - s.enc.literalStart)
    have hbound : s.enc.dp + 1 + (lengthBytes (s.enc.sp - s.enc.literalStart)).length +
        (s.enc.sp - s.enc.literalStart) ≤ s.enc.sp + s.enc.sp / 255 + 2 := by
      rw [hlb]; split <;> omega
    have hv' : encoderVisit s = encToken s := by simp only [encoderVisit, he]
    rw [hv', encToken_eq hdis h1 (by omega) (by omega)] at hv
    cases hv
    have hlen : (lengthBytes (s.enc.sp - s.enc.literalStart) ++
        bytesFrom s.mem (s.srcPtr + s.enc.literalStart) (s.enc.sp - s.enc.literalStart)).length =
        (lengthBytes (s.enc.sp - s.enc.literalStart)).length + (s.enc.sp - s.enc.literalStart) := by
      simp
    refine go qs rfl hq ?_
    simp only [EncWritten]
    refine ⟨hp.1.trans (congrArg (List.take s.enc.literalStart) hsrc.symm), ?_, trivial, by omega, ?_⟩
    · rw [destinationBytes, bytesFrom_writeBytes_of_disjoint _ _ _ _ _ (by dsimp only; omega)]
      exact hp.2
    · rw [← hlen, bytesFrom_writeBytes_self _ _ _ hw]
      congr 1
      exact (bytesFrom_source_of_writes (s := s) (by omega) hdis (by omega) s.mem).symm
  | eMatch =>
    simp only [EncClause, he] at hc
    obtain ⟨⟨hs, hml, hfl⟩, ⟨h1, h2, h3, h4, len, h5, h6, h7, h8⟩, h9, h10⟩ := hc
    simp only [shortInput, matchLimitTail, finalLimitTail, minMatch, maxOffset] at hs hml hfl h5 h4
    simp only [EncWritten, he] at hp
    obtain ⟨g1, g2, g3, g4, g5⟩ := hp
    have hk1 : s.enc.sp + 4 + matchExtra s ≤ s.enc.matchLimit := by
      have := lcpCount_le s.mem (p := s.srcPtr + (s.enc.sp + 4)) (lim := s.srcPtr + s.enc.matchLimit)
        (s.srcPtr + (s.enc.matchOff + 4)) (by omega)
      simp only [matchExtra]; omega
    have hagree : SourceAgrees s s.enc.sp s.enc.matchOff (4 + matchExtra s) := by
      intro x hx
      by_cases hx4 : x < 4
      · exact h7 x (by omega)
      · have := lcpCount_agree s.mem (p := s.srcPtr + (s.enc.sp + 4))
          (lim := s.srcPtr + s.enc.matchLimit) (s.srcPtr + (s.enc.matchOff + 4)) (by omega)
          (i := x - 4) (by simp only [matchExtra] at hx; omega)
        rwa [show s.srcPtr + (s.enc.sp + 4) + (x - 4) = s.srcPtr + (s.enc.sp + x) by omega,
          show s.srcPtr + (s.enc.matchOff + 4) + (x - 4) = s.srcPtr + (s.enc.matchOff + x) by omega]
          at this
    have hlb := lengthBytes_length (matchExtra s)
    have hbound : s.enc.dp + 2 + (lengthBytes (matchExtra s)).length ≤
        (s.enc.sp + 4 + matchExtra s) + (s.enc.sp + 4 + matchExtra s) / 255 := by
      rw [hlb]; split <;> omega
    have hv' : encoderVisit s = encMatch s := by simp only [encoderVisit, he]
    rw [hv', encMatch_eq hdis (by omega) (by omega) (by omega) (by omega) (by omega)] at hv
    cases hv
    have hprod : producedBy qs = s.enc.literalStart := by
      rw [← expandSeqs_length, g1, List.length_take, sourceBytes_length]; omega
    refine go (qs ++ [⟨bytesFrom s.mem (s.srcPtr + s.enc.literalStart)
      (s.enc.sp - s.enc.literalStart), s.enc.sp - s.enc.matchOff, 4 + matchExtra s⟩]) rfl ⟨?_, ?_⟩ ?_
    · rw [seqsValid_concat]
      refine ⟨hq.1, by simp only; omega, by simp only; omega, h4, ?_⟩
      simp only [bytesFrom_length, hprod]; omega
    · intro p hp
      rw [matchStarts_append, List.mem_append] at hp
      rcases hp with hp | hp
      · exact hq.2 p hp
      · simp only [matchStarts, hprod, bytesFrom_length, List.mem_singleton] at hp
        omega
    · simp only [EncWritten]
      constructor
      · refine Eq.trans ?_ (congrArg (List.take (s.enc.sp + 4 + matchExtra s)) hsrc.symm)
        rw [expandSeqs_concat, LzSeq.apply, g1, source_take hstart]
        simp only
        rw [← bytesFrom_add, show s.enc.literalStart + (s.enc.sp - s.enc.literalStart) = s.enc.sp by
          omega, ← source_take (s := s) (by omega), copyMatch_of_agrees _ _ _ _ (by omega) (by omega)
          (by rw [sourceBytes_length]; omega), Nat.add_assoc]
        intro x hx
        rw [sourceBytes, bytesFrom_getElem? _ _ _ _ (by omega), bytesFrom_getElem? _ _ _ _ (by omega),
          show s.enc.sp - (s.enc.sp - s.enc.matchOff) = s.enc.matchOff by omega]
        exact congrArg some (hagree x hx)
      · have hlen : (offsetBytes (s.enc.sp - s.enc.matchOff) ++ lengthBytes (matchExtra s)).length =
            2 + (lengthBytes (matchExtra s)).length := by simp
        rw [destinationBytes,
          show s.enc.dp + 2 + (lengthBytes (matchExtra s)).length = s.enc.tokenPos + (1 +
            (((lengthBytes (s.enc.sp - s.enc.literalStart)).length +
              (s.enc.sp - s.enc.literalStart)) + (2 + (lengthBytes (matchExtra s)).length))) by omega,
          bytesFrom_add, bytesFrom_add, bytesFrom_add]
        have e1 : bytesFrom (memWrite (writeBytes s.mem (s.dstPtr + s.enc.dp)
            (offsetBytes (s.enc.sp - s.enc.matchOff) ++ lengthBytes (matchExtra s)))
            (s.dstPtr + s.enc.tokenPos) (s.enc.token ||| matchNibble (matchExtra s))) s.dstPtr
            s.enc.tokenPos = qs.flatMap LzSeq.bytes := by
          rw [bytesFrom_memWrite_of_disjoint _ _ _ _ _ (by omega),
            bytesFrom_writeBytes_of_disjoint _ _ _ _ _ (by omega)]
          exact g2
        have e2 : bytesFrom (memWrite (writeBytes s.mem (s.dstPtr + s.enc.dp)
            (offsetBytes (s.enc.sp - s.enc.matchOff) ++ lengthBytes (matchExtra s)))
            (s.dstPtr + s.enc.tokenPos) (s.enc.token ||| matchNibble (matchExtra s)))
            (s.dstPtr + s.enc.tokenPos) 1 =
            [tokenByte (s.enc.sp - s.enc.literalStart) (matchExtra s)] := by
          show [memRead (memWrite _ _ _) _] = _
          rw [memRead_write_self _ _ _ (writeBytes_wf _ _ _ hw), g3, token_or]
        have e3 : bytesFrom (memWrite (writeBytes s.mem (s.dstPtr + s.enc.dp)
            (offsetBytes (s.enc.sp - s.enc.matchOff) ++ lengthBytes (matchExtra s)))
            (s.dstPtr + s.enc.tokenPos) (s.enc.token ||| matchNibble (matchExtra s)))
            (s.dstPtr + s.enc.tokenPos + 1)
            ((lengthBytes (s.enc.sp - s.enc.literalStart)).length +
              (s.enc.sp - s.enc.literalStart)) =
            lengthBytes (s.enc.sp - s.enc.literalStart) ++
              bytesFrom s.mem (s.srcPtr + s.enc.literalStart) (s.enc.sp - s.enc.literalStart) := by
          rw [bytesFrom_memWrite_of_disjoint _ _ _ _ _ (by omega),
            bytesFrom_writeBytes_of_disjoint _ _ _ _ _ (by omega), Nat.add_assoc]
          exact g5
        have e4 : bytesFrom (memWrite (writeBytes s.mem (s.dstPtr + s.enc.dp)
            (offsetBytes (s.enc.sp - s.enc.matchOff) ++ lengthBytes (matchExtra s)))
            (s.dstPtr + s.enc.tokenPos) (s.enc.token ||| matchNibble (matchExtra s)))
            (s.dstPtr + s.enc.tokenPos + 1 +
              ((lengthBytes (s.enc.sp - s.enc.literalStart)).length +
                (s.enc.sp - s.enc.literalStart)))
            (2 + (lengthBytes (matchExtra s)).length) =
            offsetBytes (s.enc.sp - s.enc.matchOff) ++ lengthBytes (matchExtra s) := by
          rw [bytesFrom_memWrite_of_disjoint _ _ _ _ _ (by omega),
            show s.dstPtr + s.enc.tokenPos + 1 +
              ((lengthBytes (s.enc.sp - s.enc.literalStart)).length +
                (s.enc.sp - s.enc.literalStart)) = s.dstPtr + s.enc.dp by omega,
            ← hlen, bytesFrom_writeBytes_self _ _ _ hw]
        simp only [e1, e2, e3, e4]
        rw [List.flatMap_append]
        simp [LzSeq.bytes]
  | eAdvance =>
    simp only [EncWritten, he] at hp
    have hv' : encoderVisit s = encAdvance s := by simp only [encoderVisit, he]
    rw [hv', encAdvance] at hv
    cases hv
    refine go qs rfl hq ?_
    by_cases h3 : s.enc.finalLiteralsLimit ≤ s.enc.sp
    · simp only [EncWritten, if_pos h3]; exact hp
    · simp only [EncWritten, if_neg h3]; exact hp
  | eBackfill =>
    have hv' : encoderVisit s = encBackfill s := by simp only [encoderVisit, he]
    rw [hv', encBackfill] at hv
    obtain ⟨u, hu, hv⟩ := andThen_eq_next.1 hv
    unfold peekSource at hu
    split at hu <;> cases hu
    cases hv
    exact same rfl (by simp [he]) (by simp [he]) (by simp [he]) (by simp [State.encGoto])
      (by simp [State.encGoto]) rfl rfl rfl
  | eFollow =>
    simp only [EncClause, he] at hc
    obtain ⟨⟨hs, hml, hfl⟩, h1, h2, h3, h4, h5⟩ := hc
    simp only [shortInput, matchLimitTail, finalLimitTail, minMatch] at hs hml hfl h2
    have hv' : encoderVisit s = encFollow s := by simp only [encoderVisit, he]
    have hpm : probeMatch s s.enc.sp < s.enc.sp := h4 _
    obtain ⟨pk, ⟨hval, hpk⟩ | ⟨hval, hpk⟩⟩ := encFollow_eq (s := s) (by omega) (by omega)
    · rw [hv', hpk] at hv
      cases hv
      simp only [EncWritten, he] at hp
      refine go qs rfl hq ?_
      simp only [EncWritten, h1, Nat.sub_self]
      rw [h1] at hp
      refine ⟨hp.1, hp.2, rfl, ?_, ?_⟩ <;> simp [lengthBytes, bytesFrom]
    · rw [hv', hpk] at hv
      cases hv
      exact same rfl (by simp [he]) (by simp [he]) (by simp [he]) (by simp) (by simp) rfl rfl rfl
  | eFinal =>
    simp only [EncClause, he] at hc
    obtain ⟨k1, k2, h3⟩ := hc
    simp only [EncRoom] at h3
    simp only [EncWritten, he] at hp
    have hlb := lengthBytes_length (s.srcLen - s.enc.literalStart)
    have hbound : s.enc.dp + 1 + (lengthBytes (s.srcLen - s.enc.literalStart)).length +
        (s.srcLen - s.enc.literalStart) ≤ s.srcLen + s.srcLen / 255 + 2 := by
      rw [hlb]; split <;> omega
    have hv' : encoderVisit s = encFinal s := by simp only [encoderVisit, he]
    rw [hv', encFinal_eq hdis hstart (by omega)] at hv
    cases hv
    refine ⟨by simp, fun _ _ => ⟨⟨qs, bytesFrom s.mem (s.srcPtr + s.enc.literalStart)
      (s.srcLen - s.enc.literalStart), 0#4⟩, hq.1, rfl, ?_, ?_, ?_, ?_, hq.2⟩⟩
    · rw [hsrc, LzBlock.expand]
      simp only
      rw [hp.1, source_take hstart, ← bytesFrom_add, sourceBytes,
        show s.enc.literalStart + (s.srcLen - s.enc.literalStart) = s.srcLen by omega]
    · have hdl : (qs.flatMap LzSeq.bytes).length = s.enc.dp := by
        rw [← hp.2, destinationBytes, bytesFrom_length]
      simp only [ret_value, LzBlock.bytes, lastBytes, List.length_append, List.length_cons,
        bytesFrom_length, hdl]
      omega
    · have hlen : (literalToken (s.srcLen - s.enc.literalStart) ::
            (lengthBytes (s.srcLen - s.enc.literalStart) ++
              bytesFrom s.mem (s.srcPtr + s.enc.literalStart)
                (s.srcLen - s.enc.literalStart))).length =
          1 + (lengthBytes (s.srcLen - s.enc.literalStart)).length +
            (s.srcLen - s.enc.literalStart) := by
        simp only [List.length_cons, List.length_append, bytesFrom_length]; omega
      simp only [ret_value, destinationBytes, ret_mem, ret_dstPtr]
      rw [show s.enc.dp + 1 + (lengthBytes (s.srcLen - s.enc.literalStart)).length +
          (s.srcLen - s.enc.literalStart) = s.enc.dp + (1 +
          (lengthBytes (s.srcLen - s.enc.literalStart)).length +
          (s.srcLen - s.enc.literalStart)) by omega, ← hlen, bytesFrom_writeBytes_extend _ _ _ _ hw]
      rw [destinationBytes] at hp
      rw [hp.2, LzBlock.bytes, lastBytes, literalToken_eq]
      simp only [bytesFrom_length]
    · rw [hsrc]
      simp only [bytesFrom_length]
      by_cases hshort : s.srcLen ≤ shortInput
      · left
        obtain ⟨j1, j2⟩ := k1 hshort
        rw [j1, j2] at hp
        rw [j1]
        refine ⟨rfl, ?_⟩
        cases qs with
        | nil => rfl
        | cons q rest => simp [destinationBytes, bytesFrom, LzSeq.bytes] at hp
      · right
        have := (k2 (by omega)).2
        simp only [matchLimitTail] at this
        omega

/-- An encode that ends with `ok` has written a legal block of its source. -/
theorem encode_sound {fuel : Nat} {s t : State} (hb : s.phase = .busy) (hw : s.mem.wf)
    (hht : storeWf s.ht) (hdis : disjointRanges s.srcPtr s.srcLen s.dstPtr s.dstLen = true)
    (h : runToEnd encoderVisit fuel (beginEncode s) = .next t) : EncodedBlock t := by
  have := runToEnd_keeps (P := fun u => u.mem.wf ∧ storeWf u.ht ∧
      (u.phase = .busy → EncodeRunning u ∧ ∃ qs, EncSeqs u qs ∧ EncWritten u qs) ∧
      (u.phase = .idle → EncodedBlock u))
    (visit := encoderVisit)
    (fun u v hb ⟨h1, h2, h3, _⟩ hv => by
      obtain ⟨hrun, qs, hq, hp⟩ := h3 hb
      have st := (encoderVisit_frame hv).1
      have hpp := encoderVisit_written hrun h1 hq hp hv
      refine ⟨st.wf h1, st.htWf h2, fun hvb => ?_, hpp.2⟩
      obtain ⟨v', hv', hd⟩ := encoderVisit_progress hrun h2
      rw [hv] at hv'
      cases hv'
      rcases hd with hd | hd
      · rw [hvb] at hd; cases hd.1
      · exact ⟨hd.1, hpp.1 hvb⟩)
    (s := beginEncode s)
    ⟨hw, hht, fun _ => ⟨encodeRunning_begin hb hdis, [], ⟨rfl, by simp [matchStarts]⟩, trivial⟩, fun hi => by
      rw [show (beginEncode s).phase = s.phase from rfl, hb] at hi; cases hi⟩ h
  exact this.1.2.2.2 this.2

end Sys2Proof.Machine
end

