-- ==== Sys2Proof/Laws/EncoderBounds.lean ====
section
/-! SUPPORT. What the invariants give at each label of the encoder (43_encoder.md R146, R147, R150 item 3): its
reads and writes are in bounds, so that one visit is the explicit next state of Laws/EncoderVisit.lean. -/

namespace Sys2Proof.Machine

open Sys2Proof.Config

variable {s : State}

/-- Past the pre-check the clause of the label holds. -/
theorem EncodeRunning.clause (hr : EncodeRunning s) (he : s.enc.estate ≠ .ePrecheck) :
    s.srcLen ≤ encMaxSrcLen ∧ worstCaseSize s.srcLen ≤ s.dstLen ∧ s.enc.literalStart ≤ s.srcLen ∧
      EncClause s :=
  (encoderInv_iff s).1 (hr.inv he)

/-- At `E_SCAN` with a probe to make: the probe and its candidate lie in the source, the candidate below. -/
theorem EncodeRunning.scanBounds (hr : EncodeRunning s) (he : s.enc.estate = .eScan) :
    12 < s.srcLen ∧ s.enc.finalLiteralsLimit = s.srcLen - 11 ∧ 1 ≤ s.enc.step ∧
      probeMatch s (s.enc.sp + s.enc.step) < s.enc.sp + s.enc.step := by
  obtain ⟨-, -, -, hc⟩ := hr.clause (by simp [he])
  simp only [EncClause, he] at hc
  obtain ⟨⟨h1, -, h2⟩, -, -, h3, -, h4, -⟩ := hc
  exact ⟨h1, h2, h4, Nat.lt_of_lt_of_le (h3 _) (by omega)⟩

theorem EncodeRunning.scanProbe (hr : EncodeRunning s) (he : s.enc.estate = .eScan)
    (h : s.enc.sp + s.enc.step < s.enc.finalLiteralsLimit) :
    ∃ pk e, encoderVisit s = .next { s with
      peek := pk
      ht := probeHt s (s.enc.sp + s.enc.step)
      enc := { s.enc with
        sp := s.enc.sp + s.enc.step
        matchOff := probeMatch s (s.enc.sp + s.enc.step)
        step := s.enc.stepCounter >>> stepShift
        stepCounter := s.enc.stepCounter + 1
        estate := e } } ∧
      (e = .eBackward ∧ probeValid s (s.enc.sp + s.enc.step) ∨
        e = .eScan ∧ ¬ probeValid s (s.enc.sp + s.enc.step)) := by
  have hb := hr.scanBounds he
  have hv : encoderVisit s = encScan s := by simp only [encoderVisit, he]
  rw [hv]
  exact encScan_probe (by omega) (by omega) (by omega)

theorem scanStop (he : s.enc.estate = .eScan)
    (h : s.enc.finalLiteralsLimit ≤ s.enc.sp + s.enc.step) :
    encoderVisit s = .next { s with enc := { s.enc with
      sp := s.enc.sp + s.enc.step, estate := .eFinal } } := by
  have hv : encoderVisit s = encScan s := by simp only [encoderVisit, he]
  rw [hv, encScan_stop h]

/-- At `E_BACKWARD` (R138). -/
theorem EncodeRunning.backwardStep (hr : EncodeRunning s) (he : s.enc.estate = .eBackward) :
    s.enc.literalStart ≤ s.enc.sp ∧ s.enc.sp ≤ s.srcLen ∧ s.enc.matchOff < s.enc.sp ∧
    encoderVisit s = .next { s with enc := { s.enc with
      sp := s.enc.sp -
        backwardCount s.mem s.srcPtr s.enc.literalStart s.enc.matchOff s.enc.sp
      matchOff := s.enc.matchOff -
        backwardCount s.mem s.srcPtr s.enc.literalStart s.enc.matchOff s.enc.sp
      estate := .eToken } } := by
  obtain ⟨-, -, -, hc⟩ := hr.clause (by simp [he])
  simp only [EncClause, he] at hc
  obtain ⟨⟨h1, -, h2⟩, h3, h4, h5, -⟩ := hc
  simp only [finalLimitTail] at h2
  have hv : encoderVisit s = encBackward s := by simp only [encoderVisit, he]
  exact ⟨h3, by omega, h5, by rw [hv, encBackward_eq (by omega) (by omega)]⟩

/-- At `E_TOKEN` (R139). -/
theorem EncodeRunning.tokenBounds (hr : EncodeRunning s) (he : s.enc.estate = .eToken) :
    s.enc.literalStart ≤ s.enc.sp ∧ s.enc.sp ≤ s.srcLen ∧
      s.enc.dp + 1 + (lengthBytes (s.enc.sp - s.enc.literalStart)).length +
        (s.enc.sp - s.enc.literalStart) ≤ s.dstLen := by
  obtain ⟨-, hw, -, hc⟩ := hr.clause (by simp [he])
  simp only [EncClause, he] at hc
  obtain ⟨⟨h1, -, h2⟩, ⟨h3, h4, -⟩, h5⟩ := hc
  simp only [finalLimitTail] at h2
  simp only [EncRoom] at h5
  simp only [worstCaseSize, wcDiv, wcAdd] at hw
  refine ⟨h3, by omega, ?_⟩
  rw [lengthBytes_length]
  split <;> omega

/-- At `E_MATCH` (R141): the offset is legal, the scan stays in the source, and everything fits. -/
theorem EncodeRunning.matchBounds (hr : EncodeRunning s) (he : s.enc.estate = .eMatch) :
    s.enc.matchLimit = s.srcLen - 5 ∧ s.enc.sp + 4 ≤ s.enc.matchLimit ∧ s.enc.matchOff < s.enc.sp ∧
      s.enc.sp - s.enc.matchOff ≤ 65535 ∧ s.enc.sp + 4 + matchExtra s ≤ s.enc.matchLimit ∧
      s.enc.dp + 2 + (lengthBytes (matchExtra s)).length ≤ s.dstLen ∧ s.enc.tokenPos < s.enc.dp := by
  obtain ⟨-, hw, -, hc⟩ := hr.clause (by simp [he])
  simp only [EncClause, he] at hc
  obtain ⟨⟨h1, hm, -⟩, ⟨-, -, h3, h4, len, h5, h6, -, -⟩, h7, h8⟩ := hc
  simp only [matchLimitTail, minMatch, maxOffset, shortInput] at hm h5 h4 h1
  simp only [worstCaseSize, wcDiv, wcAdd] at hw
  have hk : s.enc.sp + 4 + matchExtra s ≤ s.enc.matchLimit := by
    have := lcpCount_le s.mem (p := s.srcPtr + (s.enc.sp + 4)) (lim := s.srcPtr + s.enc.matchLimit)
      (s.srcPtr + (s.enc.matchOff + 4)) (by omega)
    simp only [matchExtra]; omega
  refine ⟨hm, by omega, h3, h4, hk, ?_, h8⟩
  rw [lengthBytes_length]
  split <;> omega

/-- At `E_ADVANCE` (R142). -/
theorem EncodeRunning.advanceBounds (hr : EncodeRunning s) (he : s.enc.estate = .eAdvance) :
    s.enc.sp + 5 ≤ s.srcLen := by
  obtain ⟨-, -, -, hc⟩ := hr.clause (by simp [he])
  simp only [EncClause, he] at hc
  obtain ⟨⟨h1, h2, -⟩, -, h3, -⟩ := hc
  simp only [matchLimitTail, shortInput] at h2 h1
  omega

/-- At `E_BACKFILL` and `E_FOLLOW` (R143, R144). -/
theorem EncodeRunning.followBounds (hr : EncodeRunning s)
    (he : s.enc.estate = .eBackfill ∨ s.enc.estate = .eFollow) :
    4 ≤ s.enc.sp ∧ s.enc.sp + 11 < s.srcLen ∧ ∀ i, (htRead s.ht i).toNat < s.enc.sp := by
  obtain ⟨-, -, -, hc⟩ := hr.clause (by rcases he with he | he <;> simp [he])
  rcases he with he | he <;> simp only [EncClause, he] at hc <;>
  · obtain ⟨⟨h1, -, h2⟩, -, h3, h4, h5, -⟩ := hc
    simp only [finalLimitTail, minMatch, shortInput] at h2 h3 h1
    exact ⟨h3, by omega, fun i => h5 _⟩

/-- At `E_FINAL` (R145). -/
theorem EncodeRunning.finalBounds (hr : EncodeRunning s) (he : s.enc.estate = .eFinal) :
    s.enc.literalStart ≤ s.srcLen ∧
      s.enc.dp + 1 + (lengthBytes (s.srcLen - s.enc.literalStart)).length +
        (s.srcLen - s.enc.literalStart) ≤ s.dstLen := by
  obtain ⟨-, hw, h1, hc⟩ := hr.clause (by simp [he])
  simp only [EncClause, he] at hc
  obtain ⟨-, -, h2⟩ := hc
  simp only [EncRoom] at h2
  simp only [worstCaseSize, wcDiv, wcAdd] at hw
  refine ⟨h1, ?_⟩
  rw [lengthBytes_length]
  split <;> omega

/-- What a visit past the pre-check writes: destination bytes below the output cursor it leaves, which never
moves back; and it ends the command only with `ok` and that cursor as `VALUE` (R130, R145, R149, R177). -/
structure EncWrites (s t : State) : Prop where
  past : t.enc.estate ≠ .ePrecheck
  dp : s.enc.dp ≤ t.enc.dp
  mem : ∀ a, a < s.dstPtr ∨ s.dstPtr + t.enc.dp ≤ a → memRead t.mem a = memRead s.mem a
  ends : t.phase = .idle → t.status = .ok ∧ t.value = t.enc.dp

theorem encoderVisit_writes {t : State} (hr : EncodeRunning s) (hp : s.enc.estate ≠ .ePrecheck)
    (h : encoderVisit s = .next t) : EncWrites s t := by
  have quiet : ∀ u : State, u.phase = s.phase → u.enc.estate ≠ .ePrecheck → s.enc.dp ≤ u.enc.dp →
      u.mem = s.mem → EncWrites s u := fun u h1 h2 h3 h4 =>
    ⟨h2, h3, fun a _ => by rw [h4], fun hi => by rw [h1, hr.1] at hi; cases hi⟩
  cases he : s.enc.estate with
  | ePrecheck => exact absurd he hp
  | eSetup =>
    rw [show encoderVisit s = encSetup s by simp only [encoderVisit, he]] at h
    cases h
    exact quiet _ rfl (by simp) (Nat.le_refl _) rfl
  | eScanInit =>
    rw [show encoderVisit s = encScanInit s by simp only [encoderVisit, he]] at h
    cases h
    exact quiet _ rfl (by simp) (Nat.le_refl _) rfl
  | eScan =>
    by_cases hs : s.enc.finalLiteralsLimit ≤ s.enc.sp + s.enc.step
    · rw [scanStop he hs] at h
      cases h
      exact quiet _ rfl (by simp) (Nat.le_refl _) rfl
    · obtain ⟨pk, e, hv, hd⟩ := hr.scanProbe he (by omega)
      rw [hv] at h
      cases h
      exact quiet _ rfl (by rcases hd with hd | hd <;> simp [hd.1]) (Nat.le_refl _) rfl
  | eBackward =>
    rw [(hr.backwardStep he).2.2.2] at h
    cases h
    exact quiet _ rfl (by simp) (Nat.le_refl _) rfl
  | eToken =>
    obtain ⟨h1, h2, h3⟩ := hr.tokenBounds he
    rw [show encoderVisit s = encToken s by simp only [encoderVisit, he],
      encToken_eq hr.2.1 h1 h2 h3] at h
    cases h
    refine ⟨by simp, by simp only; omega, fun a ha => ?_, fun hi => by rw [hr.1] at hi; cases hi⟩
    refine memRead_writeBytes_of_outside _ _ _ _ ?_
    simp only [List.length_append, bytesFrom_length] at ha ⊢
    omega
  | eMatch =>
    obtain ⟨h1, h2, h3, h4, h5, h6, h7⟩ := hr.matchBounds he
    rw [show encoderVisit s = encMatch s by simp only [encoderVisit, he],
      encMatch_eq hr.2.1 h2 (by omega) (by omega) h6 (by omega)] at h
    cases h
    refine ⟨by simp, by simp only; omega, fun a ha => ?_, fun hi => by rw [hr.1] at hi; cases hi⟩
    simp only at ha ⊢
    rw [memRead_write_of_ne _ _ (by omega)]
    refine memRead_writeBytes_of_outside _ _ _ _ ?_
    simp only [List.length_append, offsetBytes_length]
    omega
  | eAdvance =>
    rw [show encoderVisit s = encAdvance s by simp only [encoderVisit, he]] at h
    cases h
    exact quiet _ rfl (by simp only; split <;> simp) (Nat.le_refl _) rfl
  | eBackfill =>
    obtain ⟨h1, h2, -⟩ := hr.followBounds (.inl he)
    obtain ⟨pk, hv⟩ := encBackfill_eq (s := s) (by omega)
    rw [show encoderVisit s = encBackfill s by simp only [encoderVisit, he], hv] at h
    cases h
    exact quiet _ rfl (by simp) (Nat.le_refl _) rfl
  | eFollow =>
    obtain ⟨h1, h2, h3⟩ := hr.followBounds (.inr he)
    have hm : probeMatch s s.enc.sp < s.enc.sp := h3 _
    obtain ⟨pk, ⟨-, hv⟩ | ⟨-, hv⟩⟩ := encFollow_eq (s := s) (by omega) (by omega) <;>
      rw [show encoderVisit s = encFollow s by simp only [encoderVisit, he], hv] at h <;> cases h <;>
      exact quiet _ rfl (by simp) (by simp) rfl
  | eFinal =>
    obtain ⟨h1, h2⟩ := hr.finalBounds he
    rw [show encoderVisit s = encFinal s by simp only [encoderVisit, he], encFinal_eq hr.2.1 h1 h2] at h
    cases h
    refine ⟨by simp [he], by simp only [ret_enc]; omega, fun a ha => ?_, fun _ => ⟨rfl, rfl⟩⟩
    refine memRead_writeBytes_of_outside _ _ _ _ ?_
    simp only [ret_enc, List.length_cons, List.length_append, bytesFrom_length] at ha ⊢
    omega

end Sys2Proof.Machine
end

