-- ==== Sys2Proof/Laws/EncoderAgree.lean ====
section
/-! SUPPORT. Two encodes side by side (43_encoder.md R150 item 6; 70_reset_and_hazards.md R207): from the setup on,
two machines with the same source bytes do the same, whatever their addresses, room and earlier registers. -/

namespace Sys2Proof.Machine

open Sys2Proof.Config

/-- Two encodes in step: the same source bytes, the same cursors and label, the working registers the label still
uses the same, the same table, the same bytes written (the reserved token byte apart), and the same result. -/
structure EncAgree (s s' : State) : Prop where
  srcLen : s'.srcLen = s.srcLen
  src : ∀ i < s.srcLen, memRead s'.mem (s'.srcPtr + i) = memRead s.mem (s.srcPtr + i)
  phase : s'.phase = s.phase
  result : s.phase = .idle →
    s'.status = s.status ∧ s'.value = s.value ∧ s.value ≤ s.enc.dp ∧ s.enc.estate ≠ .eMatch
  sp : s'.enc.sp = s.enc.sp
  literalStart : s'.enc.literalStart = s.enc.literalStart
  dp : s'.enc.dp = s.enc.dp
  estate : s'.enc.estate = s.enc.estate
  written : ∀ i < s.enc.dp, (s.enc.estate = .eMatch → i ≠ s.enc.tokenPos) →
    memRead s'.mem (s'.dstPtr + i) = memRead s.mem (s.dstPtr + i)
  limits : s.enc.estate ≠ .eSetup → s.enc.estate ≠ .eFinal →
    s'.enc.matchLimit = s.enc.matchLimit ∧ s'.enc.finalLiteralsLimit = s.enc.finalLiteralsLimit ∧
      ∀ i, htRead s'.ht i = htRead s.ht i
  stride : s.enc.estate = .eScan → s'.enc.step = s.enc.step ∧ s'.enc.stepCounter = s.enc.stepCounter
  matchOff : s.enc.estate = .eBackward ∨ s.enc.estate = .eToken ∨ s.enc.estate = .eMatch →
    s'.enc.matchOff = s.enc.matchOff
  token : s.enc.estate = .eMatch → s'.enc.tokenPos = s.enc.tokenPos ∧ s'.enc.token = s.enc.token

variable {s s' t : State}

/-- The four source bytes at an offset are the same. -/
theorem EncAgree.word (h : EncAgree s s') {i : Nat} (hi : i + 4 ≤ s.srcLen) :
    memRead32 s'.mem (s'.srcPtr + i) = memRead32 s.mem (s.srcPtr + i) := by
  apply memRead32_congr
  intro x hx
  rw [Nat.add_assoc, Nat.add_assoc]
  exact h.src _ (by omega)

/-- Source bytes are the same. -/
theorem EncAgree.bytes (h : EncAgree s s') {i n : Nat} (hi : i + n ≤ s.srcLen) :
    bytesFrom s'.mem (s'.srcPtr + i) n = bytesFrom s.mem (s.srcPtr + i) n := by
  apply bytesFrom_congr
  intro x hx
  rw [Nat.add_assoc, Nat.add_assoc]
  exact h.src _ (by omega)

/-- A probe of the table sees and leaves the same. -/
theorem EncAgree.probe (h : EncAgree s s') (hht : ∀ i, htRead s'.ht i = htRead s.ht i) (hw : storeWf s.ht)
    (hw' : storeWf s'.ht) {sp : Nat} (hi : sp + 4 ≤ s.srcLen) :
    probeMatch s' sp = probeMatch s sp ∧ (∀ i, htRead (probeHt s' sp) i = htRead (probeHt s sp) i) ∧
      (probeMatch s sp + 4 ≤ s.srcLen → (probeValid s' sp ↔ probeValid s sp)) := by
  have e1 : probeWord s' sp = probeWord s sp := h.word hi
  have e2 : probeMatch s' sp = probeMatch s sp := by rw [probeMatch, probeMatch, e1, hht]
  refine ⟨e2, fun i => ?_, fun hm => ?_⟩
  · simp only [probeHt, e1, htRead, htWrite]
    by_cases hc : i.toNat = (hash (probeWord s sp)).toNat
    · rw [hc, storeRead_write_self _ _ _ hw', storeRead_write_self _ _ _ hw]
    · rw [storeRead_write_of_ne _ _ _ _ hc, storeRead_write_of_ne _ _ _ _ hc]
      exact hht i
  · rw [probeValid, probeValid, e1, e2, h.word hm]

/-- Both write the same bytes at the same place of the destination. -/
theorem EncAgree.write (h : EncAgree s s') (hw : s.mem.wf) (hw' : s'.mem.wf) {j : Nat} {bs : List Byte}
    (hd : disjointRanges s.srcPtr s.srcLen s.dstPtr s.dstLen = true)
    (hd' : disjointRanges s'.srcPtr s'.srcLen s'.dstPtr s'.dstLen = true)
    (hj : j + bs.length ≤ s.dstLen) (hj' : j + bs.length ≤ s'.dstLen) :
    (∀ i < s.srcLen, memRead (writeBytes s'.mem (s'.dstPtr + j) bs) (s'.srcPtr + i) =
        memRead (writeBytes s.mem (s.dstPtr + j) bs) (s.srcPtr + i)) ∧
      (∀ i, j ≤ i → i < j + bs.length →
        memRead (writeBytes s'.mem (s'.dstPtr + j) bs) (s'.dstPtr + i) =
          memRead (writeBytes s.mem (s.dstPtr + j) bs) (s.dstPtr + i)) ∧
      ∀ i, i < j → memRead s'.mem (s'.dstPtr + i) = memRead s.mem (s.dstPtr + i) →
        memRead (writeBytes s'.mem (s'.dstPtr + j) bs) (s'.dstPtr + i) =
          memRead (writeBytes s.mem (s.dstPtr + j) bs) (s.dstPtr + i) := by
  refine ⟨fun i hi => ?_, fun i h1 h2 => ?_, fun i h1 h2 => ?_⟩
  · rw [memRead_source_of_writes hj' hd' (by rw [h.srcLen]; exact hi), memRead_source_of_writes hj hd hi]
    exact h.src i hi
  · obtain ⟨k, rfl⟩ := Nat.exists_eq_add_of_le h1
    have hk : k < bs.length := by omega
    rw [← Nat.add_assoc, ← Nat.add_assoc, memRead_writeBytes_inside _ _ _ _ hk hw',
      memRead_writeBytes_inside _ _ _ _ hk hw]
  · rw [memRead_writeBytes_of_outside _ _ _ _ (by omega), memRead_writeBytes_of_outside _ _ _ _ (by omega)]
    exact h2

/-- One visit keeps two encodes in step. -/
theorem encoderVisit_agrees (h : EncAgree s s') (hr : EncodeRunning s) (hr' : EncodeRunning s')
    (hp : s.enc.estate ≠ .ePrecheck) (hw : s.mem.wf) (hw' : s'.mem.wf) (hh : storeWf s.ht)
    (hh' : storeWf s'.ht) (hv : encoderVisit s = .next t) :
    ∃ t', encoderVisit s' = .next t' ∧ EncAgree t t' := by
  have busy : ∀ {p : Prop}, s.phase = .idle → p := fun hid => by rw [hr.1] at hid; cases hid
  have e1 := h.srcLen
  have e2 := h.sp
  have e3 := h.literalStart
  have e4 := h.dp
  have old : s.enc.estate ≠ .eMatch → ∀ i < s.enc.dp,
      memRead s'.mem (s'.dstPtr + i) = memRead s.mem (s.dstPtr + i) :=
    fun hne i hi => h.written i hi fun hx => absurd hx hne
  cases he : s.enc.estate with
  | ePrecheck => exact absurd he hp
  | eSetup =>
    have he' := h.estate.trans he
    rw [show encoderVisit s = encSetup s by simp only [encoderVisit, he]] at hv
    have hv' : encoderVisit s' = encSetup s' := by simp only [encoderVisit, he']
    cases hv
    exact ⟨_, hv', ⟨e1, h.src, h.phase, busy, e2, e3, e4, rfl, fun i hi _ => old (by simp [he]) i hi,
      fun _ _ => ⟨by simp [e1], by simp [e1], fun _ => rfl⟩, by simp, by simp, by simp⟩⟩
  | eScanInit =>
    have he' := h.estate.trans he
    rw [show encoderVisit s = encScanInit s by simp only [encoderVisit, he]] at hv
    have hv' : encoderVisit s' = encScanInit s' := by simp only [encoderVisit, he']
    cases hv
    exact ⟨_, hv', ⟨e1, h.src, h.phase, busy, e2, e3, e4, rfl, fun i hi _ => old (by simp [he]) i hi,
      fun _ _ => h.limits (by simp [he]) (by simp [he]), fun _ => ⟨rfl, rfl⟩, by simp, by simp⟩⟩
  | eScan =>
    have he' := h.estate.trans he
    obtain ⟨l1, l2, l3⟩ := h.limits (by simp [he]) (by simp [he])
    obtain ⟨s1, s2⟩ := h.stride he
    have hb := hr.scanBounds he
    by_cases hstop : s.enc.finalLiteralsLimit ≤ s.enc.sp + s.enc.step
    · have hv' := scanStop he' (by omega)
      rw [scanStop he hstop] at hv
      cases hv
      exact ⟨_, hv', ⟨e1, h.src, h.phase, busy, by simp [e2, s1], e3, e4, rfl,
        fun i hi _ => old (by simp [he]) i hi, by simp, by simp, by simp, by simp⟩⟩
    · obtain ⟨p1, p2, p3⟩ := h.probe l3 hh hh' (sp := s.enc.sp + s.enc.step) (by omega)
      replace p3 := p3 (by omega)
      obtain ⟨pk, e, hvs, hd⟩ := hr.scanProbe he (by omega)
      obtain ⟨pk', e', hvs', hd'⟩ := hr'.scanProbe he' (by omega)
      rw [hvs] at hv
      cases hv
      rw [e2, s1, s2, p1] at hvs'
      rw [e2, s1] at hd'
      have hee : e' = e := by
        rcases hd with ⟨rfl, hd⟩ | ⟨rfl, hd⟩ <;> rcases hd' with ⟨rfl, hd'⟩ | ⟨rfl, hd'⟩ <;>
          first | rfl | exact absurd (p3.1 hd') hd | exact absurd (p3.2 hd) hd'
      have hne : e ≠ .eMatch := by rcases hd with hd | hd <;> simp [hd.1]
      exact ⟨_, hvs', ⟨e1, h.src, h.phase, busy, rfl, e3, e4, hee, fun i hi _ => old (by simp [he]) i hi,
        fun _ _ => ⟨l1, l2, p2⟩, fun _ => ⟨rfl, rfl⟩, fun _ => rfl, fun hx => absurd hx hne⟩⟩
  | eBackward =>
    have he' := h.estate.trans he
    have lm := h.limits (by simp [he]) (by simp [he])
    have mo := h.matchOff (.inl he)
    obtain ⟨-, b1, b2, hvs⟩ := hr.backwardStep he
    obtain ⟨-, -, -, hv'⟩ := hr'.backwardStep he'
    have hcount : backwardCount s'.mem s'.srcPtr s'.enc.literalStart s'.enc.matchOff s'.enc.sp =
        backwardCount s.mem s.srcPtr s.enc.literalStart s.enc.matchOff s.enc.sp := by
      rw [e2, e3, mo]
      exact backwardCount_congr _ _ h.src (by omega) b1
    rw [hvs] at hv
    cases hv
    rw [hcount] at hv'
    exact ⟨_, hv', ⟨e1, h.src, h.phase, busy, by simp [e2], e3, e4, rfl,
      fun i hi _ => old (by simp [he]) i hi, fun _ _ => lm, by simp, fun _ => by simp [mo], by simp⟩⟩
  | eToken =>
    have he' := h.estate.trans he
    have lm := h.limits (by simp [he]) (by simp [he])
    have mo := h.matchOff (.inr (.inl he))
    obtain ⟨h1, h2, h3⟩ := hr.tokenBounds he
    obtain ⟨h1', h2', h3'⟩ := hr'.tokenBounds he'
    have hv' : encoderVisit s' = encToken s' := by simp only [encoderVisit, he']
    rw [encToken_eq hr'.2.1 h1' h2' h3'] at hv'
    rw [show encoderVisit s = encToken s by simp only [encoderVisit, he], encToken_eq hr.2.1 h1 h2 h3] at hv
    cases hv
    rw [e2, e3] at h3'
    rw [e2, e3, e4, h.bytes (by omega)] at hv'
    obtain ⟨w1, w2, w3⟩ := h.write hw hw' (j := s.enc.dp + 1)
      (bs := lengthBytes (s.enc.sp - s.enc.literalStart) ++
        bytesFrom s.mem (s.srcPtr + s.enc.literalStart) (s.enc.sp - s.enc.literalStart))
      hr.2.1 hr'.2.1 (by simp only [List.length_append, bytesFrom_length]; omega)
      (by simp only [List.length_append, bytesFrom_length]; omega)
    simp only [List.length_append, bytesFrom_length] at w2
    refine ⟨_, hv', ⟨e1, w1, h.phase, busy, e2, e3, rfl, rfl, fun i hi hne => ?_, fun _ _ => lm, by simp,
      fun _ => mo, fun _ => ⟨rfl, rfl⟩⟩⟩
    simp only at hi
    have hne' : i ≠ s.enc.dp := hne rfl
    by_cases hlt : i < s.enc.dp
    · exact w3 i (by omega) (old (by simp [he]) i hlt)
    · exact w2 i (by omega) (by omega)
  | eMatch =>
    have he' := h.estate.trans he
    have lm := h.limits (by simp [he]) (by simp [he])
    have mo := h.matchOff (.inr (.inr he))
    obtain ⟨t1, t2⟩ := h.token he
    obtain ⟨h1, h2, h3, h4, h5, h6, h7⟩ := hr.matchBounds he
    obtain ⟨h1', h2', h3', h4', h5', h6', h7'⟩ := hr'.matchBounds he'
    have hk : matchExtra s' = matchExtra s := by
      rw [matchExtra, matchExtra, e2, mo, lm.1,
        show s'.srcPtr + s.enc.matchLimit = s'.srcPtr + (s.enc.sp + 4) + (s.enc.matchLimit - (s.enc.sp + 4)) by
          omega,
        show s.srcPtr + s.enc.matchLimit = s.srcPtr + (s.enc.sp + 4) + (s.enc.matchLimit - (s.enc.sp + 4)) by
          omega]
      apply lcpCount_congr <;>
      · intro i hi
        simp only [Nat.add_assoc]
        apply h.src
        omega
    have hv' : encoderVisit s' = encMatch s' := by simp only [encoderVisit, he']
    rw [encMatch_eq hr'.2.1 h2' (by omega) (by omega) h6' (by omega)] at hv'
    rw [show encoderVisit s = encMatch s by simp only [encoderVisit, he],
      encMatch_eq hr.2.1 h2 (by omega) (by omega) h6 (by omega)] at hv
    cases hv
    rw [hk] at h6'
    rw [hk, e2, e4, mo, t1, t2] at hv'
    obtain ⟨w1, w2, w3⟩ := h.write hw hw' (j := s.enc.dp)
      (bs := offsetBytes (s.enc.sp - s.enc.matchOff) ++ lengthBytes (matchExtra s))
      hr.2.1 hr'.2.1 (by simp only [List.length_append, offsetBytes_length]; omega)
      (by simp only [List.length_append, offsetBytes_length]; omega)
    simp only [List.length_append, offsetBytes_length] at w2
    refine ⟨_, hv', ⟨e1, fun i hi => ?_, h.phase, busy, rfl, e3, rfl, rfl, fun i hi _ => ?_, fun _ _ => lm,
      by simp, by simp, by simp⟩⟩
    · have o1 := disjointRanges_outside hr.2.1 hi
      have o2 := disjointRanges_outside hr'.2.1 (show i < s'.srcLen by rw [e1]; exact hi)
      simp only
      rw [memRead_write_of_ne _ _ (by omega), memRead_write_of_ne _ _ (by omega)]
      exact w1 i hi
    · simp only at hi ⊢
      by_cases hit : i = s.enc.tokenPos
      · subst hit
        rw [memRead_write_self _ _ _ (writeBytes_wf _ _ _ hw'), memRead_write_self _ _ _
          (writeBytes_wf _ _ _ hw)]
      · rw [memRead_write_of_ne _ _ (by omega), memRead_write_of_ne _ _ (by omega)]
        by_cases hlt : i < s.enc.dp
        · exact w3 i hlt (h.written i hlt fun _ => hit)
        · exact w2 i (by omega) (by omega)
  | eAdvance =>
    have he' := h.estate.trans he
    have lm := h.limits (by simp [he]) (by simp [he])
    rw [show encoderVisit s = encAdvance s by simp only [encoderVisit, he]] at hv
    have hv' : encoderVisit s' = encAdvance s' := by simp only [encoderVisit, he']
    cases hv
    refine ⟨_, hv', ⟨e1, h.src, h.phase, busy, e2, e2, e4, by simp only [lm.2.1, e2],
      fun i hi _ => old (by simp [he]) i hi, fun _ _ => lm, fun hx => ?_, fun hx => ?_, fun hx => ?_⟩⟩ <;>
      (simp only at hx; split at hx <;> simp at hx)
  | eBackfill =>
    have he' := h.estate.trans he
    obtain ⟨l1, l2, l3⟩ := h.limits (by simp [he]) (by simp [he])
    obtain ⟨h1, h2, -⟩ := hr.followBounds (.inl he)
    obtain ⟨-, p2, -⟩ := h.probe l3 hh hh' (sp := s.enc.sp - 2) (by omega)
    obtain ⟨pk, hvs⟩ := encBackfill_eq (s := s) (by omega)
    obtain ⟨pk', hvs'⟩ := encBackfill_eq (s := s') (by omega)
    have hv' : encoderVisit s' = encBackfill s' := by simp only [encoderVisit, he']
    rw [hvs', e2] at hv'
    rw [show encoderVisit s = encBackfill s by simp only [encoderVisit, he], hvs] at hv
    cases hv
    exact ⟨_, hv', ⟨e1, h.src, h.phase, busy, e2, e3, e4, rfl,
      fun i hi _ => old (by simp [he]) i hi, fun _ _ => ⟨l1, l2, p2⟩, by simp, by simp, by simp⟩⟩
  | eFollow =>
    have he' := h.estate.trans he
    obtain ⟨l1, l2, l3⟩ := h.limits (by simp [he]) (by simp [he])
    obtain ⟨h1, h2, h3⟩ := hr.followBounds (.inr he)
    obtain ⟨h1', h2', h3'⟩ := hr'.followBounds (.inr he')
    have hm : probeMatch s s.enc.sp < s.enc.sp := h3 _
    have hm' : probeMatch s' s'.enc.sp < s'.enc.sp := h3' _
    obtain ⟨p1, p2, p3⟩ := h.probe l3 hh hh' (sp := s.enc.sp) (by omega)
    replace p3 := p3 (by omega)
    have hv' : encoderVisit s' = encFollow s' := by simp only [encoderVisit, he']
    rw [show encoderVisit s = encFollow s by simp only [encoderVisit, he]] at hv
    obtain ⟨pk, hvs⟩ := encFollow_eq (s := s) (by omega) (by omega)
    obtain ⟨pk', hvs'⟩ := encFollow_eq (s := s') (by omega) (by omega)
    rw [← hv'] at hvs'
    rcases hvs with ⟨hval, hvs⟩ | ⟨hval, hvs⟩ <;> rw [hvs] at hv <;> cases hv <;>
      rcases hvs' with ⟨hval', hvs'⟩ | ⟨hval', hvs'⟩ <;> rw [e2] at hval'
    · refine ⟨_, hvs', ⟨e1, h.src, h.phase, busy, e2, e3, by simp [e4], rfl,
        fun i hi hne => old (by simp [he]) i ?_, fun _ _ => ⟨l1, l2, by rw [e2]; exact p2⟩, by simp,
        fun _ => by simp only [e2, p1], fun _ => ⟨e4, rfl⟩⟩⟩
      have : i ≠ s.enc.dp := hne rfl
      simp only at hi
      omega
    · exact absurd (p3.2 hval) hval'
    · exact absurd (p3.1 hval') hval
    · exact ⟨_, hvs', ⟨e1, h.src, h.phase, busy, e2, e3, e4, rfl, fun i hi _ => old (by simp [he]) i hi,
        fun _ _ => ⟨l1, l2, by rw [e2]; exact p2⟩, by simp, by simp, by simp⟩⟩
  | eFinal =>
    have he' := h.estate.trans he
    obtain ⟨h1, h2⟩ := hr.finalBounds he
    obtain ⟨h1', h2'⟩ := hr'.finalBounds he'
    have hv' : encoderVisit s' = encFinal s' := by simp only [encoderVisit, he']
    rw [encFinal_eq hr'.2.1 h1' h2'] at hv'
    rw [show encoderVisit s = encFinal s by simp only [encoderVisit, he], encFinal_eq hr.2.1 h1 h2] at hv
    cases hv
    rw [e1, e3, e4] at h2'
    have hbs := h.bytes (i := s.enc.literalStart) (n := s.srcLen - s.enc.literalStart) (by omega)
    obtain ⟨w1, w2, w3⟩ := h.write hw hw' (j := s.enc.dp)
      (bs := literalToken (s.srcLen - s.enc.literalStart) ::
        (lengthBytes (s.srcLen - s.enc.literalStart) ++
          bytesFrom s.mem (s.srcPtr + s.enc.literalStart) (s.srcLen - s.enc.literalStart)))
      hr.2.1 hr'.2.1 (by simp only [List.length_cons, List.length_append, bytesFrom_length]; omega)
      (by simp only [List.length_cons, List.length_append, bytesFrom_length]; omega)
    simp only [List.length_cons, List.length_append, bytesFrom_length] at w2
    refine ⟨_, hv', ⟨e1, ?_, rfl, fun _ => ⟨rfl, by simp [e1, e3, e4], by simp, by simp [he]⟩, e2, e3,
      by simp [e1, e3, e4], h.estate, ?_, by simp [he], by simp [he], by simp [he], by simp [he]⟩⟩
    · simp only [ret_mem, ret_srcLen, ret_srcPtr]
      rw [e1, e3, e4, hbs]
      exact w1
    · simp only [ret_mem, ret_dstPtr, ret_enc]
      rw [e1, e3, e4, hbs]
      intro i hi _
      by_cases hlt : i < s.enc.dp
      · exact w3 i hlt (old (by simp [he]) i hlt)
      · exact w2 i (by omega) (by omega)

/-- Visits keep two encodes in step to the end. -/
theorem encoder_runs_agree (hr : Runs encoderVisit s t) :
    ∀ {s' : State}, EncAgree s s' → s.enc.estate ≠ .ePrecheck →
      (s.phase = .busy → EncodeRunning s ∧ EncodeRunning s') →
      s.mem.wf → s'.mem.wf → storeWf s.ht → storeWf s'.ht →
      ∃ t', Runs encoderVisit s' t' ∧ EncAgree t t' := by
  induction hr with
  | refl s => intro s' h _ _ _ _ _ _; exact ⟨s', .refl _, h⟩
  | @head s u t hb hv _ ih =>
    intro s' h hp hrun hw hw' hh hh'
    obtain ⟨r, r'⟩ := hrun hb
    obtain ⟨u', hv', h'⟩ := encoderVisit_agrees h r r' hp hw hw' hh hh' hv
    have f := (encoderVisit_frame hv).1
    have f' := (encoderVisit_frame hv').1
    have next : ∀ {a b : State}, EncodeRunning a → storeWf a.ht → encoderVisit a = .next b →
        b.phase = .busy → EncodeRunning b := by
      intro a b ha hha hab hbb
      obtain ⟨c, hc, hd⟩ := encoderVisit_progress ha hha
      rw [hab] at hc
      cases hc
      rcases hd with hd | hd
      · rw [hbb] at hd; cases hd.1
      · exact hd.1
    obtain ⟨t', hr', ht'⟩ := ih h' (encoderVisit_writes r hp hv).past
      (fun hub => ⟨next r hh hv hub, next r' hh' hv' (h'.phase.trans hub)⟩) (f.wf hw) (f'.wf hw')
      (f.htWf hh) (f'.htWf hh')
    exact ⟨t', .head (h.phase.trans hb) hv' hr', ht'⟩

end Sys2Proof.Machine
end

