-- ==== Sys2Proof/Laws/Step.lean ====
section
/-! SUPPORT. What a step is, case by case (10_state.md R14, 92_eei_decisions.md D8): idle, the command in `OP`
run whole; busy, one visit to a label of the running command. Later proofs cite these and never unfold `step`. -/

namespace Sys2Proof.Machine

open Sys2Proof.Config

variable {s : State}

theorem step_idle (h : s.phase = .idle) : step s = exec (decodeCommand s.op) s := by
  simp [step, fetch, h]

/-- A stream element run by `exec` is the element's meaning. -/
theorem exec_element {i : Instr} (h : isElement i = true) : exec i s = runElement i s := by
  cases i <;> first | rfl | simp [isElement] at h

theorem decode_isElement {c : Ctx} (hc : c ≠ .command) {bs rest : List Byte} {i : Instr}
    (h : decode c bs = .ok (i, rest)) : isElement i = true := by
  unfold decode at h
  split at h <;> first
    | exact absurd rfl hc
    | (cases h; rfl)
    | (cases h; split <;> rfl)
    | cases h

theorem elementCtx_ne_command {c : Ctx} (h : elementCtx s = some c) : c ≠ .command := by
  unfold elementCtx at h
  split at h <;> first
    | (cases h; simp)
    | (split at h <;> cases h; simp)
    | cases h

theorem step_decode (h : s.phase = .busy) (ho : s.op = 3#3) : step s = decoderVisit s := by
  simp only [step, fetch, h, ho, if_true, fetchElement, decoderVisit]
  cases hc : elementCtx s with
  | none => simp only [internalVisit, ho]; rfl
  | some c =>
    simp only
    cases hd : decode c (streamBytes c s) with
    | error e => rfl
    | ok p =>
      obtain ⟨i, rest⟩ := p
      exact exec_element (decode_isElement (elementCtx_ne_command hc) hd)

theorem step_busy (h : s.phase = .busy) (ho : s.op ≠ 3#3) : step s = internalVisit s := by
  simp only [step, fetch, h, ho, if_false]

theorem step_encode (h : s.phase = .busy) (ho : s.op = 2#3) : step s = encoderVisit s := by
  rw [step_busy h (by rw [ho]; decide)]
  simp only [internalVisit, ho]; rfl

theorem step_worstCase (h : s.phase = .busy) (ho : s.op = 1#3) : step s = worstCaseVisit s := by
  rw [step_busy h (by rw [ho]; decide)]
  simp only [internalVisit, ho]; rfl

theorem step_peek (h : s.phase = .busy) (ho : s.op = 4#3) : step s = peekVisit s := by
  rw [step_busy h (by rw [ho]; decide)]
  simp only [internalVisit, ho]; rfl

theorem step_lcp (h : s.phase = .busy) (ho : s.op = 5#3) : step s = lcpVisit s := by
  rw [step_busy h (by rw [ho]; decide)]
  simp only [internalVisit, ho]; rfl

/-- The visit of the running command, by the code in `OP`. -/
theorem op_cases (op : BitVec 3) : op = 0#3 ∨ op = 1#3 ∨ op = 2#3 ∨ op = 3#3 ∨ op = 4#3 ∨ op = 5#3 ∨
    op = 6#3 ∨ op = 7#3 := by revert op; decide

theorem step_refused (h : s.phase = .busy) (ho : s.op = 0#3 ∨ s.op = 6#3 ∨ s.op = 7#3) :
    step s = .refused .opNamesNoOperation := by
  rcases ho with ho | ho | ho <;>
  · rw [step_busy h (by rw [ho]; decide)]
    simp only [internalVisit, ho]; rfl

/-! ### Starting a command -/

theorem startWith_next {why : Option Refusal} {t : State} :
    startWith why s = .next t ↔ s.phase = .idle ∧ why = none ∧ t = { s with phase := .busy } := by
  unfold startWith
  cases hp : s.phase <;> cases why <;> simp [eq_comm]

theorem startWith_ready {why : Option Refusal} (h : s.phase = .idle) (hw : why = none) :
    startWith why s = .next { s with phase := .busy } := by
  simp [startWith, h, hw]

/-- The state in which a decode starts. -/
def decodeStart (s : State) : State := beginDecode { s with phase := .busy }

/-- The state in which an encode starts. -/
def encodeStart (s : State) : State := beginEncode { s with phase := .busy }

theorem exec_blockDecode_eq (h : CodecReady s) :
    exec .blockDecode s = runToEnd decoderVisit (decodeFuel s) (decodeStart s) := by
  show execBlockDecode s = _
  rw [execBlockDecode, startWith_ready h.1 h.2, andThen_next]
  rfl

theorem exec_blockEncode_eq (h : CodecReady s) :
    exec .blockEncode s = runToEnd encoderVisit (encodeFuel s) (encodeStart s) := by
  show execBlockEncode s = _
  rw [execBlockEncode, startWith_ready h.1 h.2, andThen_next]
  rfl

/-- A codec command that gives a next state was ready. -/
theorem exec_blockDecode_ready {t : State} (h : exec .blockDecode s = .next t) : CodecReady s := by
  obtain ⟨u, hu, -⟩ := andThen_eq_next.1 (show execBlockDecode s = .next t from h)
  exact ⟨(startWith_next.1 hu).1, (startWith_next.1 hu).2.1⟩

theorem exec_blockEncode_ready {t : State} (h : exec .blockEncode s = .next t) : CodecReady s := by
  obtain ⟨u, hu, -⟩ := andThen_eq_next.1 (show execBlockEncode s = .next t from h)
  exact ⟨(startWith_next.1 hu).1, (startWith_next.1 hu).2.1⟩

theorem CodecReady.disjoint (h : CodecReady s) :
    disjointRanges s.srcPtr s.srcLen s.dstPtr s.dstLen = true := by
  have := h.2
  unfold codecRefusal at this
  split at this
  · cases this
  · split at this
    · cases this
    · split at this
      · cases this
      · rename_i h3
        simpa using h3

theorem exec_worstCase_eq (h : s.phase = .idle) :
    exec .worstCaseDstLen s =
      .next (if encMaxSrcLen < s.srcLen then raise .srcTooLong s else ret (worstCaseSize s.srcLen) s) := by
  show execWorstCaseDstLen s = _
  rw [execWorstCaseDstLen, startWith_ready h rfl, andThen_next, runToEnd_busy rfl, worstCaseVisit]
  split <;> rw [andThen_next, runToEnd_idle rfl] <;> rfl

theorem exec_peek_eq (h : s.phase = .idle) (hr : peekRefusal s = none) (h4 : 4 ≤ s.srcLen) :
    exec .peekU32le s =
      .next (ret (memRead32 s.mem s.srcPtr).toNat (peekUnit s.srcPtr s)) := by
  show execPeekU32le s = _
  rw [execPeekU32le, startWith_ready h hr, andThen_next, runToEnd_busy rfl, peekVisit,
    if_neg (by dsimp only; omega), andThen_next, runToEnd_idle rfl]
  rfl

theorem exec_lcp_eq (h : s.phase = .idle) (hr : lcpRefusal s = none) :
    exec .lcp s =
      .next (ret (lcpHostCount s)
        { s with lcp := { p := s.srcPtr, q := s.dstPtr, pLimit := s.srcPtr + s.srcLen
                          k := lcpHostCount s } }) := by
  show execLcp s = _
  rw [execLcp, startWith_ready h hr, andThen_next, runToEnd_busy rfl, lcpVisit,
    if_neg (show ¬ lcpOutruns (beginLcp { s with phase := .busy }) from lcpRefusal_none hr), andThen_next, runToEnd_idle rfl]
  rfl

/-! ### A whole run is the steps of its command -/

/-- Two visits that agree while the command runs give the same run. -/
theorem runToEnd_congr {v w : State → Out} {P : State → Prop}
    (hvw : ∀ s, s.phase = .busy → P s → v s = w s)
    (hkeep : ∀ s t, s.phase = .busy → P s → v s = .next t → P t) :
    ∀ {fuel : Nat} {s : State}, P s → runToEnd v fuel s = runToEnd w fuel s := by
  intro fuel
  induction fuel with
  | zero => intro s _; rfl
  | succ fuel ih =>
    intro s hp
    cases hb : s.phase with
    | idle => rw [runToEnd_idle hb, runToEnd_idle hb]
    | busy =>
      rw [runToEnd_busy hb, runToEnd_busy hb, ← hvw s hb hp]
      cases hv : v s with
      | next t => rw [andThen_next, andThen_next, ih (hkeep s t hb hp hv)]
      | fault r => rfl
      | refused r => rfl

theorem runToEnd_more {v : State → Out} {n : Nat} {s t : State} (h : runToEnd v n s = .next t) (k : Nat) :
    runToEnd v (n + k) s = .next t := by
  induction n generalizing s with
  | zero =>
    simp only [runToEnd] at h
    split at h
    · cases h
      exact runToEnd_idle (by assumption) _
    · cases h
  | succ n ih =>
    cases hb : s.phase with
    | idle => rw [runToEnd_idle hb] at h ⊢; exact h
    | busy =>
      rw [runToEnd_busy hb] at h
      rw [show n + 1 + k = (n + k) + 1 by omega, runToEnd_busy hb]
      obtain ⟨u, hu, h⟩ := andThen_eq_next.1 h
      rw [hu, andThen_next]
      exact ih h

/-- Two runs of different lengths that both end, end alike. -/
theorem runToEnd_unique {v : State → Out} {n k : Nat} {s t u : State} (h : runToEnd v n s = .next t)
    (h' : runToEnd v k s = .next u) : t = u := by
  have h1 := runToEnd_more h k
  have h2 := runToEnd_more h' n
  rw [Nat.add_comm, h2] at h1
  cases h1
  rfl

theorem runToEnd_decoder_step {n : Nat} (ho : s.op = 3#3) :
    runToEnd decoderVisit n s = runToEnd step n s :=
  runToEnd_congr (P := fun s => s.op = 3#3) (fun s hb ho => (step_decode hb ho).symm)
    (fun s t hb ho hv => by rw [(decoderVisit_frame hb hv).op]; exact ho) ho

theorem runToEnd_encoder_step {n : Nat} (ho : s.op = 2#3) :
    runToEnd encoderVisit n s = runToEnd step n s :=
  runToEnd_congr (P := fun s => s.op = 2#3) (fun s hb ho => (step_encode hb ho).symm)
    (fun s t _ ho hv => by rw [(encoderVisit_frame hv).1.op]; exact ho) ho

end Sys2Proof.Machine
end

