-- ==== Sys2Proof/Laws/Machine.lean ====
section
/-! SUPPORT. What every step leaves unchanged, and that every step keeps the machine's invariant
(10_state.md R12, R14; 20_memory.md R43; 60_exceptions.md R179). -/

namespace Sys2Proof.Machine

open Sys2Proof.Config

variable {s t u : State}

/-! ### What no step changes -/

/-- What steps of one command keep: parameters and operands, memory outside the destination, memory as a whole
unless the command is a codec, and the canonical form of the stores. -/
structure StepKeeps (s t : State) : Prop where
  operands : OperandsKept s t
  writes : WritesOnly s.dstPtr s.dstLen s t
  quiet : s.op ≠ 2#3 → s.op ≠ 3#3 → t.mem = s.mem
  wf : s.mem.wf → t.mem.wf
  htWf : storeWf s.ht → storeWf t.ht

theorem OperandsKept.refl (s : State) : OperandsKept s s := ⟨rfl, rfl, rfl, rfl, rfl, rfl⟩

theorem OperandsKept.trans (h : OperandsKept s u) (h' : OperandsKept u t) : OperandsKept s t :=
  ⟨h'.params.trans h.params, h'.op.trans h.op, h'.dstPtr.trans h.dstPtr, h'.dstLen.trans h.dstLen,
    h'.srcPtr.trans h.srcPtr, h'.srcLen.trans h.srcLen⟩

theorem StepKeeps.trans (h : StepKeeps s u) (h' : StepKeeps u t) : StepKeeps s t :=
  ⟨h.operands.trans h'.operands,
    fun a ha => by
      rw [h'.writes a (by rw [h.operands.dstPtr, h.operands.dstLen]; exact ha), h.writes a ha],
    fun h2 h3 => by
      rw [h'.quiet (by rw [h.operands.op]; exact h2) (by rw [h.operands.op]; exact h3), h.quiet h2 h3],
    fun hw => h'.wf (h.wf hw), fun hw => h'.htWf (h.htWf hw)⟩

/-- A step that writes neither memory nor the table. -/
theorem StepKeeps.of_same (h : OperandsKept s t) (hm : t.mem = s.mem) (hh : t.ht = s.ht) :
    StepKeeps s t :=
  ⟨h, fun a _ => by rw [hm], fun _ _ => hm, by rw [hm]; exact id, by rw [hh]; exact id⟩

theorem DecStable.keeps (h : DecStable s t) (ho : s.op = 3#3) : StepKeeps s t :=
  ⟨⟨h.params, h.op, h.dstPtr, h.dstLen, h.srcPtr, h.srcLen⟩, h.mem, fun _ h3 => absurd ho h3, h.wf,
    by rw [h.ht]; exact id⟩

theorem EncStable.keeps (h : EncStable s t) (ho : s.op = 2#3) : StepKeeps s t :=
  ⟨⟨h.params, h.op, h.dstPtr, h.dstLen, h.srcPtr, h.srcLen⟩, h.mem, fun h2 _ => absurd ho h2, h.wf, h.htWf⟩

/-- How a step leaves the result registers: still running, as they were; ended, written together. -/
def ResultRule (s t : State) : Prop :=
  t.phase = .busy ∧ t.status = s.status ∧ t.value = s.value ∧ t.ended = s.ended ∨
    t.phase = .idle ∧ t.ended = true ∧ (t.status ≠ .ok → t.value = 0)

/-- A step of a running command. -/
theorem step_busy_frame (hb : s.phase = .busy) (h : step s = .next t) :
    StepKeeps s t ∧ ResultRule s t := by
  rcases op_cases s.op with ho | ho | ho | ho | ho | ho | ho | ho
  · rw [step_refused hb (.inl ho)] at h; cases h
  · rw [step_worstCase hb ho, worstCaseVisit] at h
    split at h <;> cases h
    · exact ⟨.of_same ⟨rfl, rfl, rfl, rfl, rfl, rfl⟩ rfl rfl, .inr ⟨rfl, rfl, fun _ => rfl⟩⟩
    · exact ⟨.of_same ⟨rfl, rfl, rfl, rfl, rfl, rfl⟩ rfl rfl, .inr ⟨rfl, rfl, by simp⟩⟩
  · rw [step_encode hb ho] at h
    obtain ⟨hs, hr⟩ := encoderVisit_frame h
    refine ⟨hs.keeps ho, ?_⟩
    rcases hr with ⟨h1, h2⟩ | hr
    · exact .inl ⟨h1.trans hb, h2⟩
    · refine .inr ⟨hr.phase, hr.ended, fun hne => ?_⟩
      rcases hr.result with h1 | h1
      · exact absurd h1.1 hne
      · exact h1.2.1
  · rw [step_decode hb ho] at h
    have hf := decoderVisit_frame hb h
    refine ⟨hf.stable.keeps ho, ?_⟩
    rcases hf.ends with h1 | ⟨h1, h2, h3⟩
    · exact .inl h1
    · refine .inr ⟨h1, h2, fun hne => ?_⟩
      rcases h3 with h3 | h3
      · exact absurd h3.1 hne
      · exact h3.2
  · rw [step_peek hb ho, peekVisit] at h
    split at h <;> cases h
    exact ⟨.of_same ⟨rfl, rfl, rfl, rfl, rfl, rfl⟩ rfl rfl, .inr ⟨rfl, rfl, by simp⟩⟩
  · rw [step_lcp hb ho, lcpVisit] at h
    split at h <;> cases h
    exact ⟨.of_same ⟨rfl, rfl, rfl, rfl, rfl, rfl⟩ rfl rfl, .inr ⟨rfl, rfl, by simp⟩⟩
  · rw [step_refused hb (.inr (.inl ho))] at h; cases h
  · rw [step_refused hb (.inr (.inr ho))] at h; cases h

/-! ### An idle step is a started command stepped to its end -/

/-- Everything a start can do: `PHASE` becomes busy, and the working registers of the command are begun. -/
theorem hostStart_eq (h : hostStart s = .next u) :
    s.phase = .idle ∧ u = { s with phase := .busy, dec := u.dec, enc := u.enc, lcp := u.lcp } := by
  unfold hostStart at h
  split at h <;> first
    | cases h
    | (obtain ⟨h1, -, rfl⟩ := startWith_next.1 h
       exact ⟨h1, rfl⟩)
    | (obtain ⟨v, hv, h⟩ := andThen_eq_next.1 h
       obtain ⟨h1, -, rfl⟩ := startWith_next.1 hv
       cases h
       exact ⟨h1, rfl⟩)

theorem hostStart_mem (h : hostStart s = .next u) : u.mem = s.mem := by rw [(hostStart_eq h).2]

theorem hostStart_keeps (h : hostStart s = .next u) :
    s.phase = .idle ∧ u.phase = .busy ∧ StepKeeps s u := by
  obtain ⟨hi, e⟩ := hostStart_eq h
  rw [e]
  exact ⟨hi, rfl, .of_same ⟨rfl, rfl, rfl, rfl, rfl, rfl⟩ rfl rfl⟩

/-- Every idle step that gives a state is a start and steps of the running command (D8). -/
theorem exec_command_steps (hi : s.phase = .idle) (h : exec (decodeCommand s.op) s = .next t) :
    ∃ u n, hostStart s = .next u ∧ runToEnd step n u = .next t := by
  rcases op_cases s.op with ho | ho | ho | ho | ho | ho | ho | ho <;>
    rw [ho] at h <;> simp only [hostStart, ho]
  · cases h
  · refine ⟨{ s with phase := .busy }, 1, startWith_ready hi rfl, ?_⟩
    rw [show exec (decodeCommand 1#3) s = exec .worstCaseDstLen s from rfl, exec_worstCase_eq hi] at h
    rw [runToEnd_busy rfl, step_worstCase (s := { s with phase := .busy }) rfl ho, worstCaseVisit, ← h]
    split <;> rw [andThen_next, runToEnd_idle rfl] <;> rfl
  · rw [show exec (decodeCommand 2#3) s = exec .blockEncode s from rfl] at h
    have hr := exec_blockEncode_ready h
    rw [exec_blockEncode_eq hr, runToEnd_encoder_step (s := encodeStart s) ho] at h
    refine ⟨encodeStart s, _, ?_, h⟩
    show andThen (startWith (codecRefusal s) s) _ = _
    rw [startWith_ready hr.1 hr.2]; rfl
  · rw [show exec (decodeCommand 3#3) s = exec .blockDecode s from rfl] at h
    have hr := exec_blockDecode_ready h
    rw [exec_blockDecode_eq hr, runToEnd_decoder_step (s := decodeStart s) ho] at h
    refine ⟨decodeStart s, _, ?_, h⟩
    show andThen (startWith (codecRefusal s) s) _ = _
    rw [startWith_ready hr.1 hr.2]; rfl
  · obtain ⟨u, hu, h⟩ := andThen_eq_next.1 (show execPeekU32le s = .next t from h)
    obtain ⟨-, -, rfl⟩ := startWith_next.1 hu
    refine ⟨_, 1, hu, ?_⟩
    rw [runToEnd_congr (w := peekVisit) (P := fun v => v.op = 4#3)
      (fun v hv hp => step_peek hv hp)
      (fun v w hv hp hw => (step_busy_frame hv hw).1.operands.op.trans hp)
      (s := { s with phase := .busy }) ho]
    exact h
  · obtain ⟨u, hu, h⟩ := andThen_eq_next.1 (show execLcp s = .next t from h)
    obtain ⟨-, -, rfl⟩ := startWith_next.1 hu
    refine ⟨_, 1, by rw [hu]; rfl, ?_⟩
    rw [runToEnd_congr (w := lcpVisit) (P := fun v => v.op = 5#3)
      (fun v hv hp => step_lcp hv hp)
      (fun v w hv hp hw => (step_busy_frame hv hw).1.operands.op.trans hp)
      (s := beginLcp { s with phase := .busy }) ho]
    exact h
  · cases h
  · cases h

/-- What holds after the start of a command and is kept by its steps holds after an idle step. -/
theorem step_idle_keeps {P : State → Prop} (hi : s.phase = .idle)
    (hstart : ∀ u, hostStart s = .next u → P u)
    (hstep : ∀ u v, u.phase = .busy → P u → step u = .next v → P v) (h : step s = .next t) :
    P t ∧ t.phase = .idle := by
  rw [step_idle hi] at h
  obtain ⟨u, n, hu, h⟩ := exec_command_steps hi h
  exact runToEnd_keeps hstep (hstart u hu) h

/-- Every step keeps the operands and writes only the destination; it ends or leaves the result. -/
theorem step_frame (h : step s = .next t) :
    StepKeeps s t ∧ (t.phase = .busy → s.phase = .busy) ∧ ResultRule s t := by
  cases hp : s.phase with
  | busy => exact ⟨(step_busy_frame hp h).1, fun _ => rfl, (step_busy_frame hp h).2⟩
  | idle =>
    have := step_idle_keeps (P := fun v => StepKeeps s v ∧
        (v.phase = .busy ∨ v.phase = .idle ∧ v.ended = true ∧ (v.status ≠ .ok → v.value = 0))) hp
      (fun u hu => ⟨(hostStart_keeps hu).2.2, .inl (hostStart_keeps hu).2.1⟩)
      (fun u v hb hk hv => by
        obtain ⟨h1, h2⟩ := step_busy_frame hb hv
        refine ⟨hk.1.trans h1, ?_⟩
        rcases h2 with h2 | h2
        · exact .inl h2.1
        · exact .inr h2) h
    obtain ⟨⟨h1, h2⟩, h3⟩ := this
    refine ⟨h1, fun hb => ?_, ?_⟩
    · rw [h3] at hb; cases hb
    · rcases h2 with h2 | h2
      · rw [h3] at h2; cases h2
      · exact .inr h2

/-! ### The invariant -/

/-- A running command with the invariant: a step gives a state that has it. -/
theorem step_busy_inv (hm : MachineInv s) (hb : s.phase = .busy) :
    ∃ t, step s = .next t ∧ MachineInv t := by
  have hrun := hm.running hb
  obtain ⟨hw, hh⟩ := hm.stores
  have build : ∀ t, step s = .next t → (t.phase = .busy → CommandRunning t) →
      (t.phase = .idle → t.value < 2 ^ t.params.xlen) → ∃ t, step s = .next t ∧ MachineInv t := by
    intro t ht hr hv
    obtain ⟨hk, hres⟩ := step_busy_frame hb ht
    have hr0 := hm.registers
    refine ⟨t, ht, ⟨⟨hk.wf hw, hk.htWf hh⟩, ⟨?_, ?_, ?_, ?_, ?_, ?_⟩, ?_, hr⟩⟩
    · rw [hk.operands.params]; exact hr0.xlen
    · rw [hk.operands.params, hk.operands.dstPtr]; exact hr0.dstPtr
    · rw [hk.operands.params, hk.operands.dstLen]; exact hr0.dstLen
    · rw [hk.operands.params, hk.operands.srcPtr]; exact hr0.srcPtr
    · rw [hk.operands.params, hk.operands.srcLen]; exact hr0.srcLen
    · rcases hres with ⟨-, -, h2, -⟩ | ⟨h1, -⟩
      · rw [hk.operands.params, h2]; exact hr0.value
      · exact hv h1
    · rcases hres with ⟨-, h1, h2, -⟩ | ⟨-, -, h3⟩
      · intro hne
        rw [h2]
        exact hm.failed (by rw [← h1]; exact hne)
      · exact h3
  have hpow : 2 ^ 32 ≤ 2 ^ s.params.xlen := Nat.pow_le_pow_right (by omega) hm.registers.xlen
  rcases op_cases s.op with ho | ho | ho | ho | ho | ho | ho | ho <;>
    simp only [CommandRunning, ho] at hrun
  · exact hrun.elim
  · have hv := step_worstCase hb ho
    rw [worstCaseVisit] at hv
    split at hv
    · exact build _ hv (by simp) (fun _ => by simp)
    · rename_i hle
      refine build _ hv (by simp) (fun _ => ?_)
      simp only [encMaxSrcLen] at hle
      simp only [ret_value, ret_params, worstCaseSize, wcDiv, wcAdd]
      omega
  · obtain ⟨t, ht, hd⟩ := encoderVisit_progress hrun hh
    have hf := encoderVisit_frame ht
    refine build t (by rw [step_encode hb ho]; exact ht) (fun hbt => ?_) (fun hit => ?_)
    · rcases hd with hd | hd
      · rw [hbt] at hd; cases hd.1
      · rw [CommandRunning, hf.1.op, ho]; exact hd.1
    · rw [hf.1.params]
      rcases hd with hd | hd
      · exact Nat.lt_of_le_of_lt hd.2.2 hm.registers.dstLen
      · rw [hd.1.1] at hit; cases hit
  · obtain ⟨t, ht, hd⟩ := decoderVisit_progress hrun
    have hf := decoderVisit_frame hb ht
    refine build t (by rw [step_decode hb ho]; exact ht) (fun hbt => ?_) (fun hit => ?_)
    · rcases hd with hd | hd
      · rw [hbt] at hd; cases hd.1
      · rw [CommandRunning, hf.op, ho]; exact hd.1
    · rw [hf.params]
      rcases hd with hd | hd
      · exact Nat.lt_of_le_of_lt hd.2 hm.registers.dstLen
      · rw [hd.1.1] at hit; cases hit
  · have hv := step_peek hb ho
    rw [peekVisit, if_neg (by have : 4 ≤ s.srcLen := hrun; omega)] at hv
    refine build _ hv (by simp) (fun _ => ?_)
    exact Nat.lt_of_lt_of_le (BitVec.isLt _) hpow
  · have hv := step_lcp hb ho
    rw [lcpVisit, if_neg (show ¬ lcpOutruns s from hrun)] at hv
    refine build _ hv (by simp) (fun _ => ?_)
    exact Nat.lt_of_le_of_lt (lcpHostCount_le s).1 hm.registers.srcLen
  · exact hrun.elim
  · exact hrun.elim

/-- Starting a command from the invariant gives the invariant. -/
theorem hostStart_inv (hm : MachineInv s) (h : hostStart s = .next u) : MachineInv u := by
  obtain ⟨hi, hb, hk⟩ := hostStart_keeps h
  have keep : ∀ (d : DecRegs) (e : EncRegs) (l : LcpRegs),
      CommandRunning { s with phase := .busy, dec := d, enc := e, lcp := l } →
      MachineInv { s with phase := .busy, dec := d, enc := e, lcp := l } := fun d e l hc =>
    ⟨⟨hm.stores.mem, hm.stores.ht⟩, ⟨hm.registers.xlen, hm.registers.dstPtr, hm.registers.dstLen,
      hm.registers.srcPtr, hm.registers.srcLen, hm.registers.value⟩, hm.failed, fun _ => hc⟩
  rcases op_cases s.op with ho | ho | ho | ho | ho | ho | ho | ho <;> simp only [hostStart, ho] at h
  · cases h
  · obtain ⟨-, -, rfl⟩ := startWith_next.1 h
    exact keep s.dec s.enc s.lcp (by simp only [CommandRunning, ho]; trivial)
  · obtain ⟨v, hv, h⟩ := andThen_eq_next.1
      (show (andThen (startWith (codecRefusal s) s) fun t => .next (beginEncode t)) = .next u from h)
    obtain ⟨-, hr, rfl⟩ := startWith_next.1 hv
    cases h
    refine keep s.dec _ s.lcp ?_
    simp only [CommandRunning, ho]
    exact ⟨rfl, CodecReady.disjoint (s := s) ⟨hi, hr⟩, .inl ⟨rfl, rfl, rfl, rfl⟩⟩
  · obtain ⟨v, hv, h⟩ := andThen_eq_next.1
      (show (andThen (startWith (codecRefusal s) s) fun t => .next (beginDecode t)) = .next u from h)
    obtain ⟨-, hr, rfl⟩ := startWith_next.1 hv
    cases h
    refine keep _ s.enc s.lcp ?_
    simp only [CommandRunning, ho]
    exact ⟨rfl, .inl ⟨rfl, rfl, rfl⟩⟩
  · obtain ⟨-, hr, rfl⟩ := startWith_next.1 (show startWith (peekRefusal s) s = .next u from h)
    refine keep s.dec s.enc s.lcp ?_
    simp only [CommandRunning, ho]
    unfold peekRefusal at hr
    split at hr
    · cases hr
    · split at hr
      · cases hr
      · show 4 ≤ s.srcLen
        omega
  · obtain ⟨v, hv, h⟩ := andThen_eq_next.1
      (show (andThen (startWith (lcpRefusal s) s) fun t => .next (beginLcp t)) = .next u from h)
    obtain ⟨-, hr, rfl⟩ := startWith_next.1 hv
    cases h
    refine keep s.dec s.enc _ ?_
    simp only [CommandRunning, ho]
    exact lcpRefusal_none hr
  · cases h
  · cases h

/-! ### Several steps of the host's core -/

/-- The outcome of `n` steps, in the types of the machine. -/
def runSteps (n : Nat) (s : State) : Out := Host.Core.run Sys2Proof.core n s

/-- Go on after the first outcome of a run, for any core. -/
def afterFirst {σ φ ρ : Type} (o : Host.Outcome σ φ ρ) (f : σ → Host.Outcome σ φ ρ) :
    Host.Outcome σ φ ρ :=
  match o with
  | .next s => f s
  | .fault r => .fault r
  | .refused r => .refused r

theorem core_run_succ (M : Host.Core) (n : Nat) (s : M.State) :
    M.run (n + 1) s = afterFirst (M.step s) (M.run n) := by
  rw [Host.Core.run]; cases M.step s <;> rfl

theorem runSteps_succ (n : Nat) (s : State) :
    runSteps (n + 1) s = andThen (step s) (runSteps n) := by
  have h : runSteps (n + 1) s = afterFirst (step s) (runSteps n) := core_run_succ Sys2Proof.core n s
  rw [h]
  cases step s <;> rfl

/-- The last step of a run: `n` steps and then one. -/
theorem runSteps_last (n : Nat) (s : State) : runSteps (n + 1) s = andThen (runSteps n s) step := by
  induction n generalizing s with
  | zero => rw [runSteps_succ]; show _ = step s; cases step s <;> rfl
  | succ n ih =>
    rw [runSteps_succ, runSteps_succ n]
    cases step s with
    | next t => exact ih t
    | fault r => rfl
    | refused r => rfl

end Sys2Proof.Machine
end

