-- ==== Sys2Proof/Laws/Operands.lean ====
section
/-! SUPPORT. What makes a (pointer, length) pair a buffer, byte by byte (20_memory.md R41, R42, R52), and that a
broken contract refuses a command in both of its forms (60_exceptions.md R184). -/

namespace Sys2Proof.Machine

open Sys2Proof.Config

/-- Two ranges that both have bytes share one exactly when each starts before the other ends. -/
theorem inRange_shared {p lp q lq : Nat} :
    (∃ a, InRange p lp a ∧ InRange q lq a) ↔ 0 < lp ∧ 0 < lq ∧ p < q + lq ∧ q < p + lp := by
  constructor
  · rintro ⟨a, ⟨h1, h2⟩, h3, h4⟩
    omega
  · rintro ⟨h1, h2, h3, h4⟩
    exact ⟨max p q, ⟨by omega, by omega⟩, by omega, by omega⟩

/-- A range with bytes touches a region exactly when they share one. -/
theorem touches_iff {ptr len : Nat} {r : Region} (h : 0 < len) :
    touches ptr len r = true ↔ ∃ a, InRange ptr len a ∧ InRange r.base r.size a := by
  rw [inRange_shared]
  simp only [touches, Bool.and_eq_true, decide_eq_true_eq]
  omega

/-- Two ranges are disjoint exactly when they share no byte (R52). -/
theorem disjointRanges_iff {p lp q lq : Nat} :
    disjointRanges p lp q lq = true ↔ ∀ a, ¬ (InRange p lp a ∧ InRange q lq a) := by
  rw [← not_exists, inRange_shared]
  simp only [disjointRanges, Bool.or_eq_true, beq_iff_eq, decide_eq_true_eq]
  omega

/-- The bytes of a range are plain exactly when it has none, or does not wrap and touches no barred region. -/
theorem plainBytes_iff {p : Params} {barred : List RegionKind} {ptr len : Nat} :
    PlainBytes p barred ptr len ↔ len = 0 ∨ ptr + len ≤ 2 ^ p.xlen ∧
      ∀ r ∈ p.map, r.kind ∈ barred → ¬ touches ptr len r = true := by
  constructor
  · intro h
    by_cases hl : len = 0
    · exact .inl hl
    · refine .inr ⟨?_, fun r hr hk ht => ?_⟩
      · have := (h (ptr + len - 1) ⟨by omega, by omega⟩).1
        omega
      · obtain ⟨a, ha, hb⟩ := (touches_iff (by omega)).1 ht
        exact (h a ha).2 r hr hk hb
  · rintro (rfl | ⟨h1, h2⟩) a ⟨ha, hb⟩
    · omega
    · exact ⟨by omega, fun r hr hk hc => h2 r hr hk ((touches_iff (by omega)).2 ⟨a, ⟨ha, hb⟩, hc⟩)⟩

/-! ### A broken contract -/

variable {s : State} {r : Refusal}

theorem startWith_refused {why : Option Refusal} (hi : s.phase = .idle) (h : why = some r) :
    startWith why s = .refused r := by
  simp [startWith, hi, h]

theorem peekU32le_refused (hi : s.phase = .idle) (h : peekRefusal s = some r) : RefusedWith .peekU32le r s := by
  refine ⟨?_, fun ho => ?_⟩
  · show execPeekU32le s = _
    rw [execPeekU32le, startWith_refused hi h, andThen]
  · simp only [hostStart, ho, startWith_refused hi h]

theorem lcp_refused (hi : s.phase = .idle) (h : lcpRefusal s = some r) : RefusedWith .lcp r s := by
  refine ⟨?_, fun ho => ?_⟩
  · show execLcp s = _
    rw [execLcp, startWith_refused hi h, andThen]
  · simp only [hostStart, ho, startWith_refused hi h, andThen]

theorem codec_refused (hi : s.phase = .idle) (h : codecRefusal s = some r) :
    RefusedWith .blockDecode r s ∧ RefusedWith .blockEncode r s := by
  refine ⟨⟨?_, fun ho => ?_⟩, ?_, fun ho => ?_⟩
  · show execBlockDecode s = _
    rw [execBlockDecode, startWith_refused hi h, andThen]
  · simp only [hostStart, ho, startWith_refused hi h, andThen]
  · show execBlockEncode s = _
    rw [execBlockEncode, startWith_refused hi h, andThen]
  · simp only [hostStart, ho, startWith_refused hi h, andThen]

end Sys2Proof.Machine
end

