-- ==== Sys2Proof/Laws/PerInstr.lean ====
section
/-! SUPPORT. What holds of every instruction as syntax, per constructor. `EncodedForm`: an encoded item has the
size of its position (30_encoding.md R68), a command's code fits the 3 bits of `OP` (R72, R73), and the stream
elements are exactly the items that stand at no command position. -/

namespace Sys2Proof.Laws.EncodedForm

open Sys2Proof Sys2Proof.Machine

/-- The encoding has the size its position gives it, and a command is one byte below 8. -/
def Statement (i : Instr) : Prop :=
  (encode i).length = (contextOf i).size ∧
    (isElement i = false ↔ contextOf i = .command) ∧
    (isElement i = false → ∀ b ∈ encode i, b.toNat < 8)

theorem worstCaseDstLen : Statement .worstCaseDstLen := by simp [Statement, encode, contextOf, Ctx.size, isElement]
theorem blockEncode : Statement .blockEncode := by simp [Statement, encode, contextOf, Ctx.size, isElement]
theorem blockDecode : Statement .blockDecode := by simp [Statement, encode, contextOf, Ctx.size, isElement]
theorem peekU32le : Statement .peekU32le := by simp [Statement, encode, contextOf, Ctx.size, isElement]
theorem lcp : Statement .lcp := by simp [Statement, encode, contextOf, Ctx.size, isElement]
theorem refusedOp0 : Statement .refusedOp0 := by simp [Statement, encode, contextOf, Ctx.size, isElement]
theorem refusedOp6 : Statement .refusedOp6 := by simp [Statement, encode, contextOf, Ctx.size, isElement]
theorem refusedOp7 : Statement .refusedOp7 := by simp [Statement, encode, contextOf, Ctx.size, isElement]
theorem token (l m : Nibble) : Statement (.token l m) := by
  simp [Statement, encode, contextOf, Ctx.size, isElement]
theorem litExtCont : Statement .litExtCont := by simp [Statement, encode, contextOf, Ctx.size, isElement]
theorem litExtEnd (r : Byte) : Statement (.litExtEnd r) := by
  simp [Statement, encode, contextOf, Ctx.size, isElement]
theorem literal (b : Byte) : Statement (.literal b) := by
  simp [Statement, encode, contextOf, Ctx.size, isElement]
theorem offset (copyOff : Half) : Statement (.offset copyOff) := by
  simp [Statement, encode, contextOf, Ctx.size, isElement]
theorem matchExtCont : Statement .matchExtCont := by simp [Statement, encode, contextOf, Ctx.size, isElement]
theorem matchExtEnd (r : Byte) : Statement (.matchExtEnd r) := by
  simp [Statement, encode, contextOf, Ctx.size, isElement]

end Sys2Proof.Laws.EncodedForm
end

