-- ==== Sys2Proof/Tests/Slice0.lean ====
section
/-! SUPPORT. The model's own tests: the well-formedness smoke, words written out from the encoding tables,
one step per instruction with results taken from the worked values of 95_test_vectors.md, and for every
statement with hypotheses a witness that meets them. -/

namespace Sys2Proof.Tests

open Sys2Proof Sys2Proof.Machine Sys2Proof.Config

/-! ### Small states -/

/-- An idle engine with a command, its source at 256 and its destination at 4096. -/
def idle (op : BitVec 3) (src : List Byte) (dstLen : Nat) : State :=
  { State.reset with
    op := op, dstPtr := 4096, dstLen := dstLen, srcPtr := 256, srcLen := src.length
    mem := writeBytes [] 256 src }

/-- The same with the primitives exported to the host, and bytes at the destination. -/
def idleHost (op : BitVec 3) (src dst : List Byte) : State :=
  { idle op src dst.length with
    params := { xlen := 32, hostPrimitives := true, map := [] }
    mem := writeBytes (writeBytes [] 256 src) 4096 dst }

/-- A running decode at a label. -/
def decoding (d : DState) (src : List Byte) (sp dp : Nat) : State :=
  { idle 3#3 src 64 with
    phase := .busy, dec := { State.reset.dec with sp := sp, dp := dp, dstate := d } }

/-- What a step leaves: `STATUS`, `VALUE` and the first `n` destination bytes. -/
def result (n : Nat) (o : Out) : Option (Status × Nat × List Byte) :=
  match o with
  | .next t => some (t.status, t.value, bytesFrom t.mem t.dstPtr n)
  | .fault _ | .refused _ => none

/-- Why a step was refused. -/
def refusal (o : Out) : Option Refusal :=
  match o with
  | .refused r => some r
  | .next _ | .fault _ => none

/-- The decoder's registers and the phase after a step. -/
def decodeRegs (o : Out) : Option (Phase × DecRegs) :=
  match o with
  | .next t => some (t.phase, t.dec)
  | .fault _ | .refused _ => none

theorem ends {o : Out} {st : Status} {v n : Nat} {bs : List Byte} (h : result n o = some (st, v, bs)) :
    ∃ t, o = .next t ∧ t.status = st ∧ t.value = v ∧ bytesFrom t.mem t.dstPtr n = bs := by
  cases o with
  | next t => simp only [result, Option.some.injEq, Prod.mk.injEq] at h; exact ⟨t, rfl, h⟩
  | fault _ => cases h
  | refused _ => cases h

theorem answers {o : Out} (h : (result 0 o).isSome = true) : ∃ t, o = .next t := by
  cases o with
  | next t => exact ⟨t, rfl⟩
  | fault _ => cases h
  | refused _ => cases h

theorem answersWith {o : Out} {st : Status} (h : (result 0 o).map Prod.fst = some st) :
    ∃ t, o = .next t ∧ t.status = st := by
  cases o with
  | next t => exact ⟨t, rfl, Option.some.inj h⟩
  | fault _ => cases h
  | refused _ => cases h

theorem goesOn {o : Out} {p : Phase} {d : DecRegs} (h : decodeRegs o = some (p, d)) :
    ∃ t, o = .next t ∧ t.phase = p ∧ t.dec = d := by
  cases o with
  | next t => simp only [decodeRegs, Option.some.injEq, Prod.mk.injEq] at h; exact ⟨t, rfl, h⟩
  | fault _ => cases h
  | refused _ => cases h

/-! ### Well-formed and ill-formed instructions (30_encoding.md R63) -/

theorem test_wf_litExtEnd : (Instr.litExtEnd 254#8).wf = true ∧ (Instr.litExtEnd 255#8).wf = false := by
  decide
theorem test_wf_matchExtEnd :
    (Instr.matchExtEnd 254#8).wf = true ∧ (Instr.matchExtEnd 255#8).wf = false := by decide

/-! ### Words written out from the encoding tables -/

theorem test_word_worstCaseDstLen : decode .command [0b00000001#8] = .ok (.worstCaseDstLen, []) := rfl
theorem test_word_blockEncode : decode .command [0b00000010#8] = .ok (.blockEncode, []) := rfl
theorem test_word_blockDecode : decode .command [0b00000011#8] = .ok (.blockDecode, []) := rfl
theorem test_word_peekU32le : decode .command [0b00000100#8] = .ok (.peekU32le, []) := rfl
theorem test_word_lcp : decode .command [0b00000101#8] = .ok (.lcp, []) := rfl
theorem test_word_refusedOp0 : decode .command [0b00000000#8] = .ok (.refusedOp0, []) := rfl
theorem test_word_refusedOp6 : decode .command [0b00000110#8] = .ok (.refusedOp6, []) := rfl
theorem test_word_refusedOp7 : decode .command [0b00000111#8] = .ok (.refusedOp7, []) := rfl
theorem test_word_command_wide : decode .command [0b00001000#8] = .error .opTooWide := rfl
theorem test_word_token : decode .token [0b11110001#8, 0x01#8] = .ok (.token 15#4 1#4, [0x01#8]) := rfl
theorem test_word_litExtCont : decode .litExt [0b11111111#8] = .ok (.litExtCont, []) := rfl
theorem test_word_litExtEnd : decode .litExt [0b11111110#8] = .ok (.litExtEnd 254#8, []) := rfl
theorem test_word_literal : decode .literal [0b01000001#8] = .ok (.literal 0x41#8, []) := rfl
theorem test_word_offset :
    decode .offset [0b00001011#8, 0b00000001#8] = .ok (.offset 0x010B#16, []) := rfl
theorem test_word_matchExtCont : decode .matchExt [0b11111111#8] = .ok (.matchExtCont, []) := rfl
theorem test_word_matchExtEnd : decode .matchExt [0b00000011#8] = .ok (.matchExtEnd 3#8, []) := rfl

theorem test_table_words :
    decodeTableWord 8 3 = some .blockDecode ∧ decodeTableWord 8 0xF1 = some (.token 15#4 1#4) ∧
      decodeTableWord 8 0xFF = some .litExtCont ∧ decodeTableWord 16 0x000B = some (.offset 11#16) := by
  decide

/-- The instruction placed for the next step is what the next step runs. -/
theorem test_fetch_word :
    fetch (State.reset.withFetchWord 8 3) = .instr .blockDecode ∧
      fetch (State.reset.withFetchWord 8 0xF1) = .instr (.token 15#4 1#4) ∧
      fetch (State.reset.withFetchWord 16 0x000B) = .instr (.offset 11#16) := by decide

/-- The four codes of `STATUS` (R74). -/
theorem test_status_codes :
    Status.ofCode 0#2 = .ok ∧ Status.ofCode 1#2 = .dstTooShort ∧ Status.ofCode 2#2 = .invalidData ∧
      Status.ofCode 3#2 = .srcTooLong ∧ ∀ c, (Status.ofCode c).code = c := by decide

/-! ### The units, on the worked values of 95_test_vectors.md part 2 -/

theorem test_hash_hs3_hs6 :
    Machine.hash 0x61616161#32 = 0x253#12 ∧ Machine.hash 0x00100000#32 = 0x9B1#12 := by decide

theorem test_emit_ext_e11 : lengthBytes 270 = [0xFF#8, 0x00#8] ∧ lengthBytes 14 = [] := by decide

/-! ### One step per command -/

/-- WC7. -/
theorem test_worstCaseDstLen_wc7 :
    result 0 (step { idle 1#3 [] 0 with srcLen := 255 }) = some (.ok, 272, []) := by decide
/-- WC14. -/
theorem test_worstCaseDstLen_wc14 :
    result 0 (step { idle 1#3 [] 0 with srcLen := 0x7E000001 }) = some (.srcTooLong, 0, []) := by decide
/-- E12, PRG5: "abcd" five times, then twelve different bytes. -/
theorem test_blockEncode_e12 :
    result 20 (step (idle 2#3
      ((List.replicate 5 [0x61#8, 0x62#8, 0x63#8, 0x64#8]).flatten ++
        [0x30#8, 0x31#8, 0x32#8, 0x33#8, 0x34#8, 0x35#8, 0x36#8, 0x37#8, 0x38#8, 0x39#8, 0x41#8, 0x42#8])
      48)) =
      some (.ok, 20, [0x4C#8, 0x61#8, 0x62#8, 0x63#8, 0x64#8, 0x04#8, 0x00#8, 0xC0#8, 0x30#8, 0x31#8,
        0x32#8, 0x33#8, 0x34#8, 0x35#8, 0x36#8, 0x37#8, 0x38#8, 0x39#8, 0x41#8, 0x42#8]) := by decide
/-- E20. -/
theorem test_blockEncode_e20 : result 1 (step (idle 2#3 [] 15)) = some (.dstTooShort, 0, [0#8]) := by
  decide
/-- PRG3. -/
theorem test_blockDecode_prg3 :
    result 31 (step (idle 3#3 [0x21#8, 0x41#8, 0x42#8, 0x02#8, 0x00#8, 0x0F#8, 0x07#8, 0x00#8, 0x02#8,
      0x30#8, 0x58#8, 0x59#8, 0x5A#8] 31)) =
      some (.ok, 31, (List.replicate 4
        [0x41#8, 0x42#8, 0x41#8, 0x42#8, 0x41#8, 0x42#8, 0x41#8]).flatten ++
          [0x58#8, 0x59#8, 0x5A#8]) := by decide
/-- B14. -/
theorem test_blockDecode_b14 :
    result 2 (step (idle 3#3 [0x10#8, 0x41#8, 0x01#8, 0x00#8, 0x00#8] 4)) =
      some (.dstTooShort, 0, [0x41#8, 0x00#8]) := by decide
/-- PK3. -/
theorem test_peekU32le_pk3 :
    result 0 (step (idleHost 4#3 [0xFF#8, 0x00#8, 0x00#8, 0x80#8] [])) = some (.ok, 0x800000FF, []) := by
  decide
/-- PK6: three bytes are left of the buffer. -/
theorem test_peekU32le_pk6 :
    refusal (step (idleHost 4#3 [0x00#8, 0x00#8, 0x80#8] [])) = some .peekOutsideBuffer := by decide
/-- LC1: "abcdefgX" against "abcdefgh_". -/
theorem test_lcp_lc1 :
    result 0 (step (idleHost 5#3
      [0x61#8, 0x62#8, 0x63#8, 0x64#8, 0x65#8, 0x66#8, 0x67#8, 0x58#8]
      [0x61#8, 0x62#8, 0x63#8, 0x64#8, 0x65#8, 0x66#8, 0x67#8, 0x68#8, 0x5F#8])) = some (.ok, 7, []) := by
  decide
/-- LC3: an empty first sequence. -/
theorem test_lcp_lc3 : result 0 (step (idleHost 5#3 [] [0x61#8])) = some (.ok, 0, []) := by decide
theorem test_refusedOp0 : refusal (step (idle 0#3 [] 0)) = some .opNamesNoOperation := by decide
theorem test_refusedOp6 : refusal (step (idle 6#3 [] 0)) = some .opNamesNoOperation := by decide
theorem test_refusedOp7 : refusal (step (idle 7#3 [] 0)) = some .opNamesNoOperation := by decide

/-! ### One step per stream element -/

/-- PRG2 step 2. -/
theorem test_token_prg2 :
    decodeRegs (step (decoding .dToken [0x1F#8, 0x61#8] 0 0)) =
      some (.busy, { State.reset.dec with
        token := 0x1F#8, sp := 1, literalLen := 1#32, dstate := .dLitCheck }) := by decide
/-- PRG6 (c), the token. -/
theorem test_token_prg6 :
    decodeRegs (step (decoding .dToken [0xF0#8, 0xFF#8, 0x00#8] 0 0)) =
      some (.busy, { State.reset.dec with
        token := 0xF0#8, sp := 1, literalLen := 15#32, dstate := .dLitExt }) := by decide

/-- PRG6 (c) at its first `D_LITEXT`. -/
def literalRun (b : Byte) : State :=
  { decoding .dLitExt [0xF0#8, b, 0x00#8] 1 0 with
    dec := { (decoding .dLitExt [] 1 0).dec with literalLen := 15#32 } }

/-- PRG6 (c): 15 + 255 = 270, and the run goes on. -/
theorem test_litExtCont_prg6 :
    decodeRegs (step (literalRun 0xFF#8)) =
      some (.busy, { (literalRun 0#8).dec with sp := 2, literalLen := 270#32 }) := by decide
/-- B24: 15 + 254 = 269, and the run ends. -/
theorem test_litExtEnd_b24 :
    decodeRegs (step (literalRun 0xFE#8)) =
      some (.busy, { (literalRun 0#8).dec with
        sp := 2, literalLen := 269#32, dstate := .dLitCheck }) := by decide
theorem test_litExtEnd_illFormed :
    refusal (exec (.litExtEnd 255#8) (literalRun 0xFF#8)) = some .elementIllFormed := by decide

/-- PRG1 at its `D_LITCOPY`. -/
def literalCopy : State :=
  { decoding .dLitCopy [0x40#8, 0x61#8, 0x62#8, 0x63#8, 0x64#8] 1 0 with
    dec := { (decoding .dLitCopy [] 1 0).dec with n := 4#32 } }

/-- PRG1 step 4, its first byte. -/
theorem test_literal_prg1 :
    decodeRegs (step literalCopy) =
      some (.busy, { literalCopy.dec with sp := 2, dp := 1, n := 3#32 }) ∧
    result 2 (step literalCopy) = some (.ok, 0, [0x61#8, 0x00#8]) := by decide
theorem test_literal_outOfPosition :
    refusal (exec (.literal 0x61#8) (literalRun 0#8)) = some .elementOutOfPosition := by decide

/-- A running decode at `D_OFFSET` after a literal, the low nibble of the token `m`. -/
def atOffset (m : Byte) (off : Byte) : State :=
  { decoding .dOffset [m, 0x61#8, off, 0x00#8] 2 1 with
    dec := { (decoding .dOffset [] 2 1).dec with token := m } }

/-- PRG2 step 6. -/
theorem test_offset_prg2 :
    decodeRegs (step (atOffset 0x1F#8 0x01#8)) =
      some (.busy, { (atOffset 0x1F#8 0#8).dec with
        copyOff := 1#16, sp := 4, copyLen := 19#32, dstate := .dMatchExt }) := by decide
/-- B11: an offset of 2 after one byte. -/
theorem test_offset_b11 :
    result 0 (step (atOffset 0x10#8 0x02#8)) = some (.invalidData, 0, []) := by decide

/-- PRG2 at its `D_MATCHEXT`. -/
def matchRun (b : Byte) : State :=
  { decoding .dMatchExt [0x1F#8, 0x61#8, 0x01#8, 0x00#8, b] 4 1 with
    dec := { (decoding .dMatchExt [] 4 1).dec with
      token := 0x1F#8, copyOff := 1#16, copyLen := 19#32 } }

/-- E11's run FF 00: 19 + 255 = 274, and the run goes on. -/
theorem test_matchExtCont_e11 :
    decodeRegs (step (matchRun 0xFF#8)) =
      some (.busy, { (matchRun 0#8).dec with sp := 5, copyLen := 274#32 }) := by decide
/-- PRG2 step 7. -/
theorem test_matchExtEnd_prg2 :
    decodeRegs (step (matchRun 0x03#8)) =
      some (.busy, { (matchRun 0#8).dec with
        sp := 5, copyLen := 22#32, dstate := .dMatchCheck }) := by decide
theorem test_matchExtEnd_illFormed :
    refusal (exec (.matchExtEnd 255#8) (matchRun 0xFF#8)) = some .elementIllFormed := by decide

/-! ### Running states with the invariant -/

theorem idle_inv (op : BitVec 3) (src : List Byte) (dstLen : Nat) (hs : src.length < 2 ^ 32)
    (hd : dstLen < 2 ^ 32) : MachineInv (idle op src dstLen) :=
  ⟨⟨writeBytes_wf _ _ _ (by decide), show storeWf (w := 32) [] by decide⟩,
    ⟨show 32 ≤ 32 by decide, show 4096 < 2 ^ 32 by decide, hd, show 256 < 2 ^ 32 by decide, hs,
      show 0 < 2 ^ 32 by decide⟩, fun _ => rfl, fun h => by cases h⟩

/-- The state after the host's start of the command, or the same state where it cannot start. -/
def started (s : State) : State :=
  match hostStart s with
  | .next u => u
  | .fault _ | .refused _ => s

/-- The state after some visits of the running command; it stays once the command has ended. -/
def visits : Nat → State → State
  | 0, s => s
  | n + 1, s =>
    if s.phase = .busy then
      match step s with
      | .next t => visits n t
      | .fault _ | .refused _ => s
    else s

theorem started_inv {s : State} (h : MachineInv s) : MachineInv (started s) := by
  unfold started
  split
  · exact hostStart_inv h ‹_›
  · exact h
  · exact h

theorem visits_inv (n : Nat) {s : State} (h : MachineInv s) : MachineInv (visits n s) := by
  induction n generalizing s with
  | zero => exact h
  | succ n ih =>
    unfold visits
    split
    · rename_i hb
      obtain ⟨t, ht, hi⟩ := step_busy_inv h hb
      rw [ht]
      exact ih hi
    · exact h

/-- B12's block, a literal and an overlapping match of four: the states of its decode. -/
def decodeAt (n : Nat) : State :=
  visits n (started (idle 3#3 [0x10#8, 0x41#8, 0x01#8, 0x00#8, 0x00#8] 64))

theorem decodeAt_inv (n : Nat) : MachineInv (decodeAt n) :=
  visits_inv n (started_inv (idle_inv _ _ _ (by decide) (by decide)))

theorem decodeAt_decoding {n : Nat} {d : DState} (hb : (decodeAt n).phase = .busy)
    (ho : (decodeAt n).op = 3#3) (hd : (decodeAt n).dec.dstate = d) (hp : d ≠ .dPrecheck) :
    DecodingAt d (decodeAt n) ∧ DecoderInv (decodeAt n) := by
  refine ⟨⟨hb, ho, hd⟩, ?_⟩
  have h := (decodeAt_inv n).running hb
  rw [CommandRunning, ho] at h
  have hr : DecodeRunning (decodeAt n) := h
  exact hr.inv (by rw [hd]; exact hp)

/-- Twenty bytes, the first eight alike: the states of their encode. A match of seven bytes ends before the
final limit, so every label but the short path is visited. -/
def encodeSource : List Byte :=
  List.replicate 8 0x61#8 ++ [0x62#8, 0x63#8, 0x64#8, 0x65#8, 0x66#8, 0x67#8, 0x68#8, 0x69#8, 0x6A#8,
    0x6B#8, 0x6C#8, 0x6D#8]

def encodeAt (n : Nat) : State := visits n (started (idle 2#3 encodeSource 36))

theorem encodeAt_inv (n : Nat) : MachineInv (encodeAt n) :=
  visits_inv n (started_inv (idle_inv _ _ _ (by decide) (by decide)))

theorem encodeAt_encoding {n : Nat} {e : EState} (hb : (encodeAt n).phase = .busy)
    (ho : (encodeAt n).op = 2#3) (he : (encodeAt n).enc.estate = e) : EncodingAt e (encodeAt n) := by
  have h := (encodeAt_inv n).running hb
  rw [CommandRunning, ho] at h
  exact ⟨ho, he, h⟩

theorem ready {s : State} (hi : s.phase = .idle) (h : codecRefusal s = none) : CodecReady s := ⟨hi, h⟩

/-- Two sequences of three bytes that differ in the third. -/
def lcpState : State := idleHost 5#3 [1#8, 2#8, 3#8] [1#8, 2#8, 4#8]

theorem lcpState_inv : MachineInv lcpState :=
  ⟨⟨by decide, by decide⟩, ⟨by decide, by decide, by decide, by decide, by decide, by decide⟩,
    fun _ => rfl, fun h => by cases h⟩

/-! ### Witnesses: states and operands that meet the hypotheses of each statement -/

theorem witness_decodeOfEncode : (Instr.litExtEnd 254#8).wf = true ∧ (Instr.offset 0#16).wf = true := by
  decide

theorem witness_encodeOfDecode :
    decode .offset [0x00#8, 0xFF#8, 0x61#8] = .ok (.offset 0xFF00#16, [0x61#8]) := rfl

theorem witness_streamBytesAlwaysDecode :
    (Ctx.offset ≠ .command ∧ Ctx.offset.size ≤ [0#8, 0#8].length) ∧
      [0#8].length < Ctx.offset.size ∧ (7#8).toNat < 8 ∧ 8 ≤ (8#8).toNat := by decide

theorem witness_elementFields : (255#8).toNat = 255 ∧ (254#8).toNat < 255 := by decide

theorem witness_extensionRun :
    0 < 255 ∧ List.replicate 1 0xFF#8 ++ [BitVec.ofNat 8 0] = extBytes 255 ∧
      254 < 255 ∧ List.replicate 0 0xFF#8 ++ [BitVec.ofNat 8 254] = extBytes 254 := by decide

theorem witness_sequenceCosts : 4 ≤ (LzSeq.mk (List.replicate 15 0x61#8) 1 19).len := by decide

theorem witness_readReturnsLatestWrite :
    Memory.wf [(1, 5#8)] ∧ (2 : Nat) ≠ 1 ∧
      ∀ y, memRead (memWrite [] 1 5#8) y = memRead [(1, 5#8)] y :=
  ⟨by decide, by decide, fun _ => rfl⟩

theorem witness_stepRuns_idle : (idle 3#3 [] 0).phase = .idle := rfl

theorem witness_stepRuns_decode :
    (decodeAt 1).phase = .busy ∧ (decodeAt 1).op = 3#3 ∧ elementCtx (decodeAt 1) = some .token ∧
      decode .token (streamBytes .token (decodeAt 1)) = .ok (.token 1#4 0#4, []) :=
  ⟨by decide, by decide, by decide, rfl⟩

theorem witness_stepRuns_exhausted :
    (decoding .dOffset [0x00#8, 0x01#8] 1 0).phase = .busy ∧
      elementCtx (decoding .dOffset [0x00#8, 0x01#8] 1 0) = some .offset ∧
      decode .offset (streamBytes .offset (decoding .dOffset [0x00#8, 0x01#8] 1 0)) =
        .error .truncated := ⟨rfl, rfl, rfl⟩

theorem witness_stepRuns_internal :
    (decodeAt 2).phase = .busy ∧ elementCtx (decodeAt 2) = none ∧
      (encodeAt 1).phase = .busy ∧ (encodeAt 1).op ≠ 3#3 := by decide

theorem witness_wholeCommand :
    StoresCanonical (idle 3#3 [0x00#8] 0) ∧ (idle 3#3 [0x00#8] 0).phase = .idle ∧
      ∃ t, exec (decodeCommand (idle 3#3 [0x00#8] 0).op) (idle 3#3 [0x00#8] 0) = .next t :=
  ⟨⟨by decide, by decide⟩, rfl, answers (by decide)⟩

theorem witness_everyStep :
    (MachineInv (decodeAt 4) ∧ ∃ t, step (decodeAt 4) = .next t) ∧
      MachineInv (encodeAt 6) ∧ ∃ t, step (encodeAt 6) = .next t :=
  ⟨⟨decodeAt_inv 4, answers (by decide)⟩,
    encodeAt_inv 6, answers (by decide)⟩

theorem witness_hostMoves :
    (idle 3#3 [0x00#8] 0).phase = .idle ∧ { idle 3#3 [0x00#8] 0 with ended := true }.ended = true ∧
      MachineInv (idle 3#3 [0x00#8] 0) ∧
      (∃ t, hostWriteOp 2#3 (idle 3#3 [0x00#8] 0) = .next t) ∧
      (∃ t, hostWriteDstLen (2 ^ 32) (idle 3#3 [0x00#8] 0) = .next t) ∧
      (∃ t, hostWriteByte (2 ^ 32 - 1) 1#8 (idle 3#3 [0x00#8] 0) = .next t) ∧
      ∃ t, hostStart (idle 3#3 [0x00#8] 0) = .next t :=
  ⟨rfl, rfl, idle_inv _ _ _ (by decide) (by decide), ⟨_, rfl⟩, ⟨_, rfl⟩, ⟨_, rfl⟩,
    answers (by decide)⟩

theorem witness_runningCommand :
    (MachineInv (decodeAt 0) ∧ (decodeAt 0).phase = .busy) ∧
      MachineInv (encodeAt 0) ∧ (encodeAt 0).phase = .busy :=
  ⟨⟨decodeAt_inv 0, by decide⟩, encodeAt_inv 0, by decide⟩

theorem witness_startedCommand :
    MachineInv (idle 2#3 encodeSource 36) ∧ (∃ u, hostStart (idle 2#3 encodeSource 36) = .next u) ∧
      MachineInv (idle 3#3 [0x00#8] 0) ∧ (∃ u, hostStart (idle 3#3 [0x00#8] 0) = .next u) ∧
      MachineInv lcpState ∧ ∃ u, hostStart lcpState = .next u :=
  ⟨idle_inv _ _ _ (by decide) (by decide), answers (by decide), idle_inv _ _ _ (by decide) (by decide),
    answers (by decide), lcpState_inv, answers (by decide)⟩

theorem witness_hostBusy :
    (decodeAt 1).phase = .busy ∧ (decodeAt 1).op ≠ 0#3 ∧ (decodeAt 1).op ≠ 6#3 ∧
      (decodeAt 1).op ≠ 7#3 := by decide

theorem witness_stepAnswers :
    (∃ t, step (idle 1#3 [] 0) = .next t) ∧ (idle 1#3 [] 0).op ≠ 2#3 ∧ (idle 1#3 [] 0).op ≠ 3#3 ∧
      (∃ t, step (idle 2#3 [] 16) = .next t) ∧
      disjointRanges (idle 2#3 encodeSource 36).srcPtr (idle 2#3 encodeSource 36).srcLen
        (idle 2#3 encodeSource 36).dstPtr (idle 2#3 encodeSource 36).dstLen = true :=
  ⟨answers (by decide), by decide, by decide,
    answers (by decide), by decide⟩

theorem witness_resultAtTheEnd :
    (∃ t, step (decodeAt 1) = .next t ∧ t.phase = .busy) ∧
      ∃ t, step (decoding .dToken [] 0 0) = .next t ∧ t.phase = .idle ∧ t.status ≠ .ok := by
  refine ⟨(goesOn (p := .busy) (d := (decodeAt 2).dec) (by decide)).imp fun _ h => ⟨h.1, h.2.1⟩, ?_⟩
  exact ⟨raise .invalidData (decoding .dToken [] 0 0), rfl, rfl, by decide⟩

theorem witness_decoderIgnores :
    ∃ t, exec .blockDecode (idle 3#3 [0x10#8, 0x41#8] 1) = .next t :=
  answers (by decide)

theorem witness_cursors :
    MachineInv (decodeAt 0) ∧ (decodeAt 0).dec.dstate = .dPrecheck ∧
      MachineInv (decodeAt 8) ∧ (decodeAt 8).dec.dstate = .dMatchCopy ∧ (∃ t, step (decodeAt 8) = .next t) ∧
      MachineInv (decodeAt 4) ∧ (decodeAt 4).phase = .busy ∧ (decodeAt 4).op = 3#3 ∧ (decodeAt 4).dec.dstate ≠ .dPrecheck ∧
      ∃ t, step (decodeAt 4) = .next t :=
  ⟨decodeAt_inv 0, by decide, decodeAt_inv 8, by decide, answers (by decide), decodeAt_inv 4, by decide,
    by decide, by decide, answers (by decide)⟩

theorem witness_elementFrame :
    (isElement (.literal 0x61#8) = true ∧ ∃ t, exec (.literal 0x61#8) literalCopy = .next t) ∧
      isElement (.offset 2#16) = true ∧
        ∃ t, exec (.offset 2#16) (atOffset 0x10#8 0x02#8) = .next t ∧ t.phase = .idle :=
  ⟨⟨rfl, _, rfl⟩, rfl, _, rfl, rfl⟩

theorem witness_worstCase : (idle 1#3 [] 0).phase = .idle ∧ (0 : Nat) ≤ 0x7E000000 := by decide

theorem witness_peek :
    (idleHost 4#3 [1#8, 2#8, 3#8, 4#8] []).phase = .idle ∧
      (idleHost 4#3 [1#8, 2#8, 3#8, 4#8] []).params.hostPrimitives = true ∧
      4 ≤ (idleHost 4#3 [1#8, 2#8, 3#8, 4#8] []).srcLen ∧
      readableBuffer (idleHost 4#3 [1#8, 2#8, 3#8, 4#8] []).params 256 4 = true := by decide

theorem witness_lcp :
    lcpState.phase = .idle ∧ lcpState.params.hostPrimitives = true ∧
      readableBuffer lcpState.params lcpState.srcPtr lcpState.srcLen = true ∧
      readableBuffer lcpState.params lcpState.dstPtr lcpState.dstLen = true ∧ 2 ≤ lcpState.srcLen ∧
      (∀ i < 2, memRead lcpState.mem (lcpState.srcPtr + i) = memRead lcpState.mem (lcpState.dstPtr + i)) ∧
      (2 < lcpState.srcLen →
        memRead lcpState.mem (lcpState.srcPtr + 2) ≠ memRead lcpState.mem (lcpState.dstPtr + 2)) ∧
      min (2 + 1) lcpState.srcLen ≤ lcpState.dstLen := by decide

/-- The whole first sequence agrees (`k = SRC_LEN`), and the second has not a byte more. -/
theorem witness_lcp_whole :
    (idleHost 5#3 [1#8, 2#8] [1#8, 2#8]).phase = .idle ∧
      (∀ i < 2, memRead (idleHost 5#3 [1#8, 2#8] [1#8, 2#8]).mem (256 + i) =
        memRead (idleHost 5#3 [1#8, 2#8] [1#8, 2#8]).mem (4096 + i)) ∧
      min (2 + 1) (idleHost 5#3 [1#8, 2#8] [1#8, 2#8]).srcLen ≤
        (idleHost 5#3 [1#8, 2#8] [1#8, 2#8]).dstLen := by decide

/-- The first bytes differ (`k = 0`), and the second sequence has only that one byte. -/
theorem witness_lcp_first :
    memRead (idleHost 5#3 [1#8, 2#8, 3#8, 4#8] [9#8]).mem 256 ≠
        memRead (idleHost 5#3 [1#8, 2#8, 3#8, 4#8] [9#8]).mem 4096 ∧
      min (0 + 1) (idleHost 5#3 [1#8, 2#8, 3#8, 4#8] [9#8]).srcLen ≤
        (idleHost 5#3 [1#8, 2#8, 3#8, 4#8] [9#8]).dstLen ∧
      result 0 (step (idleHost 5#3 [1#8, 2#8, 3#8, 4#8] [9#8])) = some (.ok, 0, []) := by decide

theorem witness_primitivesRefused :
    (idle 4#3 [] 0).params.hostPrimitives = false ∧
      (idleHost 4#3 [1#8, 2#8, 3#8] []).srcLen < 4 ∧
      (readableBuffer (idleHost 5#3 [1#8, 2#8] [1#8]).params 4096 1 = true ∧
        (idleHost 5#3 [1#8, 2#8] [1#8]).dstLen < (idleHost 5#3 [1#8, 2#8] [1#8]).srcLen ∧
        ∀ i < 1, memRead (idleHost 5#3 [1#8, 2#8] [1#8]).mem (256 + i) =
          memRead (idleHost 5#3 [1#8, 2#8] [1#8]).mem (4096 + i)) := by decide

/-- A range that ends a byte past `2^XLEN`, for the peek and as the first and the second range of the scan, and a
first range in a device: the source or the destination has a byte that is no plain memory. -/
theorem witness_primitiveRanges :
    ({ idleHost 4#3 [] [] with srcPtr := 2 ^ 32 - 3, srcLen := 4 }.params.hostPrimitives = true ∧
        ¬ PlainBytes (idleHost 4#3 [] []).params [.device, .unmapped] (2 ^ 32 - 3) 4) ∧
      (¬ PlainBytes (idleHost 5#3 [] []).params [.device, .unmapped] (2 ^ 32 - 1) 2 ∧
        PlainBytes (idleHost 5#3 [] []).params [.device, .unmapped] 256 2) ∧
      ¬ PlainBytes { xlen := 32, hostPrimitives := true, map := [⟨257, 1, .device⟩] }
        [.device, .unmapped] 256 2 :=
  ⟨⟨rfl, fun h => absurd (h (2 ^ 32) ⟨by decide, by decide⟩).1 (by decide)⟩,
    ⟨fun h => absurd (h (2 ^ 32) ⟨by decide, by decide⟩).1 (by decide), fun a ⟨_, h⟩ =>
      ⟨Nat.lt_trans h (by decide), fun _ hr => nomatch hr⟩⟩,
    fun h => (h 257 ⟨by decide, by decide⟩).2 ⟨257, 1, .device⟩ (by decide) (by decide) ⟨by decide, by decide⟩⟩

/-- The same ranges, run: where the peek and the scan are refused, and the last range that is accepted. -/
theorem test_primitive_ranges :
    refusal (step { idleHost 4#3 [] [] with srcPtr := 2 ^ 32 - 3, srcLen := 4 }) = some .sourceRangeInvalid ∧
      result 0 (step { idleHost 4#3 [] [] with srcPtr := 2 ^ 32 - 4, srcLen := 4 }) = some (.ok, 0, []) ∧
      refusal (hostStart { idleHost 5#3 [] [1#8, 2#8] with srcPtr := 2 ^ 32 - 1, srcLen := 2 }) =
        some .sourceRangeInvalid ∧
      refusal (hostStart { idleHost 5#3 [1#8, 2#8] [] with dstPtr := 2 ^ 32 - 1, dstLen := 2 }) =
        some .destinationRangeInvalid := by decide

/-- Ranges that are buffers: one that ends exactly at `2^XLEN`, two adjacent ones, one of no bytes with a pointer
inside the other and beyond the address space, a source in read-only memory. -/
theorem witness_contract_met :
    CodecReady { idle 3#3 [] 64 with srcPtr := 2 ^ 32 - 2, srcLen := 2 } ∧
      CodecReady { idle 3#3 [] 64 with srcPtr := 4094, srcLen := 2 } ∧
      CodecReady { idle 3#3 [] 64 with srcPtr := 4100 } ∧
      CodecReady { idle 3#3 [] 64 with srcPtr := 2 ^ 40 } ∧
      CodecReady { idle 3#3 [0x00#8] 64 with
        params := { xlen := 32, hostPrimitives := false, map := [⟨256, 1, .readOnly⟩] } } :=
  ⟨ready rfl (by decide), ready rfl (by decide), ready rfl (by decide), ready rfl (by decide),
    ready rfl (by decide)⟩

/-- Ranges that are none: one that ends a byte past `2^XLEN`, two that share one byte, a destination in
read-only memory, a source in a device. -/
theorem witness_contract_broken :
    ¬ CodecReady { idle 3#3 [] 64 with srcPtr := 2 ^ 32 - 2, srcLen := 3 } ∧
      ¬ CodecReady { idle 3#3 [] 64 with srcPtr := 4094, srcLen := 3 } ∧
      ¬ CodecReady { idle 3#3 [] 64 with
        params := { xlen := 32, hostPrimitives := false, map := [⟨4159, 1, .readOnly⟩] } } ∧
      ¬ CodecReady { idle 2#3 [0x00#8] 64 with
        params := { xlen := 32, hostPrimitives := false, map := [⟨256, 1, .device⟩] } } :=
  ⟨fun h => absurd h.2 (by decide), fun h => absurd h.2 (by decide), fun h => absurd h.2 (by decide),
    fun h => absurd h.2 (by decide)⟩

theorem witness_refusedCodes :
    (idle 0#3 [] 0).phase = .idle ∧ (idle 0#3 [] 0).op = 0#3 ∧ (idle 6#3 [] 0).op = 6#3 ∧
      (idle 7#3 [] 0).op = 7#3 := by decide

theorem witness_token :
    (decoding .dToken [0xF0#8] 0 0).phase = .busy ∧
      (decoding .dToken [0xF0#8] 0 0).dec.dstate = .dToken ∧
      (decoding .dToken [0xF0#8] 0 0).dec.sp < (decoding .dToken [0xF0#8] 0 0).srcLen := by decide

theorem witness_literalExtension :
    (literalRun 0xFE#8).phase = .busy ∧ (literalRun 0xFE#8).dec.dstate = .dLitExt ∧
      (literalRun 0xFE#8).dec.sp < (literalRun 0xFE#8).srcLen ∧ (254#8).toNat < 255 := by decide

theorem witness_literal :
    literalCopy.phase = .busy ∧ literalCopy.dec.dstate = .dLitCopy ∧ literalCopy.dec.n ≠ 0#32 ∧
      literalCopy.dec.sp < literalCopy.srcLen ∧ literalCopy.dec.dp < literalCopy.dstLen := by decide

/-- One byte is decoded: 1 is the largest legal offset, 2 the least that reaches too far. -/
theorem witness_offset :
    (atOffset 0x1F#8 1#8).phase = .busy ∧ (atOffset 0x1F#8 1#8).dec.dstate = .dOffset ∧
      (atOffset 0x1F#8 1#8).dec.sp + 2 ≤ (atOffset 0x1F#8 1#8).srcLen ∧
      (1 ≤ (1#16).toNat ∧ (1#16).toNat ≤ (atOffset 0x1F#8 1#8).dec.dp) ∧
      (0#16).toNat = 0 ∧ (atOffset 0x1F#8 1#8).dec.dp < (2#16).toNat := by decide

theorem witness_matchExtension :
    (matchRun 0xFE#8).phase = .busy ∧ (matchRun 0xFE#8).dec.dstate = .dMatchExt ∧
      (matchRun 0xFE#8).dec.sp < (matchRun 0xFE#8).srcLen := by decide

theorem witness_firstAndLast :
    DecodingAt .dPrecheck (decodeAt 0) ∧
      DecodingAt .dPrecheck { decodeAt 0 with srcLen := 0x01000000 } ∧
      DecodingAt .dEndCheck (decodeAt 5) ∧ (decodeAt 5).dec.sp ≤ (decodeAt 5).srcLen ∧
      DecodingAt .dEndCheck (decoding .dEndCheck [0x00#8] 1 0) :=
  ⟨⟨by decide, by decide, by decide⟩, ⟨by decide, by decide, by decide⟩,
    ⟨by decide, by decide, by decide⟩, by decide, ⟨by decide, by decide, by decide⟩⟩

theorem witness_tokenAndLiteralRun :
    (DecodingAt .dToken (decodeAt 1) ∧ (decodeAt 1).dec.sp ≤ (decodeAt 1).srcLen) ∧
      DecodingAt .dLitExt (literalRun 0xFF#8) ∧
      DecodingAt .dLitExt (decoding .dLitExt [0xF0#8] 1 0) ∧
      (decoding .dLitExt [0xF0#8] 1 0).dec.sp = (decoding .dLitExt [0xF0#8] 1 0).srcLen :=
  ⟨⟨⟨by decide, by decide, by decide⟩, by decide⟩, ⟨rfl, rfl, rfl⟩, ⟨rfl, rfl, rfl⟩, rfl⟩

theorem witness_literalCheckAndCopy :
    (DecodingAt .dLitCheck (decodeAt 2) ∧ DecoderInv (decodeAt 2)) ∧
      (DecodingAt .dLitCopy (decodeAt 3) ∧ DecoderInv (decodeAt 3)) ∧
      (DecodingAt .dLitCopy (decodeAt 4) ∧ DecoderInv (decodeAt 4)) ∧
      (decodeAt 3).dec.n.toNat = 1 ∧ (decodeAt 4).dec.n.toNat = 0 :=
  ⟨decodeAt_decoding (by decide) (by decide) (by decide) (by decide),
    decodeAt_decoding (by decide) (by decide) (by decide) (by decide),
    decodeAt_decoding (by decide) (by decide) (by decide) (by decide), by decide, by decide⟩

theorem witness_offsetAndMatchRun :
    (DecodingAt .dOffset (decodeAt 6) ∧ (decodeAt 6).dec.sp ≤ (decodeAt 6).srcLen) ∧
      DecodingAt .dOffset (atOffset 0x10#8 0x02#8) ∧ DecodingAt .dMatchExt (matchRun 0xFF#8) :=
  ⟨⟨⟨by decide, by decide, by decide⟩, by decide⟩, ⟨rfl, rfl, rfl⟩, ⟨rfl, rfl, rfl⟩⟩

theorem witness_matchCheckAndCopy :
    (DecodingAt .dMatchCheck (decodeAt 7) ∧ DecoderInv (decodeAt 7)) ∧
      (DecodingAt .dMatchCopy (decodeAt 8) ∧ DecoderInv (decodeAt 8)) ∧
      (DecodingAt .dMatchCopy (decodeAt 12) ∧ DecoderInv (decodeAt 12)) ∧
      (decodeAt 12).dec.copyLen.toNat = 0 :=
  ⟨decodeAt_decoding (by decide) (by decide) (by decide) (by decide),
    decodeAt_decoding (by decide) (by decide) (by decide) (by decide),
    decodeAt_decoding (by decide) (by decide) (by decide) (by decide), by decide⟩

theorem witness_matchCopyIsPeriodic :
    (DecodingAt .dMatchCopy (decodeAt 8) ∧ DecoderInv (decodeAt 8)) ∧ (decodeAt 8).mem.wf ∧
      (decodeAt 8).dec.fromOff + (decodeAt 8).dec.copyOff.toNat = (decodeAt 8).dec.dp ∧
      (decodeAt 8).dec.copyLen.toNat = 4 :=
  ⟨decodeAt_decoding (by decide) (by decide) (by decide) (by decide), (decodeAt_inv 8).stores.mem,
    by decide, by decide⟩

theorem witness_blockDecode :
    CodecReady (idle 3#3 [] 64) ∧ (idle 3#3 [] 64).srcLen = 0 ∧
      CodecReady { idle 3#3 [] 0 with srcLen := 0x01000000 } :=
  ⟨ready rfl (by decide), rfl, ready rfl (by decide)⟩

/-- B12 as a block: one sequence, no final literals. -/
def blockB12 : LzBlock := { seqs := [{ lits := [0x41#8], off := 1, len := 4 }], last := [], lastLow := 0#4 }

/-- B13: B12 with a destination of exactly its five bytes. -/
def stateB13 : State := idle 3#3 [0x10#8, 0x41#8, 0x01#8, 0x00#8, 0x00#8] 5

theorem witness_legalBlock :
    CodecReady stateB13 ∧ stateB13.mem.wf ∧ stateB13.srcLen ≤ 0x00FFFFFF ∧
      HoldsLegalBlock stateB13 blockB12 ∧ blockB12.expand.length ≤ stateB13.dstLen :=
  ⟨ready rfl (by decide), by decide, by decide, ⟨by decide, by decide⟩, by decide⟩

/-- A block that decodes and one that does not (B11's offset of 2 after one byte). -/
theorem witness_soundDecode :
    (CodecReady stateB13 ∧ stateB13.mem.wf ∧ ∃ t, exec .blockDecode stateB13 = .next t ∧ t.status = .ok) ∧
      CodecReady (idle 3#3 [0x10#8, 0x41#8, 0x02#8, 0x00#8, 0x00#8] 64) ∧
      (idle 3#3 [0x10#8, 0x41#8, 0x02#8, 0x00#8, 0x00#8] 64).mem.wf ∧
      ∃ t, exec .blockDecode (idle 3#3 [0x10#8, 0x41#8, 0x02#8, 0x00#8, 0x00#8] 64) = .next t ∧
        t.status = .invalidData :=
  ⟨⟨ready rfl (by decide), by decide, answersWith (by decide)⟩, ready rfl (by decide), by decide,
    answersWith (by decide)⟩

/-- B13's source at another address, after another command. -/
def elsewhereB13 : State :=
  { stateB13 with srcPtr := 8192, mem := writeBytes [] 8192 (sourceBytes stateB13), value := 7 }

theorem witness_decodeDepends :
    CodecReady stateB13 ∧ CodecReady elsewhereB13 ∧ stateB13.mem.wf ∧ elsewhereB13.mem.wf ∧
      sourceBytes elsewhereB13 = sourceBytes stateB13 ∧ elsewhereB13.dstLen = stateB13.dstLen ∧
      ∃ t, exec .blockDecode stateB13 = .next t :=
  ⟨ready rfl (by decide), ready rfl (by decide), by decide, by decide, by decide, rfl,
    answers (by decide)⟩

/-- A started encode of `n` bytes with room for `room`. -/
def encodeStarted (n room : Nat) : State := started { idle 2#3 [] room with srcLen := n, dstPtr := 2 ^ 31 }

/-- The pre-check where it goes each of its ways, at the boundaries: 12 and 13 bytes with just the room they need,
13 with a byte less, and the first length that is too long. -/
theorem witness_encoderPrecheck :
    EncodingAt .ePrecheck (encodeStarted 12 28) ∧ EncodingAt .ePrecheck (encodeStarted 13 29) ∧
      EncodingAt .ePrecheck (encodeStarted 13 28) ∧ EncodingAt .ePrecheck (encodeStarted 0x7E000001 0) :=
  ⟨⟨rfl, rfl, rfl, by decide, .inl (by decide)⟩, ⟨rfl, rfl, rfl, by decide, .inl (by decide)⟩,
    ⟨rfl, rfl, rfl, by decide, .inl (by decide)⟩, ⟨rfl, rfl, rfl, by decide, .inl (by decide)⟩⟩

theorem witness_encoderLabels :
    EncodingAt .eSetup (encodeAt 1) ∧ EncodingAt .eScanInit (encodeAt 2) ∧
      EncodingAt .eScan (encodeAt 3) ∧ EncodingAt .eBackward (encodeAt 4) ∧
      EncodingAt .eToken (encodeAt 5) ∧ EncodingAt .eMatch (encodeAt 6) ∧
      EncodingAt .eAdvance (encodeAt 7) ∧ EncodingAt .eBackfill (encodeAt 8) ∧
      EncodingAt .eFollow (encodeAt 9) ∧ EncodingAt .eFinal (encodeAt 12) :=
  ⟨encodeAt_encoding (by decide) (by decide) (by decide),
    encodeAt_encoding (by decide) (by decide) (by decide),
    encodeAt_encoding (by decide) (by decide) (by decide),
    encodeAt_encoding (by decide) (by decide) (by decide),
    encodeAt_encoding (by decide) (by decide) (by decide),
    encodeAt_encoding (by decide) (by decide) (by decide),
    encodeAt_encoding (by decide) (by decide) (by decide),
    encodeAt_encoding (by decide) (by decide) (by decide),
    encodeAt_encoding (by decide) (by decide) (by decide),
    encodeAt_encoding (by decide) (by decide) (by decide)⟩

/-- Both outcomes of the scan's termination test, with canonical stores. -/
theorem witness_encoderScan :
    (EncodingAt .eScan (encodeAt 3) ∧ StoresCanonical (encodeAt 3) ∧
        (encodeAt 3).enc.sp + (encodeAt 3).enc.step < (encodeAt 3).enc.finalLiteralsLimit) ∧
      EncodingAt .eScan (encodeAt 11) ∧ StoresCanonical (encodeAt 11) ∧
        (encodeAt 11).enc.finalLiteralsLimit ≤ (encodeAt 11).enc.sp + (encodeAt 11).enc.step :=
  ⟨⟨encodeAt_encoding (by decide) (by decide) (by decide), (encodeAt_inv 3).stores, by decide⟩,
    encodeAt_encoding (by decide) (by decide) (by decide), (encodeAt_inv 11).stores, by decide⟩

theorem witness_encoderStores :
    StoresCanonical (encodeAt 7) ∧ StoresCanonical (encodeAt 8) ∧ StoresCanonical (encodeAt 9) :=
  ⟨(encodeAt_inv 7).stores, (encodeAt_inv 8).stores, (encodeAt_inv 9).stores⟩

theorem witness_encodePrechecks :
    (CodecReady { idle 2#3 [] 0 with srcLen := 0x7E000001 } ∧ 0x7E000000 < 0x7E000001) ∧
      CodecReady (idle 2#3 [] 15) ∧ (idle 2#3 [] 15).srcLen ≤ 0x7E000000 ∧
        (idle 2#3 [] 15).dstLen < (idle 2#3 [] 15).srcLen + (idle 2#3 [] 15).srcLen / 255 + 16 :=
  ⟨⟨ready rfl (by decide), by decide⟩, ready rfl (by decide), by decide, by decide⟩

theorem witness_encodeCompletes :
    CodecReady (idle 2#3 encodeSource 36) ∧ StoresCanonical (idle 2#3 encodeSource 36) ∧
      (idle 2#3 encodeSource 36).srcLen ≤ 0x7E000000 ∧
      (idle 2#3 encodeSource 36).srcLen + (idle 2#3 encodeSource 36).srcLen / 255 + 16 ≤
        (idle 2#3 encodeSource 36).dstLen :=
  ⟨ready rfl (by decide), ⟨by decide, by decide⟩, by decide, by decide⟩

/-- Twelve bytes, the longest source of the short path. -/
theorem witness_shortInput :
    CodecReady (idle 2#3 (List.replicate 12 0x61#8) 28) ∧
      StoresCanonical (idle 2#3 (List.replicate 12 0x61#8) 28) ∧
      (idle 2#3 (List.replicate 12 0x61#8) 28).srcLen ≤ 12 ∧
      (idle 2#3 (List.replicate 12 0x61#8) 28).srcLen + 16 ≤
        (idle 2#3 (List.replicate 12 0x61#8) 28).dstLen :=
  ⟨ready rfl (by decide), ⟨by decide, by decide⟩, by decide, by decide⟩

theorem witness_okEncode :
    StoresCanonical (idle 2#3 encodeSource 36) ∧
      ∃ t, exec .blockEncode (idle 2#3 encodeSource 36) = .next t ∧ t.status = .ok :=
  ⟨⟨by decide, by decide⟩, answersWith (by decide)⟩

/-- E2 and the decode of its block. -/
theorem witness_roundTrip :
    StoresCanonical (idle 2#3 [0x61#8] 17) ∧
      ∃ t, exec .blockEncode (idle 2#3 [0x61#8] 17) = .next t ∧ t.status = .ok ∧
        HoldsBlockOf (idle 2#3 [0x61#8] 17) t (idle 3#3 [0x10#8, 0x61#8] 1) := by
  obtain ⟨t, h, hs, hv, hd⟩ := ends (o := exec .blockEncode (idle 2#3 [0x61#8] 17)) (n := 2) (st := .ok)
    (v := 2) (bs := [0x10#8, 0x61#8]) (by decide)
  refine ⟨⟨by decide, by decide⟩, t, h, hs, ready rfl (by decide), by decide, ?_, by rw [hv]; rfl,
    by rw [hv]; decide, by decide⟩
  rw [destinationBytes, hv, hd]
  decide

/-- The same source with a larger destination and a table an earlier command left. -/
theorem witness_encodeDepends :
    CodecReady (idle 2#3 encodeSource 36) ∧
      CodecReady { idle 2#3 encodeSource 64 with ht := [(5, 9#32)] } ∧
      StoresCanonical (idle 2#3 encodeSource 36) ∧
      StoresCanonical { idle 2#3 encodeSource 64 with ht := [(5, 9#32)] } ∧
      sourceBytes { idle 2#3 encodeSource 64 with ht := [(5, 9#32)] } =
        sourceBytes (idle 2#3 encodeSource 36) ∧
      ∃ t, exec .blockEncode (idle 2#3 encodeSource 36) = .next t ∧ t.status = .ok :=
  ⟨ready rfl (by decide), ready rfl (by decide), ⟨by decide, by decide⟩, ⟨by decide, by decide⟩, by decide,
    answersWith (by decide)⟩

end Sys2Proof.Tests
end

section
/-! PROOFS. The state and its rules (10_state.md): what the host's moves and a start do, how far one visit of
the decoder moves, that a running command ends, and that a decode is a function of its source bytes and room. -/

namespace Sys2Proof.Machine

open Sys2Proof.Config

variable {s s' t u : State}

/-! ### The host's moves (R12, R206, R213) -/

theorem hostMove_busy (f : State → State) (h : s.phase = .busy) :
    hostMove f s = .refused .hostMoveWhileBusy := by
  simp [hostMove, h]

theorem hostMove_idle (f : State → State) (h : s.phase = .idle) : hostMove f s = .next (f s) := by
  simp [hostMove, h]

theorem hostMove_next {f : State → State} : hostMove f s = .next t ↔ s.phase = .idle ∧ t = f s := by
  cases h : s.phase with
  | idle => rw [hostMove_idle f h]; simp [eq_comm]
  | busy => rw [hostMove_busy f h]; simp

theorem hostReadByte_busy (a : Nat) (h : s.phase = .busy) :
    hostReadByte a s = .refused .hostMoveWhileBusy := by
  simp [hostReadByte, h]

theorem hostReadByte_idle (a : Nat) (h : s.phase = .idle) :
    hostReadByte a s = .next (memRead s.mem (a % 2 ^ s.params.xlen)) := by
  simp [hostReadByte, h]

theorem hostReadResult_busy (h : s.phase = .busy) : hostReadResult s = .refused .hostMoveWhileBusy := by
  simp [hostReadResult, h]

theorem hostReadResult_ended (h : s.phase = .idle) (he : s.ended = true) :
    hostReadResult s = .next (s.status, s.value) := by
  simp [hostReadResult, h, he]

/-- A host move that keeps the stores canonical, the registers within their widths and `VALUE` 0 after an error
keeps the machine's invariant: no command runs before or after it. -/
theorem hostMove_inv {f : State → State} (h : hostMove f s = .next t) (hp : (f s).phase = s.phase)
    (hs : StoresCanonical (f s)) (hr : RegistersFit (f s)) (hf : FailedValueZero (f s)) : MachineInv t := by
  obtain ⟨hi, rfl⟩ := hostMove_next.1 h
  exact ⟨hs, hr, hf, fun hb => by rw [hp, hi] at hb; cases hb⟩

/-! ### The start of a command (R25, R203) -/

theorem startWith_busy (why : Option Refusal) (h : s.phase = .busy) :
    startWith why s = .refused .hostMoveWhileBusy := by
  simp [startWith, h]

theorem hostStart_busy (h : s.phase = .busy) (h0 : s.op ≠ 0#3) (h6 : s.op ≠ 6#3) (h7 : s.op ≠ 7#3) :
    hostStart s = .refused .hostMoveWhileBusy := by
  have named : s.op = 1#3 ∨ s.op = 2#3 ∨ s.op = 3#3 ∨ s.op = 4#3 ∨ s.op = 5#3 := by
    have := op_cases s.op
    tauto
  rcases named with ho | ho | ho | ho | ho <;> simp [hostStart, ho, decodeCommand, startWith_busy _ h]

/-- A start that begins working registers once the engine is busy. -/
theorem startThen_next {why : Option Refusal} {f : State → State}
    (h : (andThen (startWith why s) fun t => .next (f t)) = .next u) : u = f { s with phase := .busy } := by
  obtain ⟨v, hv, hu⟩ := andThen_eq_next.1 h
  obtain ⟨-, -, rfl⟩ := startWith_next.1 hv
  cases hu
  rfl

theorem hostStart_encode (ho : s.op = 2#3) (h : hostStart s = .next u) : u = encodeStart s := by
  simp only [hostStart, ho] at h
  exact startThen_next h

theorem hostStart_decode (ho : s.op = 3#3) (h : hostStart s = .next u) : u = decodeStart s := by
  simp only [hostStart, ho] at h
  exact startThen_next h

theorem hostStart_lcp (ho : s.op = 5#3) (h : hostStart s = .next u) :
    u = beginLcp { s with phase := .busy } := by
  simp only [hostStart, ho] at h
  exact startThen_next h

/-! ### The invariant along steps, and the end of a running command (R115, R147, R204) -/

theorem MachineInv.encodeRunning (hm : MachineInv s) (hb : s.phase = .busy) (ho : s.op = 2#3) :
    EncodeRunning s := by
  have hrun := hm.running hb
  simp only [CommandRunning, ho] at hrun
  exact hrun

theorem MachineInv.decodeRunning (hm : MachineInv s) (hb : s.phase = .busy) (ho : s.op = 3#3) :
    DecodeRunning s := by
  have hrun := hm.running hb
  simp only [CommandRunning, ho] at hrun
  exact hrun

theorem step_busy_keeps_inv (hm : MachineInv s) (hb : s.phase = .busy) (h : step s = .next t) :
    MachineInv t := by
  obtain ⟨t', ht', hm'⟩ := step_busy_inv hm hb
  rw [h] at ht'
  cases ht'
  exact hm'

/-- How many steps a running command has left at most: the measure of the codec that runs; any other command ends
with its one visit. -/
def commandMeasure (s : State) : Nat :=
  if s.op = 2#3 then encMeasure s else if s.op = 3#3 then decMeasure s else 0

/-- A step of a running command ends it, or keeps the invariant and lowers the measure. -/
theorem step_busy_progress (hm : MachineInv s) (hb : s.phase = .busy) :
    ∃ t, step s = .next t ∧
      (t.phase = .idle ∨ MachineInv t ∧ commandMeasure t < commandMeasure s) := by
  obtain ⟨t, ht, hm'⟩ := step_busy_inv hm hb
  have hop : t.op = s.op := (step_busy_frame hb ht).1.operands.op
  refine ⟨t, ht, ?_⟩
  rcases op_cases s.op with ho | ho | ho | ho | ho | ho | ho | ho
  · rw [step_refused hb (.inl ho)] at ht; cases ht
  · rw [step_worstCase hb ho, worstCaseVisit] at ht
    split at ht <;> cases ht <;> exact .inl rfl
  · obtain ⟨t', ht', hd⟩ := encoderVisit_progress (hm.encodeRunning hb ho) hm.stores.ht
    rw [← step_encode hb ho, ht] at ht'
    cases ht'
    refine hd.imp And.left fun hd => ⟨hm', ?_⟩
    simpa only [commandMeasure, hop, ho, if_true] using hd.2
  · obtain ⟨t', ht', hd⟩ := decoderVisit_progress (hm.decodeRunning hb ho)
    rw [← step_decode hb ho, ht] at ht'
    cases ht'
    refine hd.imp And.left fun hd => ⟨hm', ?_⟩
    simpa only [commandMeasure, hop, ho, if_true, if_neg (show ¬ (3#3 = 2#3) by decide)] using hd.2
  · rw [step_peek hb ho, peekVisit] at ht
    split at ht <;> cases ht
    exact .inl rfl
  · rw [step_lcp hb ho, lcpVisit] at ht
    split at ht <;> cases ht
    exact .inl rfl
  · rw [step_refused hb (.inr (.inl ho))] at ht; cases ht
  · rw [step_refused hb (.inr (.inr ho))] at ht; cases ht

theorem running_command_ends (hm : MachineInv s) :
    ∃ t, runToEnd step (commandMeasure s + 1) s = .next t :=
  runToEnd_total (P := MachineInv) (μ := commandMeasure) (fun _ hb hm => step_busy_progress hm hb) hm
    (Nat.lt_succ_self _)

/-- Steps that lead from a running command to an idle engine have written the result. -/
theorem runToEnd_step_ended {n : Nat} (hb : s.phase = .busy) (h : runToEnd step n s = .next t) :
    t.phase = .idle ∧ t.ended = true := by
  obtain ⟨hp, hi⟩ := runToEnd_keeps (P := fun v => v.phase = .busy ∨ v.ended = true)
    (fun v w hv _ hw => (step_busy_frame hv hw).2.imp And.left fun hr => hr.2.1) (.inl hb) h
  exact ⟨hi, hp.resolve_left fun hbt => by rw [hi] at hbt; cases hbt⟩

/-! ### How far a visit of the decoder moves (R17, R21, R48, R113) -/

/-- A visit moves `sp` over at most two bytes, all inside the source, and either leaves `dp` and memory or moves
`dp` over the one byte, inside the destination, that it wrote. -/
structure DecAdvance (s t : State) : Prop where
  source : ∃ k ≤ 2, t.dec.sp = s.dec.sp + k ∧ (k = 0 ∨ s.dec.sp + k ≤ s.srcLen)
  output : t.dec.dp = s.dec.dp ∧ t.mem = s.mem ∨
    s.dec.dp < s.dstLen ∧ t.dec.dp = s.dec.dp + 1 ∧ ∃ b, t.mem = memWrite s.mem (s.dstPtr + s.dec.dp) b

/-- A visit that moves no cursor and writes nothing. -/
theorem DecAdvance.still (hs : t.dec.sp = s.dec.sp) (hd : t.dec.dp = s.dec.dp) (hm : t.mem = s.mem) :
    DecAdvance s t :=
  ⟨⟨0, by omega, hs, .inl rfl⟩, .inl ⟨hd, hm⟩⟩

/-- A visit that reads `k` source bytes and writes nothing. -/
theorem DecAdvance.reads {k : Nat} (hk : k ≤ 2) (hin : s.dec.sp + k ≤ s.srcLen)
    (hs : t.dec.sp = s.dec.sp + k) (hd : t.dec.dp = s.dec.dp) (hm : t.mem = s.mem) : DecAdvance s t :=
  ⟨⟨k, hk, hs, .inr hin⟩, .inl ⟨hd, hm⟩⟩

theorem decoderVisit_advance (hb : s.phase = .busy) (hp : s.dec.dstate ≠ .dPrecheck)
    (h : decoderVisit s = .next t) : DecAdvance s t := by
  cases hd : s.dec.dstate with
  | dPrecheck => exact absurd hd hp
  | dToken =>
    rw [decoderVisit_dToken hb hd] at h
    split at h <;> cases h
    · exact .still rfl rfl rfl
    · exact .reads (k := 1) (by omega) (by omega) rfl rfl rfl
  | dLitExt =>
    rw [decoderVisit_dLitExt hb hd] at h
    split at h <;> cases h
    · exact .still rfl rfl rfl
    · exact .reads (k := 1) (by omega) (by omega) rfl rfl rfl
  | dLitCheck =>
    rw [decoderVisit_dLitCheck hd] at h
    split at h
    · cases h; exact .still rfl rfl rfl
    · split at h <;> cases h <;> exact .still rfl rfl rfl
  | dLitCopy =>
    by_cases hn : s.dec.n = 0#32
    · rw [decoderVisit_dLitCopy_done hd hn] at h
      cases h
      exact .still rfl rfl rfl
    · rw [decoderVisit_dLitCopy hb hd hn] at h
      split at h
      · cases h
      · split at h <;> cases h
        exact ⟨⟨1, by omega, rfl, .inr (by omega)⟩, .inr ⟨by omega, rfl, _, rfl⟩⟩
  | dEndCheck =>
    rw [decoderVisit_dEndCheck hd] at h
    split at h <;> cases h <;> exact .still rfl rfl rfl
  | dOffset =>
    rw [decoderVisit_dOffset hb hd] at h
    split at h
    · cases h; exact .still rfl rfl rfl
    · split at h <;> cases h <;> exact .reads (k := 2) (by omega) (by omega) rfl rfl rfl
  | dMatchExt =>
    rw [decoderVisit_dMatchExt hb hd] at h
    split at h <;> cases h
    · exact .still rfl rfl rfl
    · exact .reads (k := 1) (by omega) (by omega) rfl rfl rfl
  | dMatchCheck =>
    rw [decoderVisit_dMatchCheck hd] at h
    split at h <;> cases h <;> exact .still rfl rfl rfl
  | dMatchCopy =>
    rw [decoderVisit_dMatchCopy hd] at h
    split at h
    · cases h; exact .still rfl rfl rfl
    · split at h <;> cases h
      exact ⟨⟨0, by omega, rfl, .inl rfl⟩, .inr ⟨by omega, rfl, _, rfl⟩⟩

/-- After a visit of a running decode, the one that ends it included, the cursors are inside their buffers. -/
theorem decoderVisit_cursors (hr : DecodeRunning s) (h : decoderVisit s = .next t) :
    t.dec.sp ≤ t.srcLen ∧ t.dec.dp ≤ t.dstLen := by
  have hf := decoderVisit_frame hr.1 h
  obtain ⟨hsp, hdp, -⟩ := hr.cursors
  rw [hf.srcLen, hf.dstLen]
  by_cases hd : s.dec.dstate = .dPrecheck
  · rw [decoderVisit_dPrecheck hd] at h
    split at h <;> cases h
    · exact ⟨hsp, hdp⟩
    · exact ⟨Nat.zero_le _, Nat.zero_le _⟩
  · obtain ⟨⟨k, -, hk, hin⟩, hout⟩ := decoderVisit_advance hr.1 hd h
    exact ⟨by omega, by omega⟩

/-! ### Two decodes from their start (R10, R200) -/

/-- The state of a decode whose source is not too long, after its pre-check. -/
def decodeOpened (s : State) : State :=
  { decodeStart s with dec := { (decodeStart s).dec with dstate := .dToken } }

theorem decoderVisit_decodeStart (s : State) :
    decoderVisit (decodeStart s) =
      if decMaxSrcLen < s.srcLen then .next (raise .srcTooLong (decodeStart s)) else .next (decodeOpened s) :=
  decoderVisit_dPrecheck rfl

theorem exec_blockDecode_tooLong (h : CodecReady s) (hl : decMaxSrcLen < s.srcLen) :
    exec .blockDecode s = .next (raise .srcTooLong (decodeStart s)) := by
  rw [exec_blockDecode_eq h, decodeFuel, runToEnd_busy rfl, decoderVisit_decodeStart, if_pos hl, andThen_next,
    runToEnd_idle rfl]

theorem exec_blockDecode_opened (h : CodecReady s) (hl : ¬ decMaxSrcLen < s.srcLen) :
    exec .blockDecode s = runToEnd decoderVisit (8 * s.srcLen + s.dstLen + 9) (decodeOpened s) := by
  rw [exec_blockDecode_eq h, decodeFuel, runToEnd_busy rfl, decoderVisit_decodeStart, if_neg hl, andThen_next]

theorem decodeRunning_decodeOpened (hl : ¬ decMaxSrcLen < s.srcLen) : DecodeRunning (decodeOpened s) := by
  obtain ⟨t, ht, hd⟩ := decoderVisit_progress (decodeRunning_begin (s := { s with phase := .busy }) rfl)
  have hv := decoderVisit_decodeStart s
  rw [if_neg hl] at hv
  rw [show beginDecode { s with phase := .busy } = decodeStart s from rfl, hv] at ht
  cases ht
  rcases hd with ⟨hi, -⟩ | ⟨hr, -⟩
  · cases hi
  · exact hr

/-- Every decode that is ready ends (R115, R204). -/
theorem exec_blockDecode_ends (h : CodecReady s) : ∃ t, exec .blockDecode s = .next t := by
  rw [exec_blockDecode_eq h]
  exact decode_ends { s with phase := .busy } rfl

/-- Two decodes of the same source bytes with the same room are in step once past the pre-check. -/
theorem decodeOpened_agree (hsrc : sourceBytes s' = sourceBytes s) (hroom : s'.dstLen = s.dstLen) :
    DecAgree (decodeOpened s) (decodeOpened s') := by
  have hlen : s'.srcLen = s.srcLen := by
    rw [← sourceBytes_length s', hsrc, sourceBytes_length]
  have hbytes : bytesFrom s'.mem s'.srcPtr s.srcLen = bytesFrom s.mem s.srcPtr s.srcLen := by
    rw [← hlen, ← sourceBytes, hsrc, sourceBytes, hlen]
  exact
    { srcLen := hlen
      dstLen := hroom
      src := fun i hi => memRead_of_bytesFrom_eq hbytes hi
      phase := rfl
      result := fun hi => by cases hi
      sp := rfl
      dp := rfl
      dstate := rfl
      written := fun i hi => absurd hi (Nat.not_lt_zero i)
      token := fun hne => absurd rfl hne
      literalLen := fun hx => by simp [decodeOpened] at hx
      n := fun hx => by simp [decodeOpened] at hx
      copyOff := fun hx => by simp [decodeOpened] at hx
      copyLen := fun hx => by simp [decodeOpened] at hx
      fromOff := fun hx => by simp [decodeOpened] at hx }

/-- Two decodes in step, ended, have given the same answer. -/
theorem DecAgree.sameAnswer (h : DecAgree t u) (hi : t.phase = .idle) : SameAnswer t u := by
  obtain ⟨hst, hv, hle⟩ := h.result hi
  exact ⟨hst, hv, bytesFrom_congr fun i hlt => h.written i (by omega)⟩

/-! ### A step runs the decoded element (R14, R63) -/

/-- What the decoder reads is well formed: it reads no run-ending byte of 255. -/
theorem decode_wf {c : Ctx} {bs rest : List Byte} {i : Instr} (h : decode c bs = .ok (i, rest)) :
    i.wf = true := by
  unfold decode at h
  split at h
  case h_1 =>
    split at h <;> cases h
    exact (encode_decodeCommand _).2.2
  case h_3 =>
    cases h
    split
    · rfl
    · simpa [Instr.wf]
  case h_6 =>
    cases h
    split
    · rfl
    · simpa [Instr.wf]
  all_goals cases h <;> rfl

theorem step_element {c : Ctx} {i : Instr} {rest : List Byte} (hb : s.phase = .busy) (ho : s.op = 3#3)
    (hc : elementCtx s = some c) (hd : decode c (streamBytes c s) = .ok (i, rest)) : step s = exec i s := by
  rw [step_decode hb ho, exec_element (decode_isElement (elementCtx_ne_command hc) hd)]
  simp only [decoderVisit, hc, hd]

theorem step_exhausted {c : Ctx} {e : DecodeRefusal} (hb : s.phase = .busy) (ho : s.op = 3#3)
    (hc : elementCtx s = some c) (hd : decode c (streamBytes c s) = .error e) :
    step s = streamUnderflow s := by
  rw [step_decode hb ho]
  simp only [decoderVisit, hc, hd]

theorem step_decInternal (hb : s.phase = .busy) (ho : s.op = 3#3) (hc : elementCtx s = none) :
    step s = decInternal s := by
  rw [step_decode hb ho]
  simp only [decoderVisit, hc]

/-! ### The statements -/

/-- Settles O15: a busy step keeps the invariant, and an idle step is a start, which keeps it, and busy steps. -/
theorem everyStepKeepsTheInvariant : Obligations.EveryStepKeepsTheInvariant := by
  intro s t hm h
  cases hp : s.phase with
  | busy => exact step_busy_keeps_inv hm hp h
  | idle =>
    exact (step_idle_keeps (P := MachineInv) hp (fun _ hu => hostStart_inv hm hu)
      (fun _ _ hb hu hv => step_busy_keeps_inv hu hb hv) h).1

/-- Settles O18: the start's own equations, the frame of a start, and the measure of the running command. -/
theorem startedCommandEnds : Obligations.StartedCommandEnds := by
  intro s u hm h
  obtain ⟨-, hb, hk⟩ := hostStart_keeps h
  refine ⟨hb, hk.operands, hostStart_mem h, fun ho => ?_, fun ho => ?_, fun ho => ?_, ?_⟩
  · rw [hostStart_encode ho h]; exact ⟨rfl, rfl, rfl, rfl⟩
  · rw [hostStart_decode ho h]; exact ⟨rfl, rfl, rfl⟩
  · rw [hostStart_lcp ho h]; rfl
  · obtain ⟨t, ht⟩ := running_command_ends (hostStart_inv hm h)
    obtain ⟨hi, he⟩ := runToEnd_step_ended hb ht
    exact ⟨_, t, ht, hi, hostReadResult_ended hi he⟩

/-- Settles O16: what a host move does while idle, and that each write respects the invariant's clauses. -/
theorem hostMovesSetOneThingAndKeepTheInvariant : Obligations.HostMovesSetOneThingAndKeepTheInvariant := by
  intro s op v b
  refine ⟨fun hi => ⟨hostMove_idle _ hi, hostMove_idle _ hi, hostMove_idle _ hi, hostMove_idle _ hi,
    hostMove_idle _ hi, hostMove_idle _ hi, hostReadByte_idle v hi, hostReadResult_ended hi⟩, ?_⟩
  intro t hm h
  have hv : v % 2 ^ s.params.xlen < 2 ^ s.params.xlen := Nat.mod_lt _ (Nat.two_pow_pos _)
  have hs := hm.stores
  have hr := hm.registers
  have hf := hm.failed
  rcases h with h | h | h | h | h | h | h
  · exact hostMove_inv h rfl ⟨hs.mem, hs.ht⟩ { hr with } hf
  · exact hostMove_inv h rfl ⟨hs.mem, hs.ht⟩ { hr with dstPtr := hv } hf
  · exact hostMove_inv h rfl ⟨hs.mem, hs.ht⟩ { hr with dstLen := hv } hf
  · exact hostMove_inv h rfl ⟨hs.mem, hs.ht⟩ { hr with srcPtr := hv } hf
  · exact hostMove_inv h rfl ⟨hs.mem, hs.ht⟩ { hr with srcLen := hv } hf
  · exact hostMove_inv h rfl { hs with mem := memWrite_wf _ _ _ hs.mem } { hr with } hf
  · exact hostStart_inv hm h

/-- Settles O20, by the frame of a step. -/
theorem noStepWritesTheOperands : Obligations.NoStepWritesTheOperands :=
  fun _ _ h => (step_frame h).1.operands

/-- Settles O22, by the two ways a step leaves the result registers. -/
theorem resultIsWrittenOnlyAtTheEnd : Obligations.ResultIsWrittenOnlyAtTheEnd := by
  intro s t h
  obtain ⟨-, hbusy, hres⟩ := step_frame h
  rcases hres with ⟨hb, hkept⟩ | ⟨hi, hend⟩
  · exact ⟨fun _ => ⟨hbusy hb, hkept⟩, fun hi => by simp [hb] at hi⟩
  · exact ⟨fun hb => by simp [hi] at hb, fun _ => hend⟩

/-- Settles O24: the running decode's invariant on both sides of the visit, and how far the visit moves. -/
theorem decoderCursorsAdvanceInsideTheBuffers : Obligations.DecoderCursorsAdvanceInsideTheBuffers := by
  intro s t hb ho h
  have hv : decoderVisit s = .next t := by rw [← step_decode hb ho]; exact h
  refine ⟨fun hm => ?_, fun hp => ?_⟩
  · have hr := hm.decodeRunning hb ho
    obtain ⟨hsp, hdp, hfrom⟩ := hr.cursors
    obtain ⟨hsp', hdp'⟩ := decoderVisit_cursors hr hv
    refine ⟨hsp, hdp, hfrom, hsp', hdp', fun hbt => ?_⟩
    have hr' := (step_busy_keeps_inv hm hb h).decodeRunning hbt ((decoderVisit_frame hb hv).op.trans ho)
    exact hr'.cursors.2.2
  · obtain ⟨⟨k, hk, hsp, -⟩, hout⟩ := decoderVisit_advance hb hp hv
    exact ⟨by omega, by omega, hout.imp id And.right⟩

/-- Settles O46: both decodes fail their pre-check alike, or are in step from there to the end. -/
theorem decodeDependsOnSourceAndRoom : Obligations.DecodeDependsOnSourceAndRoom := by
  intro s s' t hr hr' hw hw' hsrc hroom h
  have hag := decodeOpened_agree hsrc hroom
  have hlen : s'.srcLen = s.srcLen := hag.srcLen
  by_cases hl : decMaxSrcLen < s.srcLen
  · rw [exec_blockDecode_tooLong hr hl] at h
    cases h
    exact ⟨_, exec_blockDecode_tooLong hr' (by omega), rfl, rfl, rfl⟩
  · have hl' : ¬ decMaxSrcLen < s'.srcLen := by omega
    rw [exec_blockDecode_opened hr hl] at h
    obtain ⟨hruns, hi⟩ := runs_of_runToEnd h
    obtain ⟨u, hruns', hag'⟩ := decoder_runs_agree hruns hag (by simp [decodeOpened])
      (fun _ => decodeRunning_decodeOpened hl) hw hw' hr.disjoint hr'.disjoint
    obtain ⟨t', ht'⟩ := exec_blockDecode_ends hr'
    rw [exec_blockDecode_opened hr' hl'] at ht'
    obtain rfl : t' = u := runToEnd_of_runs hruns' (hag'.phase.trans hi) ht'
    exact ⟨t', by rw [exec_blockDecode_opened hr' hl', ht'], hag'.sameAnswer hi⟩

/-- Settles O12, by the cases of a step. -/
theorem stepRunsTheDecodedInstruction : Obligations.StepRunsTheDecodedInstruction := fun _ =>
  ⟨step_idle, fun hb ho =>
    ⟨fun _ _ _ hc hd => ⟨decode_wf hd, step_element hb ho hc hd⟩,
      fun _ _ hc hd => step_exhausted hb ho hc hd,
      fun hc => step_decInternal hb ho hc⟩,
    step_busy⟩

/-- Settles O19, by the refusal of each move. -/
theorem hostHasNoMoveWhileBusy : Obligations.HostHasNoMoveWhileBusy := fun _ _ v _ hb =>
  ⟨hostMove_busy _ hb, hostMove_busy _ hb, hostMove_busy _ hb, hostMove_busy _ hb, hostMove_busy _ hb,
    hostMove_busy _ hb, hostReadByte_busy v hb, hostReadResult_busy hb, hostStart_busy hb⟩

end Sys2Proof.Machine
end

section
/-! PROOFS. Memory and what a command may do to it (20_memory.md): reads and writes, what a buffer is and where a
broken contract refuses a command, that a running command makes no access outside its buffers, that only the
destination is written, the match copy as a periodic extension, and that a decode is sound whatever its source. -/

namespace Sys2Proof.Machine

open Sys2Proof.Config

variable {s t : State}

/-! ### What is outside the destination is kept (R43, R47, R52) -/

/-- With disjoint ranges, steps that write only the destination leave the source. -/
theorem StepKeeps.sourceBytes_eq (h : StepKeeps s t)
    (hd : disjointRanges s.srcPtr s.srcLen s.dstPtr s.dstLen = true) : sourceBytes t = sourceBytes s := by
  rw [sourceBytes, h.operands.srcPtr, h.operands.srcLen, sourceBytes]
  exact bytesFrom_congr fun i hi => h.writes _ (disjointRanges_outside hd hi)

/-! ### A decode that ends (R121) -/

/-- A run of the decoder that does not end with `ok` ends with `VALUE` 0 (R75, R180). -/
theorem decoder_run_failed {fuel : Nat} (hb : s.phase = .busy) (h : runToEnd decoderVisit fuel s = .next t)
    (hf : t.status ≠ .ok) : t.value = 0 := by
  obtain ⟨hp, hi⟩ := runToEnd_keeps
    (P := fun u => u.phase = .busy ∨ u.status = .ok ∨ u.value = 0)
    (fun u v hbu _ hv => (decoderVisit_frame hbu hv).ends.imp And.left fun hend =>
      hend.2.2.imp And.left And.right) (.inl hb) h
  rcases hp with hp | hp | hp
  · rw [hi] at hp; cases hp
  · exact absurd hp hf
  · exact hp

/-- What a decode that ended has done: `ok` with a legal block decoded, or an error kind. -/
theorem soundDecode_of_exec (hr : CodecReady s) (hw : s.mem.wf) (h : exec .blockDecode s = .next t) :
    SoundDecode s t := by
  rw [exec_blockDecode_eq hr] at h
  have kept : DecStable (decodeStart s) t := (runs_of_runToEnd h).1.decStable
  have failed := decoder_run_failed rfl h
  refine ⟨?_, kept.mem⟩
  cases hst : t.status with
  | ok =>
    obtain ⟨b, hv, hsrc, hval, hdst⟩ := decode_sound (s := { s with phase := .busy }) rfl hw hr.disjoint h hst
    exact .inl ⟨b, ⟨hv, (kept.sourceBytes_eq hr.disjoint).symm.trans hsrc⟩, hst, hval, hdst⟩
  | dstTooShort => exact .inr ⟨failed (by simp [hst]), by simp⟩
  | invalidData => exact .inr ⟨failed (by simp [hst]), by simp⟩
  | srcTooLong => exact .inr ⟨failed (by simp [hst]), by simp⟩

/-! ### The match copy (R50, R110) -/

/-- A match copy under way from `s`, `j` of its bytes written into the memory `m`. -/
def matchCopyAt (s : State) (j : Nat) (m : Memory) : State :=
  { s with
    mem := m
    dec := { s.dec with
      fromOff := s.dec.fromOff + j
      dp := s.dec.dp + j
      copyLen := BitVec.ofNat 32 (s.dec.copyLen.toNat - j) } }

theorem matchCopyAt_zero (s : State) : matchCopyAt s 0 s.mem = s := by
  simp [matchCopyAt]

/-- The memory after `j` bytes of a match copy from `s`: those bytes periodic with period `copy_off`, and no other
byte changed. -/
structure MatchCopied (s : State) (j : Nat) (m : Memory) : Prop where
  wf : m.wf
  periodic : ∀ i < j, memRead m (s.dstPtr + (s.dec.dp + i)) =
    memRead s.mem (s.dstPtr + (s.dec.dp - s.dec.copyOff.toNat + i % s.dec.copyOff.toNat))
  kept : ∀ a, a < s.dstPtr + s.dec.dp ∨ s.dstPtr + s.dec.dp + j ≤ a → memRead m a = memRead s.mem a

/-- The next byte that a match copy reads is the next byte of the periodic extension: one of the old bytes in the
first period, a byte the copy has written after it. -/
theorem MatchCopied.nextByte {j : Nat} {m : Memory} (h : MatchCopied s j m) (hoff : 1 ≤ s.dec.copyOff.toNat)
    (hfrom : s.dec.fromOff + s.dec.copyOff.toNat = s.dec.dp) :
    memRead m (s.dstPtr + (s.dec.fromOff + j)) =
      memRead s.mem (s.dstPtr + (s.dec.dp - s.dec.copyOff.toNat + j % s.dec.copyOff.toNat)) := by
  by_cases hj : j < s.dec.copyOff.toNat
  · rw [h.kept _ (.inl (by omega)), Nat.mod_eq_of_lt hj, show s.dec.dp - s.dec.copyOff.toNat = s.dec.fromOff by omega]
  · have written := h.periodic (j - s.dec.copyOff.toNat) (by omega)
    rwa [show s.dec.dp + (j - s.dec.copyOff.toNat) = s.dec.fromOff + j by omega,
      ← Nat.mod_eq_sub_mod (by omega)] at written

/-- Writing that byte at `dp` extends the copy by one. -/
theorem MatchCopied.write {j : Nat} {m : Memory} (h : MatchCopied s j m) {b : Byte}
    (hb : b = memRead s.mem (s.dstPtr + (s.dec.dp - s.dec.copyOff.toNat + j % s.dec.copyOff.toNat))) :
    MatchCopied s (j + 1) (memWrite m (s.dstPtr + (s.dec.dp + j)) b) where
  wf := memWrite_wf _ _ _ h.wf
  periodic i hi := by
    by_cases hij : i = j
    · rw [hij, memRead_write_self _ _ _ h.wf, hb]
    · rw [memRead_write_of_ne _ _ (by omega), h.periodic i (by omega)]
  kept a ha := by rw [memRead_write_of_ne _ _ (by omega), h.kept a (by omega)]

/-- One step of a match copy under way. -/
theorem step_matchCopyAt {j : Nat} {m : Memory} (hd : DecodingAt .dMatchCopy s) (hi : DecoderInv s)
    (hj : j < s.dec.copyLen.toNat) :
    step (matchCopyAt s j m) = .next (matchCopyAt s (j + 1)
      (memWrite m (s.dstPtr + (s.dec.dp + j)) (memRead m (s.dstPtr + (s.dec.fromOff + j))))) := by
  obtain ⟨hb, ho, hds⟩ := hd
  obtain ⟨hlt, hroom⟩ := hi.matchCopy hds
  have hlen := s.dec.copyLen.isLt
  have hleft : (matchCopyAt s j m).dec.copyLen.toNat = s.dec.copyLen.toNat - j := by
    rw [matchCopyAt, BitVec.toNat_ofNat, Nat.mod_eq_of_lt (by omega)]
  have hne : (matchCopyAt s j m).dec.copyLen ≠ 0#32 := fun h0 => by
    rw [h0, BitVec.toNat_ofNat] at hleft; omega
  have hpred : (matchCopyAt s j m).dec.copyLen - 1#32 = BitVec.ofNat 32 (s.dec.copyLen.toNat - (j + 1)) :=
    BitVec.eq_of_toNat_eq (by rw [word_pred hne, hleft, BitVec.toNat_ofNat]; omega)
  rw [step_decode (s := matchCopyAt s j m) hb ho, decoderVisit_dMatchCopy (s := matchCopyAt s j m) hds, if_neg hne,
    if_neg (by simp only [matchCopyAt]; omega), hpred]
  rfl

/-- After `j` steps of a match copy, `j` of its bytes are written. -/
theorem runSteps_matchCopy (hd : DecodingAt .dMatchCopy s) (hi : DecoderInv s) (hw : s.mem.wf)
    (hfrom : s.dec.fromOff + s.dec.copyOff.toNat = s.dec.dp) (j : Nat) (hj : j ≤ s.dec.copyLen.toNat) :
    ∃ m, runSteps j s = .next (matchCopyAt s j m) ∧ MatchCopied s j m := by
  induction j with
  | zero =>
    exact ⟨s.mem, by rw [matchCopyAt_zero]; rfl, hw, fun i hi => absurd hi (Nat.not_lt_zero i), fun _ _ => rfl⟩
  | succ j ih =>
    obtain ⟨m, hrun, hm⟩ := ih (by omega)
    have hoff := (hi.offset (.inr (.inr hd.2.2))).1
    exact ⟨_, by rw [runSteps_last, hrun, andThen_next, step_matchCopyAt hd hi hj],
      hm.write (hm.nextByte hoff hfrom)⟩

/-! ### Buffers, byte by byte (R41, R42, R52) -/

theorem readableBuffer_iff {p : Params} {ptr len : Nat} :
    readableBuffer p ptr len = true ↔ PlainBytes p [.device, .unmapped] ptr len := by
  have barred : ∀ k : RegionKind, RegionKind.unreadable k = true ↔ k ∈ [.device, .unmapped] := by
    intro k; cases k <;> simp [RegionKind.unreadable]
  simp [plainBytes_iff, readableBuffer, ← barred, imp_iff_not_or, or_comm]

theorem writableBuffer_iff {p : Params} {ptr len : Nat} :
    writableBuffer p ptr len = true ↔ PlainBytes p [.readOnly, .device, .unmapped] ptr len := by
  have barred : ∀ k : RegionKind, k ∈ [.readOnly, .device, .unmapped] := by
    intro k; cases k <;> simp
  simp [plainBytes_iff, writableBuffer, barred]

/-- The contract of a codec command (R41, R52). -/
theorem codecRefusal_eq_none : codecRefusal s = none ↔
    readableBuffer s.params s.srcPtr s.srcLen = true ∧ writableBuffer s.params s.dstPtr s.dstLen = true ∧
      disjointRanges s.srcPtr s.srcLen s.dstPtr s.dstLen = true := by
  unfold codecRefusal
  split_ifs <;> simp_all

theorem codecReady_iff (hi : s.phase = .idle) : CodecReady s ↔
    PlainBytes s.params [.device, .unmapped] s.srcPtr s.srcLen ∧
      PlainBytes s.params [.readOnly, .device, .unmapped] s.dstPtr s.dstLen ∧
      ∀ a, ¬ (InRange s.srcPtr s.srcLen a ∧ InRange s.dstPtr s.dstLen a) := by
  rw [← readableBuffer_iff, ← writableBuffer_iff, ← disjointRanges_iff, ← codecRefusal_eq_none, CodecReady]
  exact and_iff_right hi

/-- An idle codec command that is not ready is refused for one of three reasons. -/
theorem codecRefusal_of_not_ready (hi : s.phase = .idle) (h : ¬ CodecReady s) : ∃ r,
    (r = .sourceRangeInvalid ∨ r = .destinationRangeInvalid ∨ r = .buffersOverlap) ∧ codecRefusal s = some r := by
  cases hc : codecRefusal s with
  | none => exact absurd ⟨hi, hc⟩ h
  | some r =>
    refine ⟨r, ?_, rfl⟩
    unfold codecRefusal at hc
    split_ifs at hc <;> cases hc <;> simp

/-- Sequences that agree on all of a shorter second one outrun it (R96). -/
theorem lcpOutruns_of_agree (hlt : s.dstLen < s.srcLen)
    (h : ∀ i < s.dstLen, memRead s.mem (s.srcPtr + i) = memRead s.mem (s.dstPtr + i)) : lcpOutruns s :=
  ⟨hlt, lcpCount_eq (by omega) h fun hc => by omega⟩

/-! ### The statements -/

/-- Settles O17: under the invariant every visit of a running command gives a next state. -/
theorem runningCommandNeverStops : Obligations.RunningCommandNeverStops := fun _ hm hb =>
  (step_busy_inv hm hb).imp fun _ => And.left

/-- Settles O45: a ready decode ends, and an ended one is sound. -/
theorem decoderRejectsMalformedInput : Obligations.DecoderRejectsMalformedInput := fun _ hr hw =>
  (exec_blockDecode_ends hr).imp fun _ h => ⟨h, soundDecode_of_exec hr hw h⟩

/-- Settles O8, by the values of the two combinations. -/
theorem widerReadIsLittleEndian : Obligations.WiderReadIsLittleEndian := fun m a =>
  ⟨by rw [memRead32_toNat]; omega, halfLE_toNat _ _⟩

/-- Settles O9, by the laws of sparse storage. -/
theorem readReturnsLatestWrite : Obligations.ReadReturnsLatestWrite := fun m _ a _ b hw hw' =>
  ⟨memRead_write_self m a b hw, memRead_write_of_ne m b, memWrite_wf m a b hw, storeWf_ext hw hw'⟩

/-- Settles O21, by the frame of a step. -/
theorem onlyTheDestinationIsWritten : Obligations.OnlyTheDestinationIsWritten := fun _ _ h =>
  have kept := (step_frame h).1
  ⟨kept.writes, kept.quiet, kept.sourceBytes_eq⟩

/-- Settles O30: each refusal is the one the start names, and a buffer is what its bytes make it. -/
theorem commandsRefusedOutsideTheirContract : Obligations.CommandsRefusedOutsideTheirContract := by
  intro s hi
  refine ⟨fun hp => ⟨?_, ?_⟩, fun hp h4 => ?_, fun hp h4 hsrc => ?_, fun hp hsrc => ?_, fun hp hsrc hdst => ?_,
    fun hp hsrc hdst hlt hag => ?_, fun _ _ => readableBuffer_iff, codecReady_iff hi, fun hn => ?_⟩
  · exact peekU32le_refused hi (by simp [peekRefusal, hp])
  · exact lcp_refused hi (by simp [lcpRefusal, hp])
  · exact peekU32le_refused hi (by simp [peekRefusal, hp, h4])
  · exact peekU32le_refused hi (by simp [peekRefusal, hp, Nat.not_lt.2 h4, mt readableBuffer_iff.1 hsrc])
  · exact lcp_refused hi (by simp [lcpRefusal, hp, mt readableBuffer_iff.1 hsrc])
  · exact lcp_refused hi (by simp [lcpRefusal, hp, readableBuffer_iff.2 hsrc, mt readableBuffer_iff.1 hdst])
  · exact lcp_refused hi (by simp [lcpRefusal, hp, hsrc, hdst, lcpOutruns_of_agree hlt hag])
  · obtain ⟨r, hr, hc⟩ := codecRefusal_of_not_ready hi hn
    exact ⟨r, hr, codec_refused hi hc⟩

/-- Settles O42: the match copy's steps, run to its last byte. -/
theorem matchCopyIsPeriodic : Obligations.MatchCopyIsPeriodic := by
  intro s hd hi hw hfrom
  obtain ⟨m, hrun, hm⟩ := runSteps_matchCopy hd hi hw hfrom _ (Nat.le_refl _)
  exact ⟨matchCopyAt s s.dec.copyLen.toNat m, hrun, hd, by simp [matchCopyAt], rfl, hm.periodic, hm.kept⟩

end Sys2Proof.Machine
end

section
/-! PROOFS. Encoding (30_encoding.md): the decoder and the encoder of items are inverse to each other at every
position, an extension run has one value, the command codes of the primitives and the codes that name no operation,
a legal offset, and the block as a whole: a legal one decodes, and the encoder emits a legal one. -/

namespace Sys2Proof.Machine

open Sys2Proof.Config

variable {s t : State} {b : Byte} {bs rest : List Byte}

/-! ### The decoder at each position (R61, R63, R65, R66, R68, R72) -/

theorem decode_command (h : b.toNat < 8) :
    decode .command (b :: rest) = .ok (decodeCommand (b.setWidth 3), rest) := by
  simp [decode, h]

theorem decode_command_wide (h : 8 ≤ b.toNat) : decode .command (b :: rest) = .error .opTooWide := by
  simp [decode, h]

theorem decode_token : decode .token (b :: rest) = .ok (.token (highNibble b) (lowNibble b), rest) := rfl

theorem decode_literal : decode .literal (b :: rest) = .ok (.literal b, rest) := rfl

theorem decode_offset {b0 b1 : Byte} : decode .offset (b0 :: b1 :: rest) = .ok (.offset (halfLE b0 b1), rest) := rfl

theorem decode_litExt_cont : decode .litExt (255#8 :: rest) = .ok (.litExtCont, rest) := rfl

theorem decode_matchExt_cont : decode .matchExt (255#8 :: rest) = .ok (.matchExtCont, rest) := rfl

theorem decode_litExt_end (h : b ≠ 255#8) : decode .litExt (b :: rest) = .ok (.litExtEnd b, rest) := by
  simp [decode, h]

theorem decode_matchExt_end (h : b ≠ 255#8) : decode .matchExt (b :: rest) = .ok (.matchExtEnd b, rest) := by
  simp [decode, h]

/-- A code of `OP` back from its byte. -/
theorem setWidth_setWidth_of_lt (h : b.toNat < 8) : (b.setWidth 3).setWidth 8 = b := by
  apply BitVec.eq_of_toNat_eq
  simp only [BitVec.toNat_setWidth]
  omega

theorem decodeCommand_isElement : ∀ op : BitVec 3, isElement (decodeCommand op) = false := by decide

/-- What decodes stands at its position, and its encoding is the bytes taken. -/
theorem encode_of_decode {c : Ctx} {i : Instr} (h : decode c bs = .ok (i, rest)) :
    contextOf i = c ∧ bs = encode i ++ rest := by
  unfold decode at h
  split at h
  case h_1 b tail =>
    split at h
    case isTrue hlt =>
      cases h
      obtain ⟨henc, hctx, -⟩ := encode_decodeCommand (b.setWidth 3)
      exact ⟨hctx, by rw [henc, setWidth_setWidth_of_lt hlt]; rfl⟩
    case isFalse => cases h
  case h_2 =>
    cases h
    exact ⟨rfl, by rw [encode, nibbles_append]; rfl⟩
  case h_3 =>
    cases h
    split
    case isTrue hb => exact ⟨rfl, by rw [hb]; rfl⟩
    case isFalse => exact ⟨rfl, rfl⟩
  case h_4 =>
    cases h
    exact ⟨rfl, rfl⟩
  case h_5 =>
    cases h
    exact ⟨rfl, by rw [encode, lowByte_halfLE, highByte_halfLE]; rfl⟩
  case h_6 =>
    cases h
    split
    case isTrue hb => exact ⟨rfl, by rw [hb]; rfl⟩
    case isFalse => exact ⟨rfl, rfl⟩
  case h_7 => cases h

/-! ### Every byte string decodes (R68, R69) -/

theorem decode_truncated {c : Ctx} (hc : c ≠ .command) (h : bs.length < c.size) :
    decode c bs = .error .truncated := by
  cases c with
  | command => exact absurd rfl hc
  | offset =>
    match bs, h with
    | [], _ => rfl
    | [_], _ => rfl
  | token | litExt | literal | matchExt =>
    obtain rfl := List.eq_nil_of_length_eq_zero (Nat.lt_one_iff.1 h)
    rfl

theorem decode_of_size_le {c : Ctx} (hc : c ≠ .command) (h : c.size ≤ bs.length) :
    ∃ i, decode c bs = .ok (i, bs.drop c.size) := by
  cases c with
  | command => exact absurd rfl hc
  | offset =>
    match bs, h with
    | _ :: _ :: _, _ => exact ⟨_, rfl⟩
  | token | litExt | literal | matchExt =>
    match bs, h with
    | _ :: _, _ => exact ⟨_, rfl⟩

/-! ### The fields of an element as numbers (R61, R66) -/

theorem highNibble_eq_ofNat (b : Byte) : highNibble b = BitVec.ofNat 4 (b.toNat / 16) := by
  revert b; decide

theorem lowNibble_eq_ofNat (b : Byte) : lowNibble b = BitVec.ofNat 4 (b.toNat % 16) := by
  revert b; decide

theorem halfLE_eq_ofNat (b0 b1 : Byte) : halfLE b0 b1 = BitVec.ofNat 16 (b0.toNat + 256 * b1.toNat) := by
  rw [← halfLE_toNat, BitVec.ofNat_toNat, BitVec.setWidth_eq]

theorem lowNibble_toNat (b : Byte) : (lowNibble b).toNat = b.toNat % 16 := by
  rw [lowNibble_eq_ofNat, BitVec.toNat_ofNat]
  omega

/-! ### Extension runs (R63, R64, R140) -/

/-- Two runs of the form of R63 with the same bytes are the same run. -/
theorem extRun_inj {k k' r r' : Nat} (hr : r < 255) (hr' : r' < 255)
    (h : List.replicate k' 0xFF#8 ++ [BitVec.ofNat 8 r'] = List.replicate k 0xFF#8 ++ [BitVec.ofNat 8 r]) :
    k' = k ∧ r' = r := by
  obtain ⟨hrun, hlast⟩ := List.append_inj' h rfl
  have hk := congrArg List.length hrun
  have hb := congrArg BitVec.toNat (List.singleton_inj.1 hlast)
  simp only [List.length_replicate] at hk
  simp only [BitVec.toNat_ofNat] at hb
  omega

/-! ### The primitives and the refused codes from the host (R72, R91, R96) -/

/-- The end with `ok` of a command that ran from an idle state. -/
theorem ret_of_idle (v : Nat) (hi : s.phase = .idle) :
    ret v s = { s with status := .ok, value := v, ended := true } := by
  rw [ret, State.finish, ← hi]

/-- The contract of a host peek (R72, R91). -/
theorem peekRefusal_eq_none (hp : s.params.hostPrimitives = true) (h4 : 4 ≤ s.srcLen)
    (hsrc : readableBuffer s.params s.srcPtr s.srcLen = true) : peekRefusal s = none := by
  simp [peekRefusal, hp, Nat.not_lt.2 h4, hsrc]

/-- The contract of a host scan (R72, R96). -/
theorem lcpRefusal_eq_none (hp : s.params.hostPrimitives = true)
    (hsrc : readableBuffer s.params s.srcPtr s.srcLen = true)
    (hdst : readableBuffer s.params s.dstPtr s.dstLen = true) (hrun : ¬ lcpOutruns s) : lcpRefusal s = none := by
  simp only [lcpRefusal, hp, hsrc, hdst, if_neg hrun, Bool.not_true, Bool.false_eq_true, if_false]

/-! ### The offset (R107) -/

/-- `OFFSET` in its position, the source holding its two bytes. -/
theorem exec_offset {o : Half} (hb : s.phase = .busy) (hd : s.dec.dstate = .dOffset)
    (hsrc : s.dec.sp + 2 ≤ s.srcLen) :
    exec (.offset o) s =
      if o = 0#16 ∨ s.dec.dp < o.toNat then
        .next (raise .invalidData { s with dec := { s.dec with copyOff := o, sp := s.dec.sp + 2 } })
      else .next { s with dec := { s.dec with
        copyOff := o
        sp := s.dec.sp + 2
        copyLen := (lowNibble s.dec.token).setWidth 32 + 4#32
        dstate := if lowNibble s.dec.token = 15#4 then .dMatchExt else .dMatchCheck } } := by
  have hroom : ¬ decRemainingSrc s < Ctx.offset.size := by
    simp only [decRemainingSrc, Ctx.size]
    omega
  show execOffset o s = _
  rw [execOffset, inPosition, if_pos ⟨hb, hd⟩, if_neg hroom]

/-! ### An encode that ends (R150) -/

/-- On the way through an encode of `n` source bytes: running with its invariants, or ended with `VALUE` at most
the worst-case size. -/
structure EncodeWithin (n : Nat) (u : State) : Prop where
  table : storeWf u.ht
  srcLen : u.srcLen = n
  running : EncodeRunning u ∨ u.phase = .idle ∧ u.value ≤ worstCaseSize n

theorem encoderVisit_within {n : Nat} (hb : s.phase = .busy) (h : EncodeWithin n s)
    (hv : encoderVisit s = .next t) : EncodeWithin n t := by
  have hrun : EncodeRunning s := h.running.resolve_right fun hi => by rw [hb] at hi; cases hi.1
  have kept := (encoderVisit_frame hv).1
  obtain ⟨t', hv', hprog⟩ := encoderVisit_progress hrun h.table
  obtain rfl : t = t' := by rw [hv] at hv'; cases hv'; rfl
  refine ⟨kept.htWf h.table, kept.srcLen.trans h.srcLen, ?_⟩
  rcases hprog with ⟨hi, hle, -⟩ | ⟨hrun', -⟩
  · exact .inr ⟨hi, by rw [← h.srcLen]; exact hle⟩
  · exact .inl hrun'

/-- The block an encode reports is no longer than the worst-case size (R150 item 3). -/
theorem exec_blockEncode_value_le (hht : storeWf s.ht) (h : exec .blockEncode s = .next t) :
    t.value ≤ worstCaseSize s.srcLen := by
  have hr := exec_blockEncode_ready h
  rw [exec_blockEncode_eq hr] at h
  have hstart : EncodeWithin s.srcLen (encodeStart s) :=
    ⟨hht, rfl, .inl (encodeRunning_begin (s := { s with phase := .busy }) rfl hr.disjoint)⟩
  obtain ⟨hend, hi⟩ := runToEnd_keeps (fun _ _ hb hu hv => encoderVisit_within hb hu hv) hstart h
  rcases hend.running with hrun | ⟨-, hle⟩
  · rw [hrun.1] at hi; cases hi
  · exact hle

/-- An encode leaves its source (R43, R52). -/
theorem exec_blockEncode_source (h : exec .blockEncode s = .next t) :
    t.srcLen = s.srcLen ∧ sourceBytes t = sourceBytes s := by
  have hr := exec_blockEncode_ready h
  rw [exec_blockEncode_eq hr] at h
  have kept : EncStable (encodeStart s) t := (runs_of_runToEnd h).1.encStable
  exact ⟨kept.srcLen, kept.sourceBytes_eq hr.disjoint⟩

/-- An encode that ended with `ok` has written a legal block of its source (R150 items 1, 2, 4 and 5). -/
theorem exec_blockEncode_encoded (hs : StoresCanonical s) (h : exec .blockEncode s = .next t) : EncodedBlock t := by
  have hr := exec_blockEncode_ready h
  rw [exec_blockEncode_eq hr] at h
  exact encode_sound (s := { s with phase := .busy }) rfl hs.mem hs.ht hr.disjoint h

/-! ### The statements -/

/-- Settles O2, by the constructors: a command by its code, an element by its fields. -/
theorem decodeOfEncodeIsTheInstruction : Obligations.DecodeOfEncodeIsTheInstruction := by
  intro i rest hwf
  cases i with
  | token l m =>
    show decode .token ((l ++ m) :: rest) = _
    rw [decode_token, highNibble_append, lowNibble_append]
  | litExtCont => exact decode_litExt_cont
  | litExtEnd r => exact decode_litExt_end (by simpa [Instr.wf] using hwf)
  | literal => exact decode_literal
  | offset o =>
    show decode .offset (lowByte o :: highByte o :: rest) = _
    rw [decode_offset, halfLE_bytes]
  | matchExtCont => exact decode_matchExt_cont
  | matchExtEnd r => exact decode_matchExt_end (by simpa [Instr.wf] using hwf)
  | worstCaseDstLen | blockEncode | blockDecode | peekU32le | lcp | refusedOp0 | refusedOp6 | refusedOp7 => rfl

/-- Settles O44: the visits of the block's parts lead to the end, which is where the whole run leads. -/
theorem legalBlockDecodes : Obligations.LegalBlockDecodes := by
  intro s b hr hw hlim ⟨hval, hsrc⟩ hroom
  obtain ⟨t, hruns, hi, hok, -, hvalue, hdst⟩ :=
    runs_block b (s := { s with phase := .busy }) rfl hw hr.disjoint hlim hval hroom hsrc
  obtain ⟨u, hu⟩ := exec_blockDecode_ends hr
  have hu' := hu
  rw [exec_blockDecode_eq hr] at hu'
  obtain rfl : u = t := runToEnd_of_runs hruns hi hu'
  exact ⟨u, hu, hok, hvalue, hdst⟩

/-- Settles O58: the block found along the run, its source kept, and the bound of a run. -/
theorem encoderEmitsALegalBlock : Obligations.EncoderEmitsALegalBlock := by
  intro s t hs h hok
  obtain ⟨b, hvalid, hlow, hexp, hsize, hdst, htail, hstarts⟩ := exec_blockEncode_encoded hs h hok
  obtain ⟨hlen, hsrc⟩ := exec_blockEncode_source h
  rw [hsrc] at hexp htail
  rw [hlen] at hstarts
  exact ⟨b, {
    legal := hvalid
    expands := hexp
    size := hsize
    written := hdst
    bound := exec_blockEncode_value_le hs.ht h
    lastLow := hlow
    tail := htail.imp_left And.symm
    starts := hstarts }⟩

/-- Settles O3, by what decodes being well formed and its encoding. -/
theorem encodeOfDecodeIsTheBytes : Obligations.EncodeOfDecodeIsTheBytes := fun _ _ _ _ h =>
  ⟨decode_wf h, encode_of_decode h⟩

/-- Settles O4, by the number of bytes at a stream position and the value of the code at the command's. -/
theorem streamBytesAlwaysDecode : Obligations.StreamBytesAlwaysDecode := by
  intro c bytes
  refine ⟨fun hc => ⟨fun hle => ?_, decode_truncated hc⟩, ?_⟩
  · obtain ⟨i, hi⟩ := decode_of_size_le hc hle
    exact ⟨i, decode_isElement hc hi, hi⟩
  · rintro rfl b rest rfl
    exact ⟨fun hlt => ⟨_, decodeCommand_isElement _, decode_command hlt⟩, decode_command_wide⟩

/-- Settles O6, by quotient and remainder. -/
theorem extensionRunHasOneValue : Obligations.ExtensionRunHasOneValue := fun n =>
  have hr : n % 255 < 255 := Nat.mod_lt n (by decide)
  ⟨extBytes_length n, n / 255, n % 255, hr, (Nat.div_add_mod n 255).symm, rfl, fun _ _ hr' h => extRun_inj hr hr' h⟩

/-- Settles O29: the scan counts `k`, and its contract is met. -/
theorem lcpResult : Obligations.LcpResult := by
  intro s k hi hp hsrc hdst hk hagree hstop hroom
  obtain ⟨hcount, hrun⟩ := lcpHostCount_eq hk hagree hstop hroom
  rw [exec_lcp_eq hi (lcpRefusal_eq_none hp hsrc hdst hrun), hcount, ret_of_idle]
  exact hi

/-- Settles O1, by running the decoder on the nine words. -/
theorem sampleWordsDecode : Obligations.SampleWordsDecode :=
  ⟨rfl, rfl, rfl, rfl, rfl, rfl, rfl, rfl, rfl⟩

/-- Settles O5, by the fields as numbers. -/
theorem elementFieldsAreTheBits : Obligations.ElementFieldsAreTheBits := by
  intro b b0 b1 rest
  refine ⟨?_, ?_, fun h => ?_, fun h => ?_⟩
  · rw [decode_token, highNibble_eq_ofNat, lowNibble_eq_ofNat]
  · rw [decode_offset, halfLE_eq_ofNat]
  · obtain rfl : b = 255#8 := BitVec.eq_of_toNat_eq h
    exact ⟨decode_litExt_cont, decode_matchExt_cont⟩
  · have hb : b ≠ 255#8 := by
      rintro rfl
      exact absurd h (by decide)
    exact ⟨decode_litExt_end hb, decode_matchExt_end hb⟩

/-- Settles O28: the contract is met, and the word loaded is the sum of its bytes. -/
theorem peekU32leResult : Obligations.PeekU32leResult := by
  intro s hi hp h4 hsrc
  have hword : (memRead32 s.mem s.srcPtr).toNat = (memRead s.mem s.srcPtr).toNat +
      256 * (memRead s.mem (s.srcPtr + 1)).toNat + 65536 * (memRead s.mem (s.srcPtr + 2)).toNat +
      16777216 * (memRead s.mem (s.srcPtr + 3)).toNat := (widerReadIsLittleEndian s.mem s.srcPtr).1
  rw [exec_peek_eq hi (peekRefusal_eq_none hp h4 hsrc) h4, ret_of_idle, hword]
  · rfl
  · exact hi

/-- Settles O31: idle, a step and a start look at the code in `OP`. -/
theorem refusedCodesStop : Obligations.RefusedCodesStop := by
  refine fun s => ⟨rfl, rfl, rfl, fun hi ho => ?_⟩
  rw [step_idle hi, hostStart]
  rcases ho with ho | ho | ho <;> rw [ho] <;> exact ⟨rfl, rfl⟩

/-- Settles O35: the test of the offset decides between the two cases. -/
theorem offsetCompletes : Obligations.OffsetCompletes := by
  intro s o hb hd hsrc
  have hzero : o = 0#16 ↔ o.toNat = 0 := BitVec.toNat_eq
  rw [exec_offset hb hd hsrc]
  refine ⟨fun h1 hdp => ?_, fun hbad => ?_⟩
  · have hlen : (lowNibble s.dec.token).setWidth 32 + 4#32 = BitVec.ofNat 32 (s.dec.token.toNat % 16 + 4) := by
      apply BitVec.eq_of_toNat_eq
      rw [nibble_word_add_four, lowNibble_toNat, word_ofNat_toNat (by omega)]
    have hrun : lowNibble s.dec.token = 15#4 ↔ s.dec.token.toNat % 16 = 15 := by
      rw [BitVec.toNat_eq, lowNibble_toNat]
      rfl
    rw [if_neg (by rw [hzero]; omega), hlen]
    simp only [hrun]
  · rw [if_pos (by rw [hzero]; exact hbad)]
    rfl

end Sys2Proof.Machine
end

section
/-! PROOFS. The common-prefix scanner (41_lcp.md): scanning by words and then bytes gives the `k` of R95. -/

namespace Sys2Proof.Machine

/-! ### The statements -/

/-- Settles O11: the count has the three properties of R95, and only one `k` has them. -/
theorem lcpListingIsTheDefinition : Obligations.LcpListingIsTheDefinition := by
  intro m p q n k
  have hlim : p ≤ p + n := Nat.le_add_right p n
  refine ⟨memRead32_eq_iff m m p q, ?_, fun ⟨hle, hagree, hstop⟩ => lcpCount_eq hle hagree hstop⟩
  rintro rfl
  exact ⟨Nat.add_le_add_iff_left.1 (lcpCount_le m q hlim), fun _ hi => lcpCount_agree m q hlim hi,
    fun hlt => lcpCount_stops m q hlim (Nat.add_lt_add_left hlt p)⟩

end Sys2Proof.Machine
end

section
/-! PROOFS. The block decoder (42_decoder.md): each stream element in its position, each label's step, what an
element leaves unchanged, that a decode ignores the encoder's state, the whole command against its steps, and the
round trip. -/

namespace Sys2Proof.Machine

open Sys2Proof.Config

variable {s t u : State}

/-! ### Tests and fields of a token, an extension byte and a counter as numbers (R61, R63, R104, R105) -/

theorem highNibble_setWidth (b : Byte) : (highNibble b).setWidth 32 = BitVec.ofNat 32 (b.toNat / 16) := by
  revert b; decide

theorem highNibble_eq_fifteen (b : Byte) : highNibble b = 15#4 ↔ b.toNat / 16 = 15 := by
  revert b; decide

theorem nibbles_eq_ofNat (l m : Nibble) : l ++ m = BitVec.ofNat 8 (16 * l.toNat + m.toNat) := by
  revert l m; decide

theorem nibble_eq_fifteen {l : Nibble} : l = 15#4 ↔ l.toNat = 15 := BitVec.toNat_eq

theorem byte_eq_255 {b : Byte} : b = 255#8 ↔ b.toNat = 255 := BitVec.toNat_eq

theorem word_eq_zero {x : Word} : x = 0#32 ↔ x.toNat = 0 := BitVec.toNat_eq

/-- The counter of a copy, one byte on. -/
theorem word_sub_one {x : Word} (h : x ≠ 0#32) : x - 1#32 = BitVec.ofNat 32 (x.toNat - 1) := by
  rw [← word_pred h, BitVec.ofNat_toNat, BitVec.setWidth_eq]

/-! ### A stream element in its position (R68) -/

/-- An element in its position, the source holding its bytes, has its effect. -/
theorem inPosition_ready {d : DState} {c : Ctx} {effect : State → Out} (hb : s.phase = .busy)
    (hd : s.dec.dstate = d) (hsrc : s.dec.sp + c.size ≤ s.srcLen) : inPosition d c s effect = effect s := by
  have hroom : ¬ decRemainingSrc s < c.size := by
    rw [decRemainingSrc]
    omega
  rw [inPosition, if_pos ⟨hb, hd⟩, if_neg hroom]

/-- An element that gives a next state stands in its position; it raises `InvalidData` or has its effect. -/
theorem inPosition_next {d : DState} {c : Ctx} {effect : State → Out} (h : inPosition d c s effect = .next t) :
    s.phase = .busy ∧ (t = raise .invalidData s ∨ effect s = .next t) := by
  unfold inPosition at h
  split at h
  case isTrue hpos =>
    refine ⟨hpos.1, ?_⟩
    split at h
    case isTrue => cases h; exact .inl rfl
    case isFalse => exact .inr h
  case isFalse => cases h

/-! ### What an element leaves unchanged (R103 to R108) -/

/-- What a stream element that stores to the address `store`, if to any, leaves unchanged, and how it may end the
command. -/
structure ElementKept (store : Option Nat) (s t : State) : Prop where
  operands : OperandsKept s t
  enc : t.enc = s.enc
  ht : t.ht = s.ht
  peek : t.peek = s.peek
  lcp : t.lcp = s.lcp
  mem : ∀ a, store ≠ some a → memRead t.mem a = memRead s.mem a
  ends : t.phase = .busy ∧ t.status = s.status ∧ t.value = s.value ∧ t.ended = s.ended ∨
    t.phase = .idle ∧ t.status = .invalidData ∧ t.value = 0 ∧ t.ended = true

/-- An element that writes the decoder's registers only. -/
theorem ElementKept.registers (hb : s.phase = .busy) (d : DecRegs) : ElementKept none s { s with dec := d } :=
  ⟨⟨rfl, rfl, rfl, rfl, rfl, rfl⟩, rfl, rfl, rfl, rfl, fun _ _ => rfl, .inl ⟨hb, rfl, rfl, rfl⟩⟩

/-- An element that ends the command after writing the decoder's registers. -/
theorem ElementKept.raises (s : State) (d : DecRegs) :
    ElementKept none s (raise .invalidData { s with dec := d }) :=
  ⟨⟨rfl, rfl, rfl, rfl, rfl, rfl⟩, rfl, rfl, rfl, rfl, fun _ _ => rfl, .inr ⟨rfl, rfl, rfl, rfl⟩⟩

/-- The frame of an element in its position, from that of its effect. -/
theorem ElementKept.of_inPosition {d : DState} {c : Ctx} {effect : State → Out}
    (h : inPosition d c s effect = .next t)
    (heffect : s.phase = .busy → effect s = .next t → ElementKept none s t) : ElementKept none s t := by
  obtain ⟨hb, rfl | he⟩ := inPosition_next h
  · exact .raises s s.dec
  · exact heffect hb he

theorem execToken_kept {l m : Nibble} (h : execToken l m s = .next t) : ElementKept none s t :=
  .of_inPosition h fun hb he => by cases he; exact .registers hb _

theorem execLitExtCont_kept (h : execLitExtCont s = .next t) : ElementKept none s t :=
  .of_inPosition h fun hb he => by cases he; exact .registers hb _

theorem execLitExtEnd_kept {r : Byte} (h : execLitExtEnd r s = .next t) : ElementKept none s t := by
  unfold execLitExtEnd at h
  split at h
  case isTrue => cases h
  case isFalse => exact .of_inPosition h fun hb he => by cases he; exact .registers hb _

theorem execLiteral_kept {b : Byte} (h : execLiteral b s = .next t) :
    ElementKept (some (s.dstPtr + s.dec.dp)) s t := by
  unfold execLiteral at h
  split_ifs at h with hpos
  cases h
  exact ⟨⟨rfl, rfl, rfl, rfl, rfl, rfl⟩, rfl, rfl, rfl, rfl,
    fun a ha => memRead_write_of_ne _ _ fun heq => ha (congrArg some heq.symm), .inl ⟨hpos.1, rfl, rfl, rfl⟩⟩

theorem execOffset_kept {o : Half} (h : execOffset o s = .next t) : ElementKept none s t :=
  .of_inPosition h fun hb he => by
    dsimp only at he
    split at he
    case isTrue => cases he; exact .raises s _
    case isFalse => cases he; exact .registers hb _

theorem execMatchExtCont_kept (h : execMatchExtCont s = .next t) : ElementKept none s t :=
  .of_inPosition h fun hb he => by cases he; exact .registers hb _

theorem execMatchExtEnd_kept {r : Byte} (h : execMatchExtEnd r s = .next t) : ElementKept none s t := by
  unfold execMatchExtEnd at h
  split at h
  case isTrue => cases h
  case isFalse => exact .of_inPosition h fun hb he => by cases he; exact .registers hb _

/-- Every stream element changes at most the byte it stores. -/
theorem exec_element_kept {i : Instr} (hi : isElement i = true) (h : exec i s = .next t) :
    ElementKept (elementStore i s) s t := by
  cases i with
  | token l m => exact execToken_kept h
  | litExtCont => exact execLitExtCont_kept h
  | litExtEnd r => exact execLitExtEnd_kept h
  | literal b => exact execLiteral_kept h
  | offset o => exact execOffset_kept h
  | matchExtCont => exact execMatchExtCont_kept h
  | matchExtEnd r => exact execMatchExtEnd_kept h
  | worstCaseDstLen | blockEncode | blockDecode | peekU32le | lcp | refusedOp0 | refusedOp6 | refusedOp7 => cases hi

/-! ### A decode beside other contents of the encoder's state (R119) -/

/-- Visits lead beside other contents where they lead without them. -/
theorem decoder_runs_withUnits (e : EncRegs) (h : HashTable) (pk : PeekRegs) (lc : LcpRegs)
    (hr : Runs decoderVisit s t) : Runs decoderVisit (withUnits e h pk lc s) (withUnits e h pk lc t) := by
  induction hr with
  | refl s => exact .refl _
  | @head s v t hb hv _ ih =>
    refine .head (u := withUnits e h pk lc v) hb ?_ ih
    rw [decoderVisit_withUnits s e h pk lc hb, hv]
    rfl

theorem exec_blockDecode_withUnits (e : EncRegs) (h : HashTable) (pk : PeekRegs) (lc : LcpRegs)
    (hx : exec .blockDecode s = .next t) :
    exec .blockDecode (withUnits e h pk lc s) = .next (withUnits e h pk lc t) := by
  have hr := exec_blockDecode_ready hx
  have hr' : CodecReady (withUnits e h pk lc s) := hr
  rw [exec_blockDecode_eq hr] at hx
  obtain ⟨hruns, hi⟩ := runs_of_runToEnd hx
  obtain ⟨t', ht'⟩ := exec_blockDecode_ends hr'
  rw [exec_blockDecode_eq hr'] at ht' ⊢
  rw [ht', runToEnd_of_runs (decoder_runs_withUnits e h pk lc hruns) hi ht']

/-- What visits leave unchanged, a whole decode leaves unchanged. -/
theorem exec_blockDecode_stable (hx : exec .blockDecode s = .next t) : DecStable (decodeStart s) t := by
  rw [exec_blockDecode_eq (exec_blockDecode_ready hx)] at hx
  exact (runs_of_runToEnd hx).1.decStable

/-! ### The labels' steps (R103, R106, R107) -/

theorem source_spent_iff (h : s.dec.sp ≤ s.srcLen) : s.srcLen ≤ s.dec.sp ↔ s.dec.sp = s.srcLen := by omega

/-- At `D_OFFSET` with two source bytes left, a step runs the offset they hold. -/
theorem step_offset (hb : s.phase = .busy) (ho : s.op = 3#3) (hd : s.dec.dstate = .dOffset)
    (hsrc : s.dec.sp + 2 ≤ s.srcLen) : step s = exec (.offset (decOffset s)) s := by
  have hroom : 2 ≤ decRemainingSrc s := by
    rw [decRemainingSrc]
    omega
  refine step_element (c := .offset) (rest := []) hb ho (by rw [elementCtx, hd]) ?_
  rw [streamBytes_two rfl hroom, decode_offset, decOffset]

theorem decOffset_toNat (s : State) : (decOffset s).toNat =
    (memRead s.mem (s.srcPtr + s.dec.sp)).toNat + 256 * (memRead s.mem (s.srcPtr + (s.dec.sp + 1))).toNat :=
  halfLE_toNat _ _

/-! ### A whole command and its steps (D8) -/

theorem exec_blockEncode_ends (hr : CodecReady s) (hht : storeWf s.ht) : ∃ t, exec .blockEncode s = .next t := by
  rw [exec_blockEncode_eq hr]
  exact encode_ends { s with phase := .busy } rfl hht hr.disjoint

/-- The contract of a host peek that is met has its four source bytes (R91). -/
theorem peekRefusal_none (h : peekRefusal s = none) : 4 ≤ s.srcLen := by
  unfold peekRefusal at h
  split_ifs at h
  omega

/-- A start that gives a next state had no reason to refuse. -/
theorem startThen_accepted {why : Option Refusal} {f : State → State}
    (h : (andThen (startWith why s) fun t => .next (f t)) = .next u) : why = none := by
  obtain ⟨v, hv, -⟩ := andThen_eq_next.1 h
  exact (startWith_next.1 hv).2.1

/-- A command that the host can start runs to its end. -/
theorem exec_of_hostStart (hht : storeWf s.ht) (h : hostStart s = .next u) :
    ∃ t, exec (decodeCommand s.op) s = .next t := by
  have hi : s.phase = .idle := (hostStart_keeps h).1
  rcases op_cases s.op with ho | ho | ho | ho | ho | ho | ho | ho <;>
    rw [ho] <;> simp only [hostStart, ho] at h
  · cases h
  · exact ⟨_, exec_worstCase_eq hi⟩
  · exact exec_blockEncode_ends ⟨hi, startThen_accepted h⟩ hht
  · exact exec_blockDecode_ends ⟨hi, startThen_accepted h⟩
  · have hr : peekRefusal s = none := (startWith_next.1 h).2.1
    exact ⟨_, exec_peek_eq hi hr (peekRefusal_none hr)⟩
  · exact ⟨_, exec_lcp_eq hi (startThen_accepted h)⟩
  · cases h
  · cases h

/-! ### A decode past its pre-check (R101, R113, R120) -/

/-- A visit past the pre-check stays past it, and does not end the command with `SrcTooLong`. -/
theorem decoderVisit_past (hb : s.phase = .busy) (hp : s.dec.dstate ≠ .dPrecheck)
    (h : decoderVisit s = .next t) : t.dec.dstate ≠ .dPrecheck ∧ (t.phase = .idle → t.status ≠ .srcTooLong) := by
  have runs : ∀ {v : State}, v.phase = .busy → v.phase = .idle → v.status ≠ .srcTooLong :=
    fun hv hi => by rw [hv] at hi; cases hi
  have short : ∀ v : State, (raise .dstTooShort v).status ≠ .srcTooLong := fun _ => nofun
  have invalid : ∀ v : State, (raise .invalidData v).status ≠ .srcTooLong := fun _ => nofun
  cases hd : s.dec.dstate with
  | dPrecheck => exact absurd hd hp
  | dToken =>
    rw [decoderVisit_dToken hb hd] at h
    split at h <;> cases h
    · exact ⟨hp, fun _ => invalid _⟩
    · exact ⟨by dsimp only; split <;> simp, runs hb⟩
  | dLitExt =>
    rw [decoderVisit_dLitExt hb hd] at h
    split at h <;> cases h
    · exact ⟨hp, fun _ => invalid _⟩
    · exact ⟨by dsimp only; split <;> simp, runs hb⟩
  | dLitCheck =>
    rw [decoderVisit_dLitCheck hd] at h
    split_ifs at h <;> cases h
    · exact ⟨hp, fun _ => invalid _⟩
    · exact ⟨hp, fun _ => short _⟩
    · exact ⟨by simp, runs hb⟩
  | dLitCopy =>
    by_cases hn : s.dec.n = 0#32
    · rw [decoderVisit_dLitCopy_done hd hn] at h
      cases h
      exact ⟨by simp, runs hb⟩
    · rw [decoderVisit_dLitCopy hb hd hn] at h
      split_ifs at h
      cases h
      exact ⟨hp, runs hb⟩
  | dEndCheck =>
    rw [decoderVisit_dEndCheck hd] at h
    split at h <;> cases h
    · exact ⟨hp, fun _ => by simp⟩
    · exact ⟨by simp, runs hb⟩
  | dOffset =>
    rw [decoderVisit_dOffset hb hd] at h
    split at h
    · cases h; exact ⟨hp, fun _ => invalid _⟩
    · split at h <;> cases h
      · exact ⟨hp, fun _ => invalid _⟩
      · exact ⟨by dsimp only; split <;> simp, runs hb⟩
  | dMatchExt =>
    rw [decoderVisit_dMatchExt hb hd] at h
    split at h <;> cases h
    · exact ⟨hp, fun _ => invalid _⟩
    · exact ⟨by dsimp only; split <;> simp, runs hb⟩
  | dMatchCheck =>
    rw [decoderVisit_dMatchCheck hd] at h
    split at h <;> cases h
    · exact ⟨hp, fun _ => short _⟩
    · exact ⟨by simp, runs hb⟩
  | dMatchCopy =>
    rw [decoderVisit_dMatchCopy hd] at h
    split_ifs at h <;> cases h
    · exact ⟨by simp, runs hb⟩
    · exact ⟨hp, runs hb⟩

/-- On the way through a decode of `s` past its pre-check: the bytes before `dp` are all that has changed, and the
result, once written, is `dp` or an error kind other than the pre-check's. -/
structure DecodeSoFar (s u : State) : Prop where
  stable : DecStable s u
  past : u.dec.dstate ≠ .dPrecheck
  room : u.dec.dp ≤ u.dstLen
  writes : WritesOnly u.dstPtr u.dec.dp s u
  result : u.phase = .busy ∨ u.ended = true ∧ u.status ≠ .srcTooLong ∧
    (u.status = .ok ∧ u.value = u.dec.dp ∨ u.status ≠ .ok ∧ u.value = 0)

theorem decodeSoFar_opened (s : State) : DecodeSoFar s (decodeOpened s) where
  stable := ⟨rfl, rfl, rfl, rfl, rfl, rfl, rfl, rfl, rfl, rfl, id, fun _ _ => rfl⟩
  past := by simp [decodeOpened]
  room := Nat.zero_le _
  writes _ _ := rfl
  result := .inl rfl

theorem DecodeSoFar.visit (h : DecodeSoFar s u) (hb : u.phase = .busy) (hv : decoderVisit u = .next t) :
    DecodeSoFar s t := by
  have frame := decoderVisit_frame hb hv
  obtain ⟨hpast, hstatus⟩ := decoderVisit_past hb h.past hv
  have hout := (decoderVisit_advance hb h.past hv).output
  have hroom := h.room
  refine ⟨h.stable.trans frame.stable, hpast, ?_, fun a ha => ?_, ?_⟩
  · rw [frame.dstLen]
    omega
  · rw [frame.dstPtr] at ha
    rcases hout with ⟨hdp, hm⟩ | ⟨-, hdp, b, hm⟩
    · rw [hm, h.writes a (by omega)]
    · rw [hm, memRead_write_of_ne _ _ (by omega), h.writes a (by omega)]
  · rcases frame.ends with ⟨hbt, -⟩ | ⟨hi, he, hres⟩
    · exact .inl hbt
    · exact .inr ⟨he, hstatus hi, hres⟩

/-- A decode of a source that is not too long, at its end. -/
theorem exec_blockDecode_soFar (hr : CodecReady s) (hl : ¬ decMaxSrcLen < s.srcLen)
    (h : exec .blockDecode s = .next t) : DecodeSoFar s t ∧ t.phase = .idle := by
  rw [exec_blockDecode_opened hr hl] at h
  exact runToEnd_keeps (fun _ _ hb hu hv => hu.visit hb hv) (decodeSoFar_opened s) h

/-- A decode of no bytes ends at its first token (R70, R103). -/
theorem exec_blockDecode_empty (hr : CodecReady s) (h0 : s.srcLen = 0) :
    exec .blockDecode s = .next (raise .invalidData (decodeOpened s)) := by
  have hl : ¬ decMaxSrcLen < s.srcLen := by
    rw [h0]
    exact Nat.not_lt_zero _
  have hspent : (decodeOpened s).srcLen ≤ (decodeOpened s).dec.sp := Nat.le_of_eq h0
  rw [exec_blockDecode_opened hr hl, runToEnd_busy rfl, decoderVisit_dToken rfl rfl,
    if_pos hspent, andThen_next, runToEnd_idle rfl]

/-! ### The statements -/

/-- Settles O59: what the encode wrote is a legal block of its source, and a legal block decodes. -/
theorem roundTrip : Obligations.RoundTrip := by
  intro s t u hs h hok ⟨hready, hmem, hblock, hlength, hbound, hroom⟩
  obtain ⟨b, hb⟩ := encoderEmitsALegalBlock s t hs h hok
  have hlen : b.expand.length = s.srcLen := by rw [hb.expands, sourceBytes_length]
  obtain ⟨v, hv, hst, hvalue, hdst⟩ := legalBlockDecodes u b hready hmem (by rw [hlength]; exact hbound)
    ⟨hb.legal, hblock.trans hb.written⟩ (by rw [hlen]; exact hroom)
  exact ⟨v, hv, hst, hvalue.trans hlen, hdst.trans hb.expands⟩

/-- Settles O7, by the lengths of a block's parts. -/
theorem sequenceCostsAndProduces : Obligations.SequenceCostsAndProduces := by
  intro q out last low _
  refine ⟨?_, ?_, ?_, fun b => List.length_append⟩
  · simp only [LzSeq.bytes, List.length_cons, List.length_append, lengthBytes_length, offsetBytes_length]
    omega
  · rw [LzSeq.apply_length, Nat.add_assoc]
  · simp only [lastBytes, List.length_cons, List.length_append, lengthBytes_length]
    omega

/-- Settles O13: a whole command is a start and steps; a started command ends, where its steps do. -/
theorem wholeCommandAgreesWithItsSteps : Obligations.WholeCommandAgreesWithItsSteps := by
  refine fun s t hs hi => ⟨exec_command_steps hi, ?_⟩
  rintro ⟨u, n, hu, hn⟩
  obtain ⟨t', ht'⟩ := exec_of_hostStart hs.ht hu
  obtain ⟨u', n', hu', hn'⟩ := exec_command_steps hi ht'
  obtain rfl : u = u' := by rw [hu] at hu'; cases hu'; rfl
  rw [ht', runToEnd_unique hn' hn]

/-- Settles O23: the visits leave that state alone, and do the same beside other contents of it. -/
theorem decoderIgnoresTableAndUnits : Obligations.DecoderIgnoresTableAndUnits := by
  intro s t e h pk lc hx
  have kept := exec_blockDecode_stable hx
  exact ⟨kept.enc, kept.ht, kept.peek, kept.lcp, exec_blockDecode_withUnits e h pk lc hx⟩

/-- Settles O25, by the frame of each element. -/
theorem streamElementFrame : Obligations.StreamElementFrame := by
  intro i s t hi h
  obtain ⟨hop, henc, hht, hpeek, hlcp, hmem, hends⟩ := exec_element_kept hi h
  exact ⟨hop, henc, hht, hpeek, hlcp, hmem, hends⟩

/-- Settles O39: the invariant keeps both cursors inside their buffers while literals remain. -/
theorem literalCheckAndCopySteps : Obligations.LiteralCheckAndCopySteps := by
  intro s hi
  refine ⟨fun ⟨hb, ho, hd⟩ => ?_, fun ⟨hb, ho, hd⟩ => ?_⟩
  · rw [step_decode hb ho, decoderVisit_dLitCheck hd, apply_ite Host.Outcome.next, apply_ite Host.Outcome.next]
    rfl
  · rw [step_decode hb ho]
    by_cases hn : s.dec.n = 0#32
    · rw [decoderVisit_dLitCopy_done hd hn, if_pos (word_eq_zero.1 hn)]
    · have hpos := word_pos hn
      have hin := hi.litCopy hd
      rw [decoderVisit_dLitCopy hb hd hn, if_neg (by omega), if_neg (by omega), if_neg (by omega),
        word_sub_one hn, decByte]

/-- Settles O40: with two bytes left the step is the offset's, with fewer the label raises. -/
theorem offsetAndMatchRunSteps : Obligations.OffsetAndMatchRunSteps := by
  intro s hsp b0 o
  have ho : (decOffset s).toNat = o := decOffset_toNat s
  refine ⟨fun ⟨hb, hop, hd⟩ => ?_, fun ⟨hb, hop, hd⟩ => ?_⟩
  · by_cases hshort : s.srcLen - s.dec.sp < 2
    · refine ⟨raise .invalidData s, ?_, ?_⟩
      · rw [step_decode hb hop, decoderVisit_dOffset hb hd, if_pos hshort]
      · rw [if_pos (.inl hshort)]
        exact ⟨rfl, rfl, rfl, rfl⟩
    · have hsrc : s.dec.sp + 2 ≤ s.srcLen := by omega
      obtain ⟨hlegal, hillegal⟩ := offsetCompletes s (decOffset s) hb hd hsrc
      rw [ho] at hlegal hillegal
      rw [step_offset hb hop hd hsrc]
      by_cases hbad : o = 0 ∨ s.dec.dp < o
      · refine ⟨_, hillegal hbad, ?_⟩
        rw [if_pos (.inr hbad)]
        exact ⟨rfl, rfl, rfl, rfl⟩
      · refine ⟨_, hlegal (by omega) (by omega), ?_⟩
        rw [if_neg (by omega), ← ho, BitVec.ofNat_toNat, BitVec.setWidth_eq]
  · rw [step_decode hb hop, decoderVisit_dMatchExt hb hd, apply_ite Host.Outcome.next]
    simp only [source_spent_iff hsp, byte_eq_255, ← BitVec.ofNat_toNat]
    rfl

/-- Settles O41: the invariant keeps the offset within the output, and the copy within the room. -/
theorem matchCheckAndCopySteps : Obligations.MatchCheckAndCopySteps := by
  intro s hi
  refine ⟨fun ⟨hb, ho, hd⟩ => ⟨(hi.offset (.inr (.inl hd))).2, ?_⟩, fun ⟨hb, ho, hd⟩ => ?_⟩
  · rw [step_decode hb ho, decoderVisit_dMatchCheck hd, apply_ite Host.Outcome.next]
    rfl
  · obtain ⟨hfrom, hroom⟩ := hi.matchCopy hd
    refine ⟨hfrom, ?_⟩
    rw [step_decode hb ho, decoderVisit_dMatchCopy hd]
    by_cases hn : s.dec.copyLen = 0#32
    · rw [if_pos hn, if_pos (word_eq_zero.1 hn)]
    · have hpos := word_pos hn
      rw [if_neg hn, if_neg (by omega), if_neg (by omega), word_sub_one hn]

/-- Settles O43: too long a source ends at the pre-check, and any other decode changes only what it has decoded. -/
theorem blockDecodeCompletesAndFrames : Obligations.BlockDecodeCompletesAndFrames := by
  intro s hr
  by_cases hl : decMaxSrcLen < s.srcLen
  · have hlong : 0x00FFFFFF < s.srcLen := hl
    exact ⟨_, exec_blockDecode_tooLong hr hl, rfl, rfl, ⟨rfl, rfl, rfl, rfl, rfl, rfl⟩, nofun,
      fun _ => rfl, ⟨fun _ => hlong, fun _ => rfl⟩, fun _ => rfl, fun h0 => absurd hlong (by omega),
      fun h => absurd rfl h⟩
  · obtain ⟨t, ht⟩ := exec_blockDecode_ends hr
    obtain ⟨⟨kept, -, hroom, hwrites, hres⟩, hi⟩ := exec_blockDecode_soFar hr hl ht
    rw [kept.dstLen] at hroom
    rw [kept.dstPtr] at hwrites
    obtain ⟨hended, hstatus, hvalue⟩ := hres.resolve_left fun hb => by rw [hi] at hb; cases hb
    refine ⟨t, ht, hi, hended, ⟨kept.params, kept.op, kept.dstPtr, kept.dstLen, kept.srcPtr, kept.srcLen⟩,
      fun hok => ?_, fun hne => ?_, ⟨fun h => absurd h hstatus, fun h => absurd h hl⟩, fun h => absurd h hstatus,
      fun h0 => ?_, fun _ => ⟨hroom, hwrites⟩⟩
    · have hv : t.value = t.dec.dp := (hvalue.resolve_right fun h => h.1 hok).2
      exact ⟨hv, by rw [hv]; exact hroom⟩
    · exact (hvalue.resolve_left fun h => hne h.1).2
    · rw [exec_blockDecode_empty hr h0] at ht
      cases ht
      exact ⟨rfl, rfl⟩

/-- Settles O32: the token in its position. -/
theorem tokenCompletes : Obligations.TokenCompletes := by
  intro s l m hb hd hsrc
  show execToken l m s = _
  rw [execToken, inPosition_ready (c := .token) hb hd hsrc]
  simp only [nibbles_eq_ofNat, nibble_eq_fifteen, ← BitVec.ofNat_toNat]

/-- Settles O33: both bytes of a run in their position. -/
theorem literalExtensionCompletes : Obligations.LiteralExtensionCompletes := by
  intro s r hb hd hsrc
  refine ⟨inPosition_ready hb hd hsrc, fun hr => ?_⟩
  show execLitExtEnd r s = _
  rw [execLitExtEnd, if_neg (by rw [byte_eq_255]; omega), inPosition_ready (c := .litExt) hb hd hsrc,
    literalExtension, BitVec.ofNat_toNat]

/-- Settles O34: no test of the literal fails. -/
theorem literalCompletes : Obligations.LiteralCompletes := by
  intro s b hb hd hn hsrc hdst
  have hroom : ¬ decRemainingSrc s < 1 := by
    rw [decRemainingSrc]
    omega
  show execLiteral b s = _
  rw [execLiteral, if_pos ⟨hb, hd, hn⟩, if_neg hroom, if_neg (by omega)]

/-- Settles O36: both bytes of a run in their position. -/
theorem matchExtensionCompletes : Obligations.MatchExtensionCompletes := by
  intro s r hb hd hsrc
  refine ⟨inPosition_ready hb hd hsrc, fun hr => ?_⟩
  show execMatchExtEnd r s = _
  rw [execMatchExtEnd, if_neg (by rw [byte_eq_255]; omega), inPosition_ready (c := .matchExt) hb hd hsrc,
    matchExtension, BitVec.ofNat_toNat]

/-- Settles O37, by the visits to the two labels. -/
theorem decoderFirstAndLastSteps : Obligations.DecoderFirstAndLastSteps := by
  refine fun s => ⟨fun ⟨hb, ho, hd⟩ => ?_, fun ⟨hb, ho, hd⟩ hsp => ?_⟩
  · rw [step_decode hb ho, decoderVisit_dPrecheck hd, apply_ite Host.Outcome.next]
    rfl
  · rw [step_decode hb ho, decoderVisit_dEndCheck hd, apply_ite Host.Outcome.next]
    simp only [source_spent_iff hsp]
    rfl

/-- Settles O38, by the visits to the two labels, the byte's fields as numbers. -/
theorem tokenAndLiteralRunSteps : Obligations.TokenAndLiteralRunSteps := by
  intro s hsp b
  refine ⟨fun ⟨hb, ho, hd⟩ => ?_, fun ⟨hb, ho, hd⟩ => ?_⟩
  · rw [step_decode hb ho, decoderVisit_dToken hb hd, apply_ite Host.Outcome.next]
    simp only [source_spent_iff hsp, highNibble_setWidth, highNibble_eq_fifteen]
    rfl
  · rw [step_decode hb ho, decoderVisit_dLitExt hb hd, apply_ite Host.Outcome.next]
    simp only [source_spent_iff hsp, byte_eq_255, ← BitVec.ofNat_toNat]
    rfl

end Sys2Proof.Machine
end

section
/-! PROOFS. The block encoder (43_encoder.md): the hash, each label's step, the pre-checks, what a whole encode
leaves unchanged, the short path, and that the block is a function of the source bytes. -/

namespace Sys2Proof.Machine

open Sys2Proof.Config

variable {s s' t u : State}

/-! ### The bytes of a sequence as numbers (R61, R66, R139, R141) -/

/-- The token of a literal length (R139, R145). -/
theorem literalToken_eq_ofNat (n : Nat) : literalToken n = BitVec.ofNat 8 (16 * min n 15) := by
  have hshift : ∀ k ≤ 15, BitVec.ofNat 8 k <<< 4 = BitVec.ofNat 8 (16 * k) := by decide
  unfold literalToken
  split
  case isTrue h => rw [Nat.min_eq_left (by omega), hshift n (by omega)]
  case isFalse h => rw [Nat.min_eq_right (by omega)]

theorem matchNibble_eq_ofNat (k : Nat) : matchNibble k = BitVec.ofNat 8 (min k 15) := by
  unfold matchNibble
  split
  case isTrue h => rw [Nat.min_eq_left (by omega)]
  case isFalse h => rw [Nat.min_eq_right (by omega)]

/-- The two bytes of an offset that fits in 16 bits (R66). -/
theorem offsetBytes_eq_ofNat {off : Nat} (h : off ≤ 65535) :
    offsetBytes off = [BitVec.ofNat 8 (off % 256), BitVec.ofNat 8 (off / 256)] := by
  have hlow : lowByte (BitVec.ofNat 16 off) = BitVec.ofNat 8 (off % 256) := by
    apply BitVec.eq_of_toNat_eq
    rw [lowByte_toNat, BitVec.toNat_ofNat, BitVec.toNat_ofNat]
    omega
  have hhigh : highByte (BitVec.ofNat 16 off) = BitVec.ofNat 8 (off / 256) := by
    apply BitVec.eq_of_toNat_eq
    rw [highByte_toNat, BitVec.toNat_ofNat, BitVec.toNat_ofNat]
    omega
  rw [offsetBytes, hlow, hhigh]

/-! ### A probe of the table (R135, R136, R143, R144) -/

theorem htRead_probeHt_self (hw : storeWf s.ht) (sp : Nat) :
    htRead (probeHt s sp) (hash (probeWord s sp)) = BitVec.ofNat 32 sp :=
  storeRead_write_self _ _ _ hw

theorem htRead_probeHt_of_ne {sp : Nat} {i : BitVec 12} (h : i ≠ hash (probeWord s sp)) :
    htRead (probeHt s sp) i = htRead s.ht i :=
  storeRead_write_of_ne _ _ _ _ fun heq => h (BitVec.eq_of_toNat_eq heq)

/-- A candidate is valid when its offset fits and its four bytes agree (R136). -/
theorem probeValid_iff {sp : Nat} :
    probeValid s sp ↔ sp - probeMatch s sp ≤ 65535 ∧ SourceAgrees s sp (probeMatch s sp) 4 := by
  refine ⟨fun h => ⟨h.1, sourceAgrees_of_valid h⟩, fun ⟨hoff, hagree⟩ => ⟨hoff, memRead32_congr fun i hi => ?_⟩⟩
  rw [Nat.add_assoc, Nat.add_assoc]
  exact hagree i hi

/-! ### The common part of a match (R141) -/

theorem matchExtra_agrees (h : s.enc.sp + 4 ≤ s.enc.matchLimit) :
    SourceAgrees s (s.enc.sp + 4) (s.enc.matchOff + 4) (matchExtra s) := by
  intro x hx
  have := lcpCount_agree s.mem (s.srcPtr + (s.enc.matchOff + 4)) (Nat.add_le_add_left h s.srcPtr) hx
  rwa [Nat.add_assoc, Nat.add_assoc s.srcPtr (s.enc.matchOff + 4)] at this

/-- Below `match_limit` the common part ends where the bytes differ. -/
theorem matchExtra_stops (h : s.enc.sp + 4 + matchExtra s < s.enc.matchLimit) :
    memRead s.mem (s.srcPtr + (s.enc.sp + 4 + matchExtra s)) ≠
      memRead s.mem (s.srcPtr + (s.enc.matchOff + 4 + matchExtra s)) := by
  have := lcpCount_stops s.mem (p := s.srcPtr + (s.enc.sp + 4)) (lim := s.srcPtr + s.enc.matchLimit)
    (s.srcPtr + (s.enc.matchOff + 4)) (by omega) (by simp only [matchExtra] at h; omega)
  rwa [Nat.add_assoc, Nat.add_assoc s.srcPtr (s.enc.matchOff + 4)] at this

/-! ### A step of a running encode (R146) -/

theorem EncodeRunning.busy (hr : EncodeRunning s) : s.phase = .busy := hr.1

theorem EncodeRunning.disjoint (hr : EncodeRunning s) :
    disjointRanges s.srcPtr s.srcLen s.dstPtr s.dstLen = true := hr.2.1

theorem EncodingAt.label {e : EState} (h : EncodingAt e s) : s.enc.estate = e := h.2.1

theorem EncodingAt.running {e : EState} (h : EncodingAt e s) : EncodeRunning s := h.2.2

theorem EncodingAt.step_eq {e : EState} (h : EncodingAt e s) : step s = encoderVisit s :=
  step_encode h.running.busy h.1

/-- The pre-checks: the length, then the room (R131, R132). -/
theorem encoderVisit_ePrecheck (he : s.enc.estate = .ePrecheck) :
    encoderVisit s = .next
      (if encMaxSrcLen < s.srcLen then raise .srcTooLong s
      else if s.dstLen < worstCaseSize s.srcLen then
        raise .dstTooShort { s with enc := { s.enc with wc := worstCaseSize s.srcLen } }
      else { s with enc := { s.enc with
        wc := worstCaseSize s.srcLen, sp := 0, literalStart := 0, dp := 0
        estate := if s.srcLen ≤ shortInput then .eFinal else .eSetup } }) := by
  rw [encoderVisit, he, apply_ite Host.Outcome.next, apply_ite Host.Outcome.next]
  rfl

/-- The matcher runs for more than 12 source bytes only (R132). -/
theorem EncodeRunning.setupBound (hr : EncodeRunning s) (he : s.enc.estate = .eSetup) : 12 < s.srcLen := by
  obtain ⟨-, -, -, hc⟩ := hr.clause (by simp [he])
  simp only [EncClause, he] at hc
  exact hc.1

/-! ### An encode from its start (R25, R131, R132) -/

/-- The state of an encode that has passed its pre-checks. -/
def encodeOpened (s : State) : State :=
  { encodeStart s with enc := { (encodeStart s).enc with
    wc := worstCaseSize s.srcLen
    estate := if s.srcLen ≤ shortInput then .eFinal else .eSetup } }

theorem encoderVisit_encodeStart (s : State) :
    encoderVisit (encodeStart s) = .next
      (if encMaxSrcLen < s.srcLen then raise .srcTooLong (encodeStart s)
      else if s.dstLen < worstCaseSize s.srcLen then
        raise .dstTooShort { encodeStart s with enc := { (encodeStart s).enc with wc := worstCaseSize s.srcLen } }
      else encodeOpened s) :=
  encoderVisit_ePrecheck rfl

theorem exec_blockEncode_tooLong (hr : CodecReady s) (hl : encMaxSrcLen < s.srcLen) :
    exec .blockEncode s = .next (raise .srcTooLong (encodeStart s)) := by
  rw [exec_blockEncode_eq hr, encodeFuel, runToEnd_busy rfl, encoderVisit_encodeStart, if_pos hl, andThen_next,
    runToEnd_idle rfl]

theorem exec_blockEncode_noRoom (hr : CodecReady s) (hl : ¬ encMaxSrcLen < s.srcLen)
    (hroom : s.dstLen < worstCaseSize s.srcLen) :
    exec .blockEncode s = .next (raise .dstTooShort
      { encodeStart s with enc := { (encodeStart s).enc with wc := worstCaseSize s.srcLen } }) := by
  rw [exec_blockEncode_eq hr, encodeFuel, runToEnd_busy rfl, encoderVisit_encodeStart, if_neg hl, if_pos hroom,
    andThen_next, runToEnd_idle rfl]

theorem exec_blockEncode_opened (hr : CodecReady s) (hl : ¬ encMaxSrcLen < s.srcLen)
    (hroom : ¬ s.dstLen < worstCaseSize s.srcLen) :
    exec .blockEncode s =
      runToEnd encoderVisit ((s.srcLen + 2) * (s.srcLen + 20) + 49) (encodeOpened s) := by
  rw [exec_blockEncode_eq hr, encodeFuel, runToEnd_busy rfl, encoderVisit_encodeStart, if_neg hl, if_neg hroom,
    andThen_next]

/-- An encode that ended with `ok` has passed both pre-checks. -/
theorem exec_blockEncode_passed (h : exec .blockEncode s = .next t) (hok : t.status = .ok) :
    ¬ encMaxSrcLen < s.srcLen ∧ ¬ s.dstLen < worstCaseSize s.srcLen := by
  have hr := exec_blockEncode_ready h
  by_cases hl : encMaxSrcLen < s.srcLen
  · rw [exec_blockEncode_tooLong hr hl] at h
    cases h
    cases hok
  · by_cases hroom : s.dstLen < worstCaseSize s.srcLen
    · rw [exec_blockEncode_noRoom hr hl hroom] at h
      cases h
      cases hok
    · exact ⟨hl, hroom⟩

theorem encodeOpened_estate (s : State) :
    (encodeOpened s).enc.estate = .eFinal ∨ (encodeOpened s).enc.estate = .eSetup :=
  ite_eq_or_eq _ _ _

theorem encodeOpened_past (s : State) : (encodeOpened s).enc.estate ≠ .ePrecheck := by
  rcases encodeOpened_estate s with h | h <;> simp [h]

theorem encodeRunning_encodeStart (hr : CodecReady s) : EncodeRunning (encodeStart s) :=
  encodeRunning_begin (s := { s with phase := .busy }) rfl hr.disjoint

theorem encodeRunning_encodeOpened (hr : CodecReady s) (hht : storeWf s.ht) (hl : ¬ encMaxSrcLen < s.srcLen)
    (hroom : ¬ s.dstLen < worstCaseSize s.srcLen) : EncodeRunning (encodeOpened s) := by
  obtain ⟨t, ht, hd⟩ := encoderVisit_progress (encodeRunning_encodeStart hr) hht
  rw [encoderVisit_encodeStart, if_neg hl, if_neg hroom] at ht
  cases ht
  rcases hd with ⟨hi, -⟩ | ⟨hrun, -⟩
  · cases hi
  · exact hrun

/-! ### What an encode writes (R130, R145, R150) -/

/-- On the way through an encode of `s` past its pre-checks: the bytes before `dp` are all that has changed, and
the result, once written, is `ok` and `dp`. -/
structure EncodeSoFar (s u : State) : Prop extends EncodeWithin s.srcLen u where
  stable : EncStable s u
  past : u.enc.estate ≠ .ePrecheck
  writes : WritesOnly u.dstPtr u.enc.dp s u
  result : u.phase = .idle → u.ended = true ∧ u.status = .ok ∧ u.value = u.enc.dp

theorem encodeSoFar_opened (hr : CodecReady s) (hht : storeWf s.ht) (hl : ¬ encMaxSrcLen < s.srcLen)
    (hroom : ¬ s.dstLen < worstCaseSize s.srcLen) : EncodeSoFar s (encodeOpened s) where
  table := hht
  srcLen := rfl
  running := .inl (encodeRunning_encodeOpened hr hht hl hroom)
  stable := ⟨rfl, rfl, rfl, rfl, rfl, rfl, rfl, id, id, fun _ _ => rfl⟩
  past := encodeOpened_past s
  writes _ _ := rfl
  result := nofun

theorem EncodeSoFar.visit (h : EncodeSoFar s u) (hb : u.phase = .busy) (hv : encoderVisit u = .next t) :
    EncodeSoFar s t := by
  have hrun : EncodeRunning u := h.running.resolve_right fun hi => by rw [hb] at hi; cases hi.1
  obtain ⟨kept, hends⟩ := encoderVisit_frame hv
  obtain ⟨hpast, hdp, hmem, hres⟩ := encoderVisit_writes hrun h.past hv
  refine ⟨encoderVisit_within hb h.toEncodeWithin hv, h.stable.trans kept, hpast, fun a ha => ?_, fun hi => ?_⟩
  · rw [kept.dstPtr] at ha
    rw [hmem a ha, h.writes a (by omega)]
  · have hended := (hends.resolve_left fun hk => by rw [hk.1, hb] at hi; cases hi).ended
    exact ⟨hended, hres hi⟩

/-- An encode that has passed its pre-checks, at its end. -/
theorem exec_blockEncode_soFar (hr : CodecReady s) (hht : storeWf s.ht) (hl : ¬ encMaxSrcLen < s.srcLen)
    (hroom : ¬ s.dstLen < worstCaseSize s.srcLen) (h : exec .blockEncode s = .next t) :
    EncodeSoFar s t ∧ t.phase = .idle := by
  rw [exec_blockEncode_opened hr hl hroom] at h
  exact runToEnd_keeps (fun _ _ hb hu hv => hu.visit hb hv) (encodeSoFar_opened hr hht hl hroom) h

/-! ### The short path (R132) -/

/-- What an encode of at most 12 bytes writes: a token and the bytes, with no length run. -/
def shortBlock (s : State) : List Byte := BitVec.ofNat 8 (16 * s.srcLen) :: sourceBytes s

/-- Past the pre-checks of at most 12 bytes the only visit is the final sequence's. -/
theorem encoderVisit_encodeOpened_short (hr : CodecReady s) (hs : s.srcLen ≤ 12) (hroom : s.srcLen + 16 ≤ s.dstLen) :
    encoderVisit (encodeOpened s) = .next (ret (s.srcLen + 1) { encodeOpened s with
      mem := writeBytes s.mem s.dstPtr (shortBlock s)
      enc := { (encodeOpened s).enc with finalLiteralLen := s.srcLen, dp := s.srcLen + 1 } }) := by
  have hrun : lengthBytes s.srcLen = [] := if_pos (by omega)
  have hend : 0 + 1 + (lengthBytes s.srcLen).length + s.srcLen = s.srcLen + 1 := by
    rw [hrun, List.length_nil]
    omega
  have hbytes : literalToken s.srcLen :: (lengthBytes s.srcLen ++ sourceBytes s) = shortBlock s := by
    rw [literalToken_eq_ofNat, Nat.min_eq_left (by omega), hrun, List.nil_append, shortBlock]
  rw [encoderVisit, show (encodeOpened s).enc.estate = .eFinal from if_pos hs, ← hend, ← hbytes]
  exact encFinal_eq hr.disjoint (Nat.zero_le _) (hend.trans_le (show s.srcLen + 1 ≤ s.dstLen by omega))

theorem exec_blockEncode_short (hr : CodecReady s) (hs : s.srcLen ≤ 12) (hroom : s.srcLen + 16 ≤ s.dstLen) :
    exec .blockEncode s = .next (ret (s.srcLen + 1) { encodeOpened s with
      mem := writeBytes s.mem s.dstPtr (shortBlock s)
      enc := { (encodeOpened s).enc with finalLiteralLen := s.srcLen, dp := s.srcLen + 1 } }) := by
  have hwc : worstCaseSize s.srcLen = s.srcLen + 16 := by
    simp only [worstCaseSize, wcDiv, wcAdd]
    omega
  rw [exec_blockEncode_opened hr (by simp only [encMaxSrcLen]; omega) (by omega), runToEnd_busy rfl,
    encoderVisit_encodeOpened_short hr hs hroom, andThen_next, runToEnd_idle rfl]

/-! ### Two encodes from their start (R130, R150) -/

/-- Two encodes of the same source bytes are in step once past their pre-checks. -/
theorem encodeOpened_agree (hsrc : sourceBytes s' = sourceBytes s) :
    EncAgree (encodeOpened s) (encodeOpened s') := by
  have hlen : s'.srcLen = s.srcLen := by
    rw [← sourceBytes_length s', hsrc, sourceBytes_length]
  have hbytes : bytesFrom s'.mem s'.srcPtr s.srcLen = bytesFrom s.mem s.srcPtr s.srcLen := by
    rw [← hlen, ← sourceBytes, hsrc, sourceBytes, hlen]
  have hlabel := encodeOpened_estate s
  have hother : ∀ e : EState, e ≠ .eFinal → e ≠ .eSetup → (encodeOpened s).enc.estate ≠ e := by
    rintro e hf hs rfl
    exact hlabel.elim hf hs
  exact
    { srcLen := hlen
      src := fun i hi => memRead_of_bytesFrom_eq hbytes hi
      phase := rfl
      result := nofun
      sp := rfl
      literalStart := rfl
      dp := rfl
      estate := by rw [encodeOpened, encodeOpened, hlen]
      written := fun i hi => absurd hi (Nat.not_lt_zero i)
      limits := fun hs hf => absurd hlabel (not_or.2 ⟨hf, hs⟩)
      stride := fun he => absurd he (hother .eScan nofun nofun)
      matchOff := fun he => by rcases he with he | he | he <;> exact absurd he (hother _ nofun nofun)
      token := fun he => absurd he (hother .eMatch nofun nofun) }

/-- Two encodes in step, ended, have given the same answer. -/
theorem EncAgree.sameAnswer (h : EncAgree t u) (hi : t.phase = .idle) : SameAnswer t u := by
  obtain ⟨hst, hv, hle, hne⟩ := h.result hi
  exact ⟨hst, hv, bytesFrom_congr fun i hlt => h.written i (by omega) fun he => absurd he hne⟩

/-! ### The statements -/

/-- Settles O10: the hash's bits of the product, before and after the cut to 32 bits. -/
theorem hashIsTopBitsOfProduct : Obligations.HashIsTopBitsOfProduct := by
  intro x
  obtain ⟨hlow, hfull⟩ := topBits_of_cut (x.toNat * 2654435761)
  have hbits : (hash x).toNat = x.toNat * 2654435761 % 2 ^ 32 / 2 ^ 20 % 4096 := productBits_toNat x hashMult
  exact ⟨hbits.trans hlow, hbits.trans hfull⟩

/-- Settles O47, by the visits to the three labels. -/
theorem encoderSetupSteps : Obligations.EncoderSetupSteps := by
  refine fun s => ⟨fun h => ?_, fun h => ?_, fun h => ?_⟩
  · rw [h.step_eq, encoderVisit_ePrecheck h.label]
    rfl
  · have hlong := h.running.setupBound h.label
    have hv : step s = encSetup s := by rw [h.step_eq, encoderVisit, h.label]
    refine ⟨_, hv, fun _ => rfl, rfl, ?_, ?_⟩ <;> simp only [matchLimitTail, finalLimitTail] <;> omega
  · rw [h.step_eq, encoderVisit, h.label]
    rfl

/-- Settles O48, by the stop and the probe of the scan. -/
theorem encoderScanStep : Obligations.EncoderScanStep := by
  intro s h hs sp x m
  refine ⟨fun hstop => by rw [h.step_eq, scanStop h.label hstop], fun hgo => ?_⟩
  obtain ⟨-, -, -, hm⟩ := h.running.scanBounds h.label
  obtain ⟨pk, e, hv, hd⟩ := h.running.scanProbe h.label hgo
  simp only [probeValid_iff] at hd
  refine ⟨hm, _, h.step_eq.trans hv, htRead_probeHt_self hs.ht sp,
    fun i hi => htRead_probeHt_of_ne hi, ?_, hd⟩
  rw [Nat.shiftRight_eq_div_pow]
  rfl

/-- Settles O49, by how far the extension goes and where it stops. -/
theorem encoderBackwardStep : Obligations.EncoderBackwardStep := by
  intro s h
  obtain ⟨hstart, -, -, hv⟩ := h.running.backwardStep h.label
  obtain ⟨hle, hliteral, hagree⟩ :=
    backwardCount_spec s.mem s.srcPtr s.enc.literalStart s.enc.matchOff s.enc.sp
  exact ⟨_, hle, hliteral hstart, hagree, backwardCount_stops _ _ _ _ _ hstart, h.step_eq.trans hv⟩

/-- Settles O50: the invariant leaves room for the run and the literals. -/
theorem encoderTokenStep : Obligations.EncoderTokenStep := by
  intro s h n bs
  obtain ⟨hstart, hsp, hroom⟩ := h.running.tokenBounds h.label
  have hlen : s.enc.dp + 1 + bs.length = s.enc.dp + 1 + (lengthBytes n).length + n := by
    rw [List.length_append, bytesFrom_length, Nat.add_assoc _ _ n]
  have htok : literalToken n = if n < 15 then BitVec.ofNat 8 (16 * n) else 0xF0#8 := by
    rw [literalToken_eq_ofNat]
    split
    case isTrue hn => rw [Nat.min_eq_left (by omega)]
    case isFalse hn => rw [Nat.min_eq_right (by omega)]
  refine ⟨hlen ▸ hroom, ?_⟩
  rw [h.step_eq, encoderVisit, h.label, hlen, ← htok]
  exact encToken_eq h.running.disjoint hstart hsp hroom

/-- Settles O51: the invariant bounds the offset, and the scanner gives the common part. -/
theorem encoderMatchStep : Obligations.EncoderMatchStep := by
  intro s h
  obtain ⟨hlimit, hsp, hoff, hmax, hextra, hroom, htok⟩ := h.running.matchBounds h.label
  refine ⟨by omega, hmax, matchExtra s, hextra, matchExtra_agrees hsp, matchExtra_stops, ?_⟩
  intro off tok bs
  have hbs : bs = offsetBytes off ++ lengthBytes (matchExtra s) := by rw [offsetBytes_eq_ofNat hmax]
  have hlen : s.enc.dp + bs.length = s.enc.dp + 2 + (lengthBytes (matchExtra s)).length := by
    rw [hbs, List.length_append, offsetBytes_length, Nat.add_assoc]
  refine ⟨hlen ▸ hroom, by omega, ?_⟩
  have hnibble : tok = s.enc.token ||| matchNibble (matchExtra s) := by rw [matchNibble_eq_ofNat]
  rw [h.step_eq, encoderVisit, h.label, hlen, hbs, hnibble]
  exact encMatch_eq h.running.disjoint hsp (by omega) (by omega) hroom (by omega)

/-- Settles O52, by the visits to the two labels. -/
theorem encoderAdvanceAndBackfillSteps : Obligations.EncoderAdvanceAndBackfillSteps := by
  refine fun s hs => ⟨fun h => ⟨h.running.advanceBounds h.label, ?_⟩, fun h => ?_⟩
  · rw [h.step_eq, encoderVisit, h.label]
    rfl
  · obtain ⟨hmin, hsrc, -⟩ := h.running.followBounds (.inl h.label)
    have hv : step s = encBackfill s := by rw [h.step_eq, encoderVisit, h.label]
    obtain ⟨pk, hb⟩ := encBackfill_eq (s := s) (by omega)
    exact ⟨_, hv.trans hb, htRead_probeHt_self hs.ht (s.enc.sp - 2), fun i hi => htRead_probeHt_of_ne hi, rfl⟩

/-- Settles O53, by the probe of the immediate-follow check. -/
theorem encoderFollowStep : Obligations.EncoderFollowStep := by
  intro s h hs x m
  obtain ⟨hmin, hsrc, hbelow⟩ := h.running.followBounds (.inr h.label)
  have hm : probeMatch s s.enc.sp < s.enc.sp := hbelow _
  have hv : step s = encFollow s := by rw [h.step_eq, encoderVisit, h.label]
  refine ⟨hm, ?_⟩
  obtain ⟨pk, ⟨hvalid, hf⟩ | ⟨hvalid, hf⟩⟩ := encFollow_eq (s := s) (by omega) (by omega) <;>
    rw [probeValid_iff] at hvalid <;>
    refine ⟨_, hv.trans hf, htRead_probeHt_self hs.ht _, fun i hi => htRead_probeHt_of_ne hi, ?_⟩
  · exact .inl ⟨hvalid.1, hvalid.2, rfl⟩
  · exact .inr ⟨hvalid, rfl⟩

/-- Settles O54: the invariant leaves room for the final sequence. -/
theorem encoderFinalStep : Obligations.EncoderFinalStep := by
  intro s h n bs
  obtain ⟨hstart, hroom⟩ := h.running.finalBounds h.label
  have hbs : bs = literalToken n :: (lengthBytes n ++ bytesFrom s.mem (s.srcPtr + s.enc.literalStart) n) := by
    rw [literalToken_eq_ofNat]
  have hlen : s.enc.dp + bs.length = s.enc.dp + 1 + (lengthBytes n).length + n := by
    rw [hbs, List.length_cons, List.length_append, bytesFrom_length]
    omega
  refine ⟨hlen ▸ hroom, ?_⟩
  rw [h.step_eq, encoderVisit, h.label, hlen, hbs]
  exact encFinal_eq h.running.disjoint hstart hroom

/-- Settles O55: the first visit raises, and the start has set the cursors. -/
theorem blockEncodePrechecks : Obligations.BlockEncodePrechecks := by
  refine fun s hr => ⟨fun hl => ?_, fun hl hroom => ?_⟩
  · rw [exec_blockEncode_tooLong hr hl, raise, State.finish, ← hr.1]
    rfl
  · rw [exec_blockEncode_noRoom hr (Nat.not_lt.2 hl) hroom, raise, State.finish, ← hr.1]
    rfl

/-- Settles O56: every visit past the pre-checks writes below the cursor, which is the result. -/
theorem blockEncodeCompletes : Obligations.BlockEncodeCompletes := by
  intro s hr hs hl hroom
  obtain ⟨t, ht⟩ := exec_blockEncode_ends hr hs.ht
  obtain ⟨hend, hi⟩ := exec_blockEncode_soFar hr hs.ht (Nat.not_lt.2 hl) (Nat.not_lt.2 hroom) ht
  obtain ⟨hended, hok, hvalue⟩ := hend.result hi
  have kept := hend.stable
  refine ⟨t, ht, hi, hended, hok, exec_blockEncode_value_le hs.ht ht, ?_,
    ⟨kept.params, kept.op, kept.dstPtr, kept.dstLen, kept.srcPtr, kept.srcLen⟩, kept.dec⟩
  rw [hvalue, ← kept.dstPtr]
  exact hend.writes

/-- Settles O57: past the pre-checks the final sequence follows at once. -/
theorem shortInputIsOneSequence : Obligations.ShortInputIsOneSequence := by
  intro s hr hs hshort hroom
  have hlen : (shortBlock s).length = s.srcLen + 1 := by rw [shortBlock, List.length_cons, sourceBytes_length]
  refine ⟨_, exec_blockEncode_short hr hshort hroom, rfl, rfl, ?_, rfl, rfl, rfl⟩
  show bytesFrom (writeBytes s.mem s.dstPtr (shortBlock s)) s.dstPtr (s.srcLen + 1) = shortBlock s
  rw [← hlen, bytesFrom_writeBytes_self _ _ _ hs.mem]

/-- Settles O60: past their pre-checks the two encodes stay in step to their ends. -/
theorem encodeDependsOnSourceOnly : Obligations.EncodeDependsOnSourceOnly := by
  intro s s' t hr hr' hs hs' hsrc hroom' h hok
  have hlen : s'.srcLen = s.srcLen := by rw [← sourceBytes_length s', hsrc, sourceBytes_length]
  obtain ⟨hl, hroom⟩ := exec_blockEncode_passed h hok
  have hl' : ¬ encMaxSrcLen < s'.srcLen := by rwa [hlen]
  have hroom' : ¬ s'.dstLen < worstCaseSize s'.srcLen := Nat.not_lt.2 hroom'
  rw [exec_blockEncode_opened hr hl hroom] at h
  obtain ⟨hruns, hi⟩ := runs_of_runToEnd h
  obtain ⟨u, hruns', hagree⟩ := encoder_runs_agree hruns (encodeOpened_agree hsrc) (encodeOpened_past s)
    (fun _ => ⟨encodeRunning_encodeOpened hr hs.ht hl hroom, encodeRunning_encodeOpened hr' hs'.ht hl' hroom'⟩)
    hs.mem hs'.mem hs.ht hs'.ht
  obtain ⟨t', ht'⟩ := exec_blockEncode_ends hr' hs'.ht
  have hrun := ht'
  rw [exec_blockEncode_opened hr' hl' hroom'] at hrun
  obtain rfl : t' = u := runToEnd_of_runs hruns' (hagree.phase.trans hi) hrun
  exact ⟨t', ht', hagree.sameAnswer hi⟩

end Sys2Proof.Machine
end

section
/-! PROOFS. The worst-case size (44_worst_case_size.md): the sum, its range over the accepted lengths, and the
command that answers it. -/

namespace Sys2Proof.Machine

open Sys2Proof.Config

/-- The sum as the spec writes it (R170). -/
theorem worstCaseSize_eq (n : Nat) : worstCaseSize n = n + n / 255 + 16 := rfl

theorem sixteen_le_worstCaseSize (n : Nat) : 16 ≤ worstCaseSize n := Nat.le_add_left ..

/-- The size at the limit of the accepted lengths (R172). -/
theorem worstCaseSize_encMaxSrcLen : worstCaseSize encMaxSrcLen = 2122219150 := rfl

/-- A command whose one visit ends it is idle again, so a start and an end set only the result registers. -/
theorem State.finish_of_idle {s : State} (h : s.phase = .idle) (st : Status) (v : Nat) :
    s.finish st v = { s with status := st, value := v, ended := true } := by
  rw [State.finish, ← h]

/-! ### The statements -/

/-- Settles O26: the one visit ends the command, on either side of the limit. -/
theorem worstCaseDstLenResult : Obligations.WorstCaseDstLenResult := by
  refine ⟨rfl, fun s h => ?_⟩
  rw [exec_worstCase_eq h, raise, ret, State.finish_of_idle h, State.finish_of_idle h, worstCaseSize_eq]
  rfl

/-- Settles O27: the size at the limit is evaluated, and monotonicity bounds every accepted length by it. -/
theorem worstCaseSizeRange : Obligations.WorstCaseSizeRange :=
  fun a _ => ⟨worstCaseSize_mono, sixteen_le_worstCaseSize a,
    fun h => (worstCaseSize_mono h).trans_eq worstCaseSize_encMaxSrcLen, worstCaseSize_encMaxSrcLen, by decide⟩

end Sys2Proof.Machine
end

section
/-! PROOFS. The state after reset (70_reset_and_hazards.md): it meets the machine's invariant, and a host's read of
the result gives the free values. -/

namespace Sys2Proof.Machine

open Sys2Proof.Config

/-- Before any command has ended the host reads the free values (R25). -/
theorem hostReadResult_not_ended {s : State} (h : s.phase = .idle) (he : s.ended = false) :
    hostReadResult s = .next (Status.ofCode unspecifiedStatus, unspecifiedValue % 2 ^ s.params.xlen) := by
  simp [hostReadResult, h, he]

/-- An idle machine runs no command, so its invariant is that of its stores and registers. -/
theorem machineInv_of_idle {s : State} (h : s.phase = .idle) (hs : StoresCanonical s) (hr : RegistersFit s)
    (hf : FailedValueZero s) : MachineInv s :=
  ⟨hs, hr, hf, fun hb => by rw [h] at hb; cases hb⟩

theorem storeWf_nil {w : Nat} : storeWf ([] : List (Nat × BitVec w)) := ⟨List.Pairwise.nil, by simp⟩

/-- Both stores are empty after reset (log 4 and 5). -/
theorem storesCanonical_reset : StoresCanonical State.reset := ⟨storeWf_nil, storeWf_nil⟩

/-- Every `XLEN`-bit register is 0 after reset, and `XLEN` is the least the spec allows (R6). -/
theorem registersFit_reset : RegistersFit State.reset where
  xlen := show 32 ≤ 32 from Nat.le_refl _
  dstPtr := Nat.two_pow_pos _
  dstLen := Nat.two_pow_pos _
  srcPtr := Nat.two_pow_pos _
  srcLen := Nat.two_pow_pos _
  value := Nat.two_pow_pos _

/-! ### The statement -/

/-- Settles O14: the machine is idle with empty stores and registers of 0, and no command has ended. -/
theorem resetMeetsTheInvariant : Obligations.ResetMeetsTheInvariant :=
  ⟨rfl, machineInv_of_idle rfl storesCanonical_reset registersFit_reset fun _ => rfl,
    hostReadResult_not_ended rfl rfl⟩

end Sys2Proof.Machine
end
